-- ==== Sys2Proof/Word.lean ====
section
/-! DEFINITION. The word types of the register codec, the colour pipeline and the device session
(spec rules R7, R8, R13, R19, R24). Bit 0 is the least significant bit of every word. -/

namespace Sys2Proof

/-- One byte of the transport (R33, R34). -/
abbrev Byte := BitVec 8

/-- A half: one 16-bit device register (R24). -/
abbrev Half := BitVec 16

/-- A 32-bit configuration word or channel word (R50). -/
abbrev Word := BitVec 32

/-- A reconstructed channel value, `W_V = 36` bits unsigned (R19). -/
abbrev Wide := BitVec 36

/-- A register address of the device, 8 bits (R24). -/
abbrev RegAddr := BitVec 8

/-- A name of the caller's choosing (R64), numbered; a well-formed line uses the numbers 0 to 255. -/
abbrev Name := Nat

end Sys2Proof
end

