-- ==== Sys2Proof/Machine/Bits.lean ====
section
/-! DEFINITION. Bit fields and byte order: generic insert and extract (spec rule R58), big-endian reassembly
(R36), halves (R37), the write payload (R38). -/

namespace Sys2Proof.Machine

/-- R58: `insert(v, hi, lo) = v << lo`, on a value of the field's width. -/
def insertField {n : Nat} (v : BitVec n) (lo : Nat) : Word := v.setWidth 32 <<< lo

/-- R58: `extract(w, hi, lo) = w[hi:lo]`, here with `width = hi - lo + 1`. -/
def extractField (w : Word) (lo width : Nat) : BitVec width := w.extractLsb' lo width

/-- R36: `be16(b0, b1)`, the byte that arrives first is the more significant. -/
def be16 (b0 b1 : Byte) : Half := b0 ++ b1

/-- R37: `join32(hi, lo) = (hi << 16) | lo`. -/
def join32 (hi lo : Half) : Word := hi ++ lo

/-- R36: `be32(b0, b1, b2, b3)`. -/
def be32 (b0 b1 b2 b3 : Byte) : Word := b0 ++ b1 ++ b2 ++ b3

/-- R37: `hi16(w) = w[31:16]`. -/
def hi16 (w : Word) : Half := w.extractLsb' 16 16

/-- R37: `lo16(w) = w[15:0]`. -/
def lo16 (w : Word) : Half := w.extractLsb' 0 16

/-- R38: the payload of a 16-bit register write, most significant byte first. -/
def payload16 (v : Half) : List Byte := [v.extractLsb' 8 8, v.extractLsb' 0 8]

/-- The four bytes of a word in transport order (R35). -/
def payload32 (w : Word) : List Byte := payload16 (hi16 w) ++ payload16 (lo16 w)

/-- R36: the word that stands at byte offset `4k` of a transfer; a byte the transfer does not hold reads as
zero, which `MemRead` rules out by delivering the exact length (R33). -/
def wordAt (bs : List Byte) (k : Nat) : Word :=
  be32 (bs.getD (4 * k) 0) (bs.getD (4 * k + 1) 0) (bs.getD (4 * k + 2) 0) (bs.getD (4 * k + 3) 0)

/-- R36: the register value of a two-byte transfer. -/
def halfOf (bs : List Byte) : Half := be16 (bs.getD 0 0) (bs.getD 1 0)

/-- The parity (`xor`) of the bits of `v` at the listed positions (R75). -/
def parity {n : Nat} (v : BitVec n) (bits : List Nat) : Bool :=
  bits.foldl (fun acc i => acc ^^ v.getLsbD i) false

end Sys2Proof.Machine
end

