-- ==== Sys2Proof/Config.lean ====
section
/-! DEFINITION. The parameters of the block and of the session (spec rules R6, R16, R20, R49, R75, R125,
R129, R133, R138), the fixed constants, and the free values: constants with no body, of which nothing can
be proved. A claim quantifies over the parameters; no operation writes them. -/

namespace Sys2Proof

/-- `CFG_HI_LAYOUT` (R6, R51, R52): where five fields of the high configuration half stand. -/
inductive CfgHiLayout where
  | A
  | B
deriving DecidableEq, Repr

/-- The formats of a fixed-point datapath. No source gives their form (R138), so each is a natural that only names a
choice (log entry 14). -/
structure FixedFormats where
  /-- `FX_FORMAT` -/
  fxFormat : Nat
  /-- `GAMMA_LUT_ENTRIES` -/
  gammaLutEntries : Nat
  /-- `GAMMA_LUT_INTERP` -/
  gammaLutInterp : Nat
deriving DecidableEq, Repr

/-- `NUM` (R6, R118, R138): the number domain of the colour engine. -/
inductive NumDomain where
  /-- exact rationals, the normative semantics (R118) -/
  | exact
  /-- IEEE 754 binary64 (R138) -/
  | binary64
  /-- a fixed-point datapath of these formats, known only by its tolerance contract (R137, R138) -/
  | fixed (formats : FixedFormats)
deriving DecidableEq, Repr

/-- The function `F` of `CRC_FN = some(F)` (R73, R75). -/
inductive CrcFn where
  /-- `CRC_OPT4048_GK`, the formula R75 marks as general knowledge -/
  | opt4048
  /-- an uninterpreted `F` -/
  | uninterpreted
deriving DecidableEq, Repr

/-- The hardware strap that selects one of the four bus addresses (R49). -/
inductive Strap where
  | ground
  | supply
  | dataLine
  | clockLine
deriving DecidableEq, Repr

/-- Four numbers: one row of the calibration matrix, or the values of one vector (R124). -/
structure Row4 where
  c0 : Rat
  c1 : Rat
  c2 : Rat
  c3 : Rat
deriving DecidableEq, Repr

/-- The 4×4 calibration matrix, row = channel, column = output X, Y, Z, l (R124). -/
structure Mat4 where
  r0 : Row4
  r1 : Row4
  r2 : Row4
  r3 : Row4
deriving DecidableEq, Repr

/-- Three numbers: one row of the sRGB matrix (R129). -/
structure Row3 where
  c0 : Rat
  c1 : Rat
  c2 : Rat
deriving DecidableEq, Repr

/-- The 3×3 sRGB matrix, row = output r, g, b, column = x, y, z (R129). -/
structure Mat3 where
  r0 : Row3
  r1 : Row3
  r2 : Row3
deriving DecidableEq, Repr

/-- `ENUM_MAP` (R16): the numbers of the named enumeration members. -/
structure EnumMap where
  powerDown : BitVec 2
  oneShotAutoRange : BitVec 2
  oneShot : BitVec 2
  continuous : BitVec 2
  oneFault : BitVec 2
  twoFaults : BitVec 2
  fourFaults : BitVec 2
  eightFaults : BitVec 2
  thresholdCh0 : BitVec 2
  thresholdCh1 : BitVec 2
  thresholdCh2 : BitVec 2
  thresholdCh3 : BitVec 2
  smbusAlert : BitVec 2
  readyNextChannel : BitVec 2
  readyAllChannels : BitVec 2
  /-- the eight range levels, in listing order -/
  rangeLevels : List (BitVec 4)
  rangeAuto : BitVec 4
  /-- the twelve conversion times, shortest first -/
  conversionTimes : List (BitVec 4)
deriving DecidableEq, Repr

/-- The parameters the colour operations read, and no other (R139): `NUM`, `M_CAL`, `M_RGB` and `POW24`. `powPoints`
lists the arguments at which `POW24` is known; elsewhere it is the uninterpreted `Config.pow24` (R133). -/
structure ColourParams where
  num : NumDomain
  mCal : Mat4
  mRgb : Mat3
  powPoints : List (Rat × Rat)
deriving DecidableEq, Repr

/-- The OPEN parameters of R6, all plain data. -/
structure Params extends ColourParams where
  layout : CfgHiLayout
  /-- `EPS_POW`, the accuracy of R133's property P3; no operation reads it -/
  epsPow : Rat
  /-- `CRC_FN`: `none` is the instance `CRC_STUB` -/
  crcFn : Option CrcFn
  deviceId : Half
  busGround : BitVec 7
  busSupply : BitVec 7
  busDataLine : BitVec 7
  busClockLine : BitVec 7
  strap : Strap
  enumMap : EnumMap
deriving DecidableEq, Repr

/-- The uninterpreted `F : u4 × u20 × u4 → u4` of `CRC_FN = some(F)` (R73, R75). -/
opaque Config.crcF : BitVec 4 → BitVec 20 → BitVec 4 → BitVec 4

/-- `POW24`, c ↦ c^(1/2.4), as an uninterpreted total function on the rationals (R133). -/
opaque Config.pow24 : Rat → Rat

/-- Whether the transport reports failure at the n-th free draw (R48, R152, U18). -/
opaque Config.drawFails : Nat → Bool

/-- The i-th byte the device sends at the n-th draw (R33, R48, U17). -/
opaque Config.drawByte : Nat → Nat → Byte

/-- A number the rules bound but do not give: component `k` of the result of the operation with code `op` on these
operand numbers, under the parameters the colour operations read (R139). It stands for the `FIXED` datapath's own
number (R137, R138) and, rounded, for a binary64 number where the one R138 computes does not conform to R137 (log entries 15
and 16). -/
opaque Config.freeNum : (p : ColourParams) → (op : Nat) → (operands : List Rat) → (k : Nat) → Rat

end Sys2Proof
end

