-- ==== Sys2Proof/Syntax.lean ====
section
/-! DEFINITION. The value records that cross the block's boundary (spec rules R13 to R19), the operand forms
(R64), and the instructions: one constructor for each of the 23 rows of `opcode_table.json`, nine block
operations (R62) and fourteen Device Session macro operations (R65). -/

namespace Sys2Proof

/-- R13: one channel reading. -/
structure RawChannel where
  exponent : BitVec 4
  mantissa : BitVec 20
  counter : BitVec 4
  crc : BitVec 4
deriving DecidableEq, Repr

/-- R14: the four channels of one poll. -/
structure ChannelSet where
  ch0 : RawChannel
  ch1 : RawChannel
  ch2 : RawChannel
  ch3 : RawChannel
deriving DecidableEq, Repr

/-- R15: the device configuration, eleven fields typed by width. -/
structure DeviceConfiguration where
  quickWake : BitVec 1
  range : BitVec 4
  conversionTime : BitVec 4
  operatingMode : BitVec 2
  latch : BitVec 1
  faultCount : BitVec 2
  interruptPolarity : BitVec 1
  interruptDirection : BitVec 1
  interruptConfig : BitVec 2
  thresholdChannelSelect : BitVec 2
  i2cBurst : BitVec 1
deriving DecidableEq, Repr

/-- The names of the eleven fields of R15. -/
inductive ConfigField where
  | quickWake
  | range
  | conversionTime
  | operatingMode
  | latch
  | faultCount
  | interruptPolarity
  | interruptDirection
  | interruptConfig
  | thresholdChannelSelect
  | i2cBurst
deriving DecidableEq, Repr

/-- A record literal as the caller writes it (R64), its fields untyped naturals (R70, R157). R64 says `field=value` and does
not say whether a value may be a name; that it is no name here is a DESIGN CHOICE, log entry 29. -/
structure ConfigRecord where
  quickWake : Nat
  range : Nat
  conversionTime : Nat
  operatingMode : Nat
  latch : Nat
  faultCount : Nat
  interruptPolarity : Nat
  interruptDirection : Nat
  interruptConfig : Nat
  thresholdChannelSelect : Nat
  i2cBurst : Nat
deriving DecidableEq, Repr

/-- The chromaticity coordinates of R17. -/
structure Chroma where
  x : Rat
  y : Rat
  z : Rat
deriving DecidableEq, Repr

/-- R17: `chroma = none` is the undefined chromaticity. -/
structure XYZColor where
  X : Rat
  Y : Rat
  Z : Rat
  l : Rat
  chroma : Option Chroma
deriving DecidableEq, Repr

/-- R18: gamma-encoded values, not clamped. -/
structure RGBColor where
  r : Rat
  g : Rat
  b : Rat
deriving DecidableEq, Repr

/-- The four per-channel results `crc_ok` of a `read` (R98). -/
structure CrcFlags where
  ok0 : Bool
  ok1 : Bool
  ok2 : Bool
  ok3 : Bool
deriving DecidableEq, Repr

/-- An operand of an invocation: a literal, or the name an earlier line assigned (R64). That a `RawChannel` or `XYZColor`
literal holds constants and no names is a DESIGN CHOICE, log entry 29. -/
inductive Operand (α : Type) where
  | lit (a : α)
  | var (n : Name)
deriving DecidableEq, Repr

/-- The operand of `packConfig`: width-typed fields written as the `CFG32` image of the table's `encoding`
column, a name, or a record literal of naturals (R64, R70). -/
inductive ConfigOperand where
  | image (c : DeviceConfiguration)
  | var (n : Name)
  | record (r : ConfigRecord)
deriving DecidableEq, Repr

/-- The operand of `rawToXYZ`: a record literal of four channel operands, or a name (R64). That its members may be names, as
PROG2 writes them, and those of no other record, is a DESIGN CHOICE, log entry 29. -/
inductive SetOperand where
  | record (c0 c1 c2 c3 : Operand RawChannel)
  | var (n : Name)
deriving DecidableEq, Repr

/-- The invocations (R5, R62, R65). The first names of a line are its destinations, in the order R64 and the
programs of `95_test_vectors.md` write them. -/
inductive Instr where
  | packConfig (dst : Name) (cfg : ConfigOperand)
  | unpackConfig (dst : Name) (w : Operand Word)
  | unpackChannel (dst : Name) (w : Operand Word)
  | crcValid (dst : Name) (ch : Operand RawChannel)
  | reconstruct (dst : Name) (ch : Operand RawChannel)
  | rawToXYZ (dst : Name) (set : SetOperand)
  | xyzToRGB (dst : Name) (c : Operand XYZColor)
  | linearToSRGB (dst : Name) (c : Operand Rat)
  | xyzToCCT (dst : Name) (c : Operand XYZColor)
  | init (st : Name)
  | read (set ok st : Name)
  | readConfig (c st : Name)
  | writeConfig (st : Name)
  | setRange (st : Name) (v : Operand Nat)
  | setConversionTime (st : Name) (v : Operand Nat)
  | setOperatingMode (st : Name) (v : Operand Nat)
  | setThresholdChannel (st : Name) (v : Operand Nat)
  | setFaultCount (st : Name) (v : Operand Nat)
  | setQuickWake (st : Name) (v : Operand Nat)
  | setIntConfig (st : Name) (v : Operand Nat)
  | setIntPolarity (st : Name) (v : Operand Nat)
  | setIntDirection (st : Name) (v : Operand Nat)
  | setLatch (st : Name) (v : Operand Nat)
deriving DecidableEq, Repr

/-- Why a line of the caller's list is no invocation. -/
inductive DecodeError where
  | emptyLine
  /-- R63: an `OPSEL` from 0x9 to 0xF -/
  | illegalOpsel (k : Nat)
  /-- a first byte above the operation codes of this model -/
  | unknownSelector (b : Nat)
  | truncated
  /-- an operand form byte the line encoding does not define -/
  | unknownForm (b : Nat)
  /-- R59, R66: a `CFG32` image with a reserved bit set or the fixed bit clear -/
  | reservedBits (w : Word)
  /-- bytes after the last operand that are not zero -/
  | trailingBytes
deriving DecidableEq, Repr

end Sys2Proof
end

