-- ==== Sys2Proof/Machine/Fields.lean ====
section
/-! DEFINITION. The field tables of the two word formats and the transcoding over them (spec rules R25 to R27,
R51 to R60, R70 to R75, R120). -/

namespace Sys2Proof

/-- R15: the width of a configuration field. -/
def ConfigField.width : ConfigField → Nat
  | .quickWake => 1
  | .range => 4
  | .conversionTime => 4
  | .operatingMode => 2
  | .latch => 1
  | .faultCount => 2
  | .interruptPolarity => 1
  | .interruptDirection => 1
  | .interruptConfig => 2
  | .thresholdChannelSelect => 2
  | .i2cBurst => 1

/-- R51, R52: the lowest word bit of a field. `packConfig` and `unpackConfig` both use this one table. -/
def CfgHiLayout.lo : CfgHiLayout → ConfigField → Nat
  | _, .quickWake => 31
  | .B, .range => 26
  | .A, .range => 27
  | .B, .conversionTime => 22
  | .A, .conversionTime => 23
  | .B, .operatingMode => 20
  | .A, .operatingMode => 21
  | .B, .latch => 19
  | .A, .latch => 20
  | .B, .interruptPolarity => 18
  | .A, .interruptPolarity => 19
  | _, .faultCount => 16
  | _, .thresholdChannelSelect => 5
  | _, .interruptDirection => 4
  | _, .interruptConfig => 2
  | _, .i2cBurst => 0

/-- R59: the reserved and fixed bits of `CFG32`. -/
def CfgHiLayout.reservedMask : CfgHiLayout → Word
  | .B => 0x4000FF82#32
  | .A => 0x0004FF82#32

/-- R58, R59: low-half bit 15 packs as 1. -/
def fixedBit : Word := 0x00008000#32

/-- R59, R66: the words `packConfig` can produce, `(w & mask) == match`. -/
def CfgHiLayout.matchesPattern (L : CfgHiLayout) (w : Word) : Bool := w &&& L.reservedMask == fixedBit

/-- R70: `packConfig`, the bitwise or of the eleven inserts and the fixed bit. -/
def packWord (L : CfgHiLayout) (c : DeviceConfiguration) : Word :=
  fixedBit
    ||| Machine.insertField c.quickWake (L.lo .quickWake)
    ||| Machine.insertField c.range (L.lo .range)
    ||| Machine.insertField c.conversionTime (L.lo .conversionTime)
    ||| Machine.insertField c.operatingMode (L.lo .operatingMode)
    ||| Machine.insertField c.latch (L.lo .latch)
    ||| Machine.insertField c.interruptPolarity (L.lo .interruptPolarity)
    ||| Machine.insertField c.faultCount (L.lo .faultCount)
    ||| Machine.insertField c.thresholdChannelSelect (L.lo .thresholdChannelSelect)
    ||| Machine.insertField c.interruptDirection (L.lo .interruptDirection)
    ||| Machine.insertField c.interruptConfig (L.lo .interruptConfig)
    ||| Machine.insertField c.i2cBurst (L.lo .i2cBurst)

/-- R71: `unpackConfig`, total on every word. -/
def unpackWord (L : CfgHiLayout) (w : Word) : DeviceConfiguration where
  quickWake := Machine.extractField w (L.lo .quickWake) 1
  range := Machine.extractField w (L.lo .range) 4
  conversionTime := Machine.extractField w (L.lo .conversionTime) 4
  operatingMode := Machine.extractField w (L.lo .operatingMode) 2
  latch := Machine.extractField w (L.lo .latch) 1
  faultCount := Machine.extractField w (L.lo .faultCount) 2
  interruptPolarity := Machine.extractField w (L.lo .interruptPolarity) 1
  interruptDirection := Machine.extractField w (L.lo .interruptDirection) 1
  interruptConfig := Machine.extractField w (L.lo .interruptConfig) 2
  thresholdChannelSelect := Machine.extractField w (L.lo .thresholdChannelSelect) 2
  i2cBurst := Machine.extractField w (L.lo .i2cBurst) 1

/-- R72: `unpackChannel`; the mantissa is assembled from its two pieces (R57). -/
def unpackChannelWord (w : Word) : RawChannel where
  exponent := Machine.extractField w 28 4
  mantissa := Machine.extractField w 16 12 ++ Machine.extractField w 8 8
  counter := Machine.extractField w 4 4
  crc := Machine.extractField w 0 4

/-- R56: the `CH32` image of a RawChannel. R77: it is the inverse used for literals and for tests, not an
operation of the block. -/
def channelWord (ch : RawChannel) : Word :=
  Machine.insertField ch.exponent 28 ||| Machine.insertField ch.mantissa 8
    ||| Machine.insertField ch.counter 4 ||| Machine.insertField ch.crc 0

/-- R15: the number a configuration field holds. -/
def DeviceConfiguration.get (c : DeviceConfiguration) : ConfigField → Nat
  | .quickWake => c.quickWake.toNat
  | .range => c.range.toNat
  | .conversionTime => c.conversionTime.toNat
  | .operatingMode => c.operatingMode.toNat
  | .latch => c.latch.toNat
  | .faultCount => c.faultCount.toNat
  | .interruptPolarity => c.interruptPolarity.toNat
  | .interruptDirection => c.interruptDirection.toNat
  | .interruptConfig => c.interruptConfig.toNat
  | .thresholdChannelSelect => c.thresholdChannelSelect.toNat
  | .i2cBurst => c.i2cBurst.toNat

/-- R101: `new <- old with <field> replaced by v`, for a `v` that fits the field. -/
def DeviceConfiguration.set (c : DeviceConfiguration) (f : ConfigField) (v : Nat) : DeviceConfiguration :=
  match f with
  | .quickWake => { c with quickWake := BitVec.ofNat 1 v }
  | .range => { c with range := BitVec.ofNat 4 v }
  | .conversionTime => { c with conversionTime := BitVec.ofNat 4 v }
  | .operatingMode => { c with operatingMode := BitVec.ofNat 2 v }
  | .latch => { c with latch := BitVec.ofNat 1 v }
  | .faultCount => { c with faultCount := BitVec.ofNat 2 v }
  | .interruptPolarity => { c with interruptPolarity := BitVec.ofNat 1 v }
  | .interruptDirection => { c with interruptDirection := BitVec.ofNat 1 v }
  | .interruptConfig => { c with interruptConfig := BitVec.ofNat 2 v }
  | .thresholdChannelSelect => { c with thresholdChannelSelect := BitVec.ofNat 2 v }
  | .i2cBurst => { c with i2cBurst := BitVec.ofNat 1 v }

/-- R70, R157: a natural fits a field when it is below `2^width`. -/
def ConfigField.fits (f : ConfigField) (v : Nat) : Bool := decide (v < 2 ^ f.width)

/-- The fields of a record literal with their values, in the order in which R70's pseudocode reaches them. -/
def ConfigRecord.entries (r : ConfigRecord) : List (ConfigField × Nat) :=
  [(.quickWake, r.quickWake), (.range, r.range), (.conversionTime, r.conversionTime),
   (.operatingMode, r.operatingMode), (.latch, r.latch), (.interruptPolarity, r.interruptPolarity),
   (.faultCount, r.faultCount), (.thresholdChannelSelect, r.thresholdChannelSelect),
   (.interruptDirection, r.interruptDirection), (.interruptConfig, r.interruptConfig), (.i2cBurst, r.i2cBurst)]

/-- R157, R161: the first field, in the order of R70's pseudocode, whose value does not fit. -/
def ConfigRecord.misfit (r : ConfigRecord) : Option (ConfigField × Nat) :=
  r.entries.find? fun e => !e.1.fits e.2

/-- The width-typed configuration a record literal denotes when every value fits (R70). -/
def ConfigRecord.typed (r : ConfigRecord) : DeviceConfiguration where
  quickWake := BitVec.ofNat 1 r.quickWake
  range := BitVec.ofNat 4 r.range
  conversionTime := BitVec.ofNat 4 r.conversionTime
  operatingMode := BitVec.ofNat 2 r.operatingMode
  latch := BitVec.ofNat 1 r.latch
  faultCount := BitVec.ofNat 2 r.faultCount
  interruptPolarity := BitVec.ofNat 1 r.interruptPolarity
  interruptDirection := BitVec.ofNat 1 r.interruptDirection
  interruptConfig := BitVec.ofNat 2 r.interruptConfig
  thresholdChannelSelect := BitVec.ofNat 2 r.thresholdChannelSelect
  i2cBurst := BitVec.ofNat 1 r.i2cBurst

/-- `CRC_OPT4048_GK` (R75, from general knowledge): four parities over exponent, mantissa and counter. -/
def crcOpt4048 (e : BitVec 4) (r : BitVec 20) (c : BitVec 4) : BitVec 4 :=
  let x0 := Machine.parity e (List.range 4) ^^ Machine.parity r (List.range 20) ^^ Machine.parity c (List.range 4)
  let x1 := Machine.parity c [1, 3] ^^ Machine.parity r [1, 3, 5, 7, 9, 11, 13, 15, 17, 19] ^^ Machine.parity e [1, 3]
  let x2 := Machine.parity c [3] ^^ Machine.parity r [3, 7, 11, 15, 19] ^^ Machine.parity e [3]
  let x3 := Machine.parity r [3, 11, 19]
  BitVec.ofBool x3 ++ BitVec.ofBool x2 ++ BitVec.ofBool x1 ++ BitVec.ofBool x0

/-- The function `F` a CRC capability names (R75). -/
def CrcFn.apply : CrcFn → BitVec 4 → BitVec 20 → BitVec 4 → BitVec 4
  | .opt4048 => crcOpt4048
  | .uninterpreted => Config.crcF

/-- R73: `crcValid` under the parameter `CRC_FN`. -/
def Params.crcOk (p : Params) (ch : RawChannel) : Bool :=
  match p.crcFn with
  | none => true
  | some f => f.apply ch.exponent ch.mantissa ch.counter == ch.crc

/-- R98: the four flags of a `read`. -/
def Params.crcFlags (p : Params) (cs : ChannelSet) : CrcFlags where
  ok0 := p.crcOk cs.ch0
  ok1 := p.crcOk cs.ch1
  ok2 := p.crcOk cs.ch2
  ok3 := p.crcOk cs.ch3

/-- R98: `all crc_ok[k]`. -/
def CrcFlags.all (f : CrcFlags) : Bool := f.ok0 && f.ok1 && f.ok2 && f.ok3

/-- R120: `reconstruct`, `mantissa << exponent` in a type wide enough for every operand. -/
def RawChannel.value (ch : RawChannel) : Wide := ch.mantissa.setWidth 36 <<< ch.exponent.toNat

/-- R14, R36, R98: the four channels of a 16-byte transfer. -/
def channelsOf (bs : List Byte) : ChannelSet where
  ch0 := unpackChannelWord (Machine.wordAt bs 0)
  ch1 := unpackChannelWord (Machine.wordAt bs 1)
  ch2 := unpackChannelWord (Machine.wordAt bs 2)
  ch3 := unpackChannelWord (Machine.wordAt bs 3)

end Sys2Proof
end

