-- ==== Sys2Proof/WellFormed.lean ====
section
/-! DEFINITION. Which invocations have a line encoding: every name fits the one byte `Decode.lean` gives it. The
naturals of record literals and setter operands are not checked here: a value too wide for its field ends the
operation with `OperandOutOfRange` (R70, R157). -/

namespace Sys2Proof

/-- A name of a well-formed line is one byte wide. -/
def nameOk (n : Name) : Bool := decide (n < 256)

def Operand.wf {α : Type} : Operand α → Bool
  | .lit _ => true
  | .var n => nameOk n

def ConfigOperand.wf : ConfigOperand → Bool
  | .image _ => true
  | .var n => nameOk n
  | .record _ => true

def SetOperand.wf : SetOperand → Bool
  | .record a b c d => a.wf && b.wf && c.wf && d.wf
  | .var n => nameOk n

def Instr.wf : Instr → Bool
  | .packConfig d c => nameOk d && c.wf
  | .unpackConfig d w => nameOk d && w.wf
  | .unpackChannel d w => nameOk d && w.wf
  | .crcValid d c => nameOk d && c.wf
  | .reconstruct d c => nameOk d && c.wf
  | .rawToXYZ d c => nameOk d && c.wf
  | .xyzToRGB d c => nameOk d && c.wf
  | .linearToSRGB d c => nameOk d && c.wf
  | .xyzToCCT d c => nameOk d && c.wf
  | .init st => nameOk st
  | .read set ok st => nameOk set && nameOk ok && nameOk st
  | .readConfig c st => nameOk c && nameOk st
  | .writeConfig st => nameOk st
  | .setRange st v => nameOk st && v.wf
  | .setConversionTime st v => nameOk st && v.wf
  | .setOperatingMode st v => nameOk st && v.wf
  | .setThresholdChannel st v => nameOk st && v.wf
  | .setFaultCount st v => nameOk st && v.wf
  | .setQuickWake st v => nameOk st && v.wf
  | .setIntConfig st v => nameOk st && v.wf
  | .setIntPolarity st v => nameOk st && v.wf
  | .setIntDirection st v => nameOk st && v.wf
  | .setLatch st v => nameOk st && v.wf

end Sys2Proof
end

