-- ==== Sys2Proof/Decode.lean ====
section
/-! DEFINITION. The line encoding of an invocation: decoder and encoder. The source defines no binary command
encoding and nothing is fetched (spec rules R46, R62, R64); the first byte of a line carries the `OPSEL` code of
R62 for the nine block operations, and codes of this model's own for the fourteen macros (log entry 3). Word
operands are the `CFG32` and `CH32` images of R51 and R54, big-endian (R35); numbers and names have an encoding of
this model's own, because the spec gives none (R50).

A line is: selector byte, one byte a destination name, then the operand: a form byte (0 literal, 1 name, 2 record of
naturals) and its bytes. Bytes after it must be zero. -/

namespace Sys2Proof

/-! ### The selector -/

/-- R62: the `OPSEL` codes, then the macro codes of this model in the order of R65. -/
def Instr.selector : Instr → Byte
  | .packConfig .. => 0x00
  | .unpackConfig .. => 0x01
  | .unpackChannel .. => 0x02
  | .crcValid .. => 0x03
  | .reconstruct .. => 0x04
  | .rawToXYZ .. => 0x05
  | .xyzToRGB .. => 0x06
  | .linearToSRGB .. => 0x07
  | .xyzToCCT .. => 0x08
  | .init .. => 0x10
  | .read .. => 0x11
  | .readConfig .. => 0x12
  | .writeConfig .. => 0x13
  | .setRange .. => 0x14
  | .setConversionTime .. => 0x15
  | .setOperatingMode .. => 0x16
  | .setThresholdChannel .. => 0x17
  | .setFaultCount .. => 0x18
  | .setQuickWake .. => 0x19
  | .setIntConfig .. => 0x1A
  | .setIntPolarity .. => 0x1B
  | .setIntDirection .. => 0x1C
  | .setLatch .. => 0x1D

/-! ### Reading pieces of a line -/

/-- What a piece of a line reads as, with the bytes that follow it. -/
abbrev Parsed (α : Type) := Except DecodeError (α × List Byte)

/-- Reads the next piece after this one. -/
def Parsed.andThen {α β : Type} (p : Parsed α) (f : α → List Byte → Parsed β) : Parsed β :=
  match p with
  | .ok (a, rest) => f a rest
  | .error e => .error e

/-- Applies a constructor to what was read. -/
def Parsed.mapTo {α β : Type} (p : Parsed α) (f : α → β) : Parsed β :=
  p.andThen fun a rest => .ok (f a, rest)

def readByte : List Byte → Parsed Byte
  | b :: rest => .ok (b, rest)
  | [] => .error .truncated

def readName (bs : List Byte) : Parsed Name := (readByte bs).mapTo BitVec.toNat

/-- A natural: base-128 digits, least significant first, bit 7 set on all but the last. -/
def readNat : List Byte → Parsed Nat
  | [] => .error .truncated
  | b :: rest =>
    if b.toNat < 128 then .ok (b.toNat, rest)
    else (readNat rest).mapTo fun m => b.toNat - 128 + 128 * m

/-- A 32-bit word, most significant byte first (R35). -/
def readWord : List Byte → Parsed Word
  | b0 :: b1 :: b2 :: b3 :: rest => .ok (Machine.be32 b0 b1 b2 b3, rest)
  | _ => .error .truncated

/-- R56: a RawChannel literal is its `CH32` image; every word is accepted (R60). -/
def readChannel (bs : List Byte) : Parsed RawChannel := (readWord bs).mapTo unpackChannelWord

/-- R51, R66: a configuration image must satisfy the pattern of the table's `encoding` column. -/
def readImage (bs : List Byte) : Parsed DeviceConfiguration :=
  (readWord bs).andThen fun w rest =>
    if CfgHiLayout.B.matchesPattern w then .ok (unpackWord .B w, rest) else .error (.reservedBits w)

/-- A rational: a sign byte (0 not negative, 1 negative), the numerator's magnitude, the denominator less one. -/
def readRat (bs : List Byte) : Parsed Rat :=
  (readByte bs).andThen fun s rest =>
    if s = 0 then (readNat rest).andThen fun n rest => (readNat rest).mapTo fun d => mkRat (n : Int) (d + 1)
    else if s = 1 then (readNat rest).andThen fun n rest => (readNat rest).mapTo fun d => mkRat (-(n : Int)) (d + 1)
    else .error (.unknownForm s.toNat)

def readChroma (bs : List Byte) : Parsed (Option Chroma) :=
  (readByte bs).andThen fun s rest =>
    if s = 0 then .ok (none, rest)
    else if s = 1 then
      (readRat rest).andThen fun x rest => (readRat rest).andThen fun y rest =>
        (readRat rest).mapTo fun z => some ⟨x, y, z⟩
    else .error (.unknownForm s.toNat)

def readXYZ (bs : List Byte) : Parsed XYZColor :=
  (readRat bs).andThen fun X rest => (readRat rest).andThen fun Y rest =>
    (readRat rest).andThen fun Z rest => (readRat rest).andThen fun l rest =>
      (readChroma rest).mapTo fun c => ⟨X, Y, Z, l, c⟩

def readRecord (bs : List Byte) : Parsed ConfigRecord :=
  (readNat bs).andThen fun a rest => (readNat rest).andThen fun b rest =>
    (readNat rest).andThen fun c rest => (readNat rest).andThen fun d rest =>
      (readNat rest).andThen fun e rest => (readNat rest).andThen fun f rest =>
        (readNat rest).andThen fun g rest => (readNat rest).andThen fun h rest =>
          (readNat rest).andThen fun i rest => (readNat rest).andThen fun j rest =>
            (readNat rest).mapTo fun k => ⟨a, b, c, d, e, f, g, h, i, j, k⟩

/-- An operand: form 0 is a literal, form 1 a name. -/
def readOperand {α : Type} (readLit : List Byte → Parsed α) (bs : List Byte) : Parsed (Operand α) :=
  (readByte bs).andThen fun form rest =>
    if form = 0 then (readLit rest).mapTo .lit
    else if form = 1 then (readName rest).mapTo .var
    else .error (.unknownForm form.toNat)

def readConfigOperand (bs : List Byte) : Parsed ConfigOperand :=
  (readByte bs).andThen fun form rest =>
    if form = 0 then (readImage rest).mapTo .image
    else if form = 1 then (readName rest).mapTo .var
    else if form = 2 then (readRecord rest).mapTo .record
    else .error (.unknownForm form.toNat)

def readSetOperand (bs : List Byte) : Parsed SetOperand :=
  (readByte bs).andThen fun form rest =>
    if form = 0 then
      (readOperand readChannel rest).andThen fun a rest => (readOperand readChannel rest).andThen fun b rest =>
        (readOperand readChannel rest).andThen fun c rest =>
          (readOperand readChannel rest).mapTo fun d => .record a b c d
    else if form = 1 then (readName rest).mapTo .var
    else .error (.unknownForm form.toNat)

/-- One destination and one operand. -/
def readLine {α : Type} (readArg : List Byte → Parsed α) (mk : Name → α → Instr) (bs : List Byte) : Parsed Instr :=
  (readName bs).andThen fun d rest => (readArg rest).mapTo (mk d)

/-- The instruction a selector opens (R62, R63), read from the bytes after it. -/
def readInstr (sel : Byte) (bs : List Byte) : Parsed Instr :=
  match sel.toNat with
  | 0x00 => readLine readConfigOperand .packConfig bs
  | 0x01 => readLine (readOperand readWord) .unpackConfig bs
  | 0x02 => readLine (readOperand readWord) .unpackChannel bs
  | 0x03 => readLine (readOperand readChannel) .crcValid bs
  | 0x04 => readLine (readOperand readChannel) .reconstruct bs
  | 0x05 => readLine readSetOperand .rawToXYZ bs
  | 0x06 => readLine (readOperand readXYZ) .xyzToRGB bs
  | 0x07 => readLine (readOperand readRat) .linearToSRGB bs
  | 0x08 => readLine (readOperand readXYZ) .xyzToCCT bs
  | 0x10 => (readName bs).mapTo .init
  | 0x11 => (readName bs).andThen fun a rest => (readName rest).andThen fun b rest => (readName rest).mapTo (.read a b)
  | 0x12 => (readName bs).andThen fun a rest => (readName rest).mapTo (.readConfig a)
  | 0x13 => (readName bs).mapTo .writeConfig
  | 0x14 => readLine (readOperand readNat) .setRange bs
  | 0x15 => readLine (readOperand readNat) .setConversionTime bs
  | 0x16 => readLine (readOperand readNat) .setOperatingMode bs
  | 0x17 => readLine (readOperand readNat) .setThresholdChannel bs
  | 0x18 => readLine (readOperand readNat) .setFaultCount bs
  | 0x19 => readLine (readOperand readNat) .setQuickWake bs
  | 0x1A => readLine (readOperand readNat) .setIntConfig bs
  | 0x1B => readLine (readOperand readNat) .setIntPolarity bs
  | 0x1C => readLine (readOperand readNat) .setIntDirection bs
  | 0x1D => readLine (readOperand readNat) .setLatch bs
  | k => if 0x9 ≤ k ∧ k ≤ 0xF then .error (.illegalOpsel k) else .error (.unknownSelector k)

/-- The decoder: total on any bytes. -/
def decode : List Byte → Except DecodeError Instr
  | [] => .error .emptyLine
  | sel :: rest =>
    match readInstr sel rest with
    | .ok (i, tail) => if tail.all (· == 0) then .ok i else .error .trailingBytes
    | .error e => .error e

/-! ### The encoder -/

def nameBytes (n : Name) : List Byte := [BitVec.ofNat 8 n]

/-- Base-128 digits of `n`; the fuel bounds their number. -/
def natBytesFuel : Nat → Nat → List Byte
  | 0, n => [BitVec.ofNat 8 n]
  | fuel + 1, n => if n < 128 then [BitVec.ofNat 8 n] else BitVec.ofNat 8 (n % 128 + 128) :: natBytesFuel fuel (n / 128)

def natBytes (n : Nat) : List Byte := natBytesFuel (Nat.log2 n) n

def wordBytes (w : Word) : List Byte := Machine.payload32 w

def channelBytes (ch : RawChannel) : List Byte := wordBytes (channelWord ch)

def imageBytes (c : DeviceConfiguration) : List Byte := wordBytes (packWord .B c)

def ratBytes (q : Rat) : List Byte :=
  (if q.num < 0 then 1 else 0) :: natBytes q.num.natAbs ++ natBytes (q.den - 1)

def chromaBytes : Option Chroma → List Byte
  | none => [0]
  | some c => 1 :: (ratBytes c.x ++ ratBytes c.y ++ ratBytes c.z)

def xyzBytes (c : XYZColor) : List Byte :=
  ratBytes c.X ++ ratBytes c.Y ++ ratBytes c.Z ++ ratBytes c.l ++ chromaBytes c.chroma

def recordBytes (r : ConfigRecord) : List Byte :=
  natBytes r.quickWake ++ natBytes r.range ++ natBytes r.conversionTime ++ natBytes r.operatingMode
    ++ natBytes r.latch ++ natBytes r.faultCount ++ natBytes r.interruptPolarity ++ natBytes r.interruptDirection
    ++ natBytes r.interruptConfig ++ natBytes r.thresholdChannelSelect ++ natBytes r.i2cBurst

def operandBytes {α : Type} (litBytes : α → List Byte) : Operand α → List Byte
  | .lit a => 0 :: litBytes a
  | .var n => 1 :: nameBytes n

def configOperandBytes : ConfigOperand → List Byte
  | .image c => 0 :: imageBytes c
  | .var n => 1 :: nameBytes n
  | .record r => 2 :: recordBytes r

def setOperandBytes : SetOperand → List Byte
  | .record a b c d =>
    0 :: (operandBytes channelBytes a ++ operandBytes channelBytes b ++ operandBytes channelBytes c
      ++ operandBytes channelBytes d)
  | .var n => 1 :: nameBytes n

/-- The bytes after the selector. -/
def Instr.operandBytes : Instr → List Byte
  | .packConfig d c => nameBytes d ++ configOperandBytes c
  | .unpackConfig d w => nameBytes d ++ Sys2Proof.operandBytes wordBytes w
  | .unpackChannel d w => nameBytes d ++ Sys2Proof.operandBytes wordBytes w
  | .crcValid d c => nameBytes d ++ Sys2Proof.operandBytes channelBytes c
  | .reconstruct d c => nameBytes d ++ Sys2Proof.operandBytes channelBytes c
  | .rawToXYZ d c => nameBytes d ++ setOperandBytes c
  | .xyzToRGB d c => nameBytes d ++ Sys2Proof.operandBytes xyzBytes c
  | .linearToSRGB d c => nameBytes d ++ Sys2Proof.operandBytes ratBytes c
  | .xyzToCCT d c => nameBytes d ++ Sys2Proof.operandBytes xyzBytes c
  | .init st => nameBytes st
  | .read set ok st => nameBytes set ++ nameBytes ok ++ nameBytes st
  | .readConfig c st => nameBytes c ++ nameBytes st
  | .writeConfig st => nameBytes st
  | .setRange st v => nameBytes st ++ Sys2Proof.operandBytes natBytes v
  | .setConversionTime st v => nameBytes st ++ Sys2Proof.operandBytes natBytes v
  | .setOperatingMode st v => nameBytes st ++ Sys2Proof.operandBytes natBytes v
  | .setThresholdChannel st v => nameBytes st ++ Sys2Proof.operandBytes natBytes v
  | .setFaultCount st v => nameBytes st ++ Sys2Proof.operandBytes natBytes v
  | .setQuickWake st v => nameBytes st ++ Sys2Proof.operandBytes natBytes v
  | .setIntConfig st v => nameBytes st ++ Sys2Proof.operandBytes natBytes v
  | .setIntPolarity st v => nameBytes st ++ Sys2Proof.operandBytes natBytes v
  | .setIntDirection st v => nameBytes st ++ Sys2Proof.operandBytes natBytes v
  | .setLatch st v => nameBytes st ++ Sys2Proof.operandBytes natBytes v

/-- The line of an instruction. -/
def encode (i : Instr) : List Byte := i.selector :: i.operandBytes

/-! ### Words as `opcode_table.json` numbers their bits -/

/-- The line a table word stands for. The table's 32 bits are the literal operand word; a selector would stand in
bits 39:32, above them, because the table gives `OPSEL` in a column of its own and no bit of the word carries it
(R62, R66). The destination is name 0, the operand form is `literal`, and what follows the word is zero. -/
def tableLine (nbits w : Nat) : List Byte :=
  let v := w % 2 ^ nbits
  [BitVec.ofNat 8 (v / 2 ^ 32), 0, 0] ++ wordBytes (BitVec.ofNat 32 v) ++ List.replicate 16 0

/-- The instruction the decoder reads from a table word. -/
def decodeTableWord (nbits w : Nat) : Option Instr :=
  match decode (tableLine nbits w) with
  | .ok i => some i
  | .error _ => none

end Sys2Proof
end

