-- ==== Sys2Proof/Machine/Defaults.lean ====
section
/-! DEFINITION. The default instances of the parameters (spec rule R6, right-hand column), most of them marked by
the spec as general knowledge (R16, R75, R125, R129), and the constants and tolerances the source gives. -/

namespace Sys2Proof

/-- R6, R130: the threshold of the transfer function. -/
def gammaT : Rat := 31308 / 10000000
/-- R6, R130. -/
def gammaA : Rat := 1292 / 100
/-- R6, R130. -/
def gammaB : Rat := 1055 / 1000
/-- R6, R130. -/
def gammaC : Rat := 55 / 1000
/-- R6: the exponent 1/2.4 of the function `POW24` stands for (R133). -/
def gammaE : Rat := 10 / 24
/-- R6, R135: the epicentre. -/
def cctXe : Rat := 3320 / 10000
/-- R6, R135. -/
def cctYe : Rat := 1858 / 10000
/-- R6, R135. -/
def cctK3 : Rat := 437
/-- R6, R135. -/
def cctK2 : Rat := 3601
/-- R6, R135. -/
def cctK1 : Rat := 6861
/-- R6, R135. -/
def cctK0 : Rat := 5517
/-- R6, R127: `TOL_SUM`. -/
def tolSum : Rat := 1 / 1000000000
/-- R6, R137: `TOL_E2E`, 0.1 %. -/
def tolE2E : Rat := 1 / 1000

/-- R31: the register addresses. -/
def addrChannels : RegAddr := 0x00#8
def addrThreshold : RegAddr := 0x08#8
def addrConfigHi : RegAddr := 0x0A#8
def addrConfigLo : RegAddr := 0x0B#8
def addrFlags : RegAddr := 0x0C#8
def addrDeviceId : RegAddr := 0x11#8

/-- `M_CAL_GK` (R125): each entry is the exact decimal, here over 10^13. -/
def mCalGK : Mat4 where
  r0 := ⟨2348929920 / 10 ^ 13, -189652390 / 10 ^ 13, 120811684 / 10 ^ 13, 0⟩
  r1 := ⟨407467441 / 10 ^ 13, 1989582020 / 10 ^ 13, -158848115 / 10 ^ 13, 21500000000 / 10 ^ 13⟩
  r2 := ⟨928619404 / 10 ^ 13, -169739553 / 10 ^ 13, 6740215200 / 10 ^ 13, 0⟩
  r3 := ⟨0, 0, 0, 0⟩

/-- `M_RGB_GK` (R129). -/
def mRgbGK : Mat3 where
  r0 := ⟨32406 / 10000, -15372 / 10000, -4986 / 10000⟩
  r1 := ⟨-9689 / 10000, 18758 / 10000, 415 / 10000⟩
  r2 := ⟨557 / 10000, -2040 / 10000, 10570 / 10000⟩

/-- The default `ENUM_MAP` (R16). -/
def enumMapDefault : EnumMap where
  powerDown := 0
  oneShotAutoRange := 1
  oneShot := 2
  continuous := 3
  oneFault := 0
  twoFaults := 1
  fourFaults := 2
  eightFaults := 3
  thresholdCh0 := 0
  thresholdCh1 := 1
  thresholdCh2 := 2
  thresholdCh3 := 3
  smbusAlert := 0
  readyNextChannel := 1
  readyAllChannels := 3
  rangeLevels := [0, 1, 2, 3, 4, 5, 6, 7]
  rangeAuto := 12
  conversionTimes := [0, 1, 2, 3, 4, 5, 6, 7, 8, 9, 10, 11]

/-- The defaults of R6: the parameters the test vectors use. `POW24` is known at 1 only (R133, P1). -/
def paramsDefault : Params where
  layout := .B
  num := .exact
  mCal := mCalGK
  mRgb := mRgbGK
  powPoints := [(1, 1)]
  epsPow := 1 / 2 ^ 52
  crcFn := none
  deviceId := 0x0821#16
  busGround := 0x44#7
  busSupply := 0x45#7
  busDataLine := 0x46#7
  busClockLine := 0x47#7
  strap := .ground
  enumMap := enumMapDefault

/-- R49: the bus address the strap selects; no operation uses the value. -/
def Params.busAddr (p : Params) : BitVec 7 :=
  match p.strap with
  | .ground => p.busGround
  | .supply => p.busSupply
  | .dataLine => p.busDataLine
  | .clockLine => p.busClockLine

end Sys2Proof
end

