-- ==== Sys2Proof/Machine/Number.lean ====
section
/-! DEFINITION. The number domains (spec rules R118, R133, R137, R138): the power function, binary64 values and their
arithmetic, and the tolerance every other domain than `EXACT` must meet. -/

namespace Sys2Proof

/-- The value listed for an argument in a table of points. -/
def pointAt : List (Rat × Rat) → Rat → Option Rat
  | [], _ => none
  | (a, v) :: rest, c => if c = a then some v else pointAt rest c

/-- R133: `POW24`, uninterpreted but for the points the parameters list. -/
def ColourParams.pow24 (p : ColourParams) (c : Rat) : Rat := (pointAt p.powPoints c).getD (Config.pow24 c)

/-! ### Binary64 (R138) -/

/-- R138: an IEEE 754 binary64 value. A finite one is written as the rational it denotes, so the two zeros are one
value (log entry 17). -/
inductive Binary64 where
  | finite (q : Rat)
  | posInf
  | negInf
  | nan
deriving DecidableEq, Repr

/-- The natural nearest `n / d`, ties to the even one. -/
def roundHalfEven (n d : Nat) : Nat :=
  if 2 * (n % d) < d then n / d
  else if d < 2 * (n % d) then n / d + 1
  else n / d + n / d % 2

/-- The exponent `e` with `2^e ≤ n / d < 2^(e+1)`, for positive `n` and `d`. -/
def binaryExponent (n d : Nat) : Int :=
  let e : Int := (Nat.log2 n : Int) - (Nat.log2 d : Int)
  if n * 2 ^ (-e).toNat < d * 2 ^ e.toNat then e - 1 else e

/-- The exponent of the last place of a binary64 number near `n / d`: 53 significant bits, and no place below
`2^-1074`. -/
def lastPlace (n d : Nat) : Int := max (binaryExponent n d - 52) (-1074)

/-- The magnitude `n / d` rounded to nearest, ties to even, at 53 bits (R138). -/
def roundMagnitude (n d : Nat) : Rat :=
  let u := lastPlace n d
  mkRat (roundHalfEven (n * 2 ^ (-u).toNat) (d * 2 ^ u.toNat) * 2 ^ u.toNat : Nat) (2 ^ (-u).toNat)

/-- R138: the binary64 value nearest `q`; a magnitude that rounds to `2^1024` or more is an infinity. -/
def round64 (q : Rat) : Binary64 :=
  let a := roundMagnitude q.num.natAbs q.den
  if q = 0 then .finite 0
  else if ((2 ^ 1024 : Nat) : Rat) ≤ a then if q < 0 then .negInf else .posInf
  else .finite (if q < 0 then -a else a)

/-- The number a binary64 value is, when it is one. -/
def Binary64.number : Binary64 → Option Rat
  | .finite q => some q
  | .posInf => none
  | .negInf => none
  | .nan => none

/-- The sign of a value; a NaN and a zero have none. -/
def Binary64.sign : Binary64 → Int
  | .finite q => if q < 0 then -1 else if q = 0 then 0 else 1
  | .posInf => 1
  | .negInf => -1
  | .nan => 0

/-- The infinity of a sign; an infinity times zero is no number. -/
def infinity64 (sign : Int) : Binary64 := if sign < 0 then .negInf else if sign = 0 then .nan else .posInf

def neg64 : Binary64 → Binary64
  | .finite q => .finite (-q)
  | .posInf => .negInf
  | .negInf => .posInf
  | .nan => .nan

def add64 : Binary64 → Binary64 → Binary64
  | .finite a, .finite b => round64 (a + b)
  | .finite _, b => b
  | a, .finite _ => a
  | .posInf, .posInf => .posInf
  | .negInf, .negInf => .negInf
  | _, _ => .nan

def sub64 (a b : Binary64) : Binary64 := add64 a (neg64 b)

def mul64 : Binary64 → Binary64 → Binary64
  | .finite a, .finite b => round64 (a * b)
  | .nan, _ => .nan
  | _, .nan => .nan
  | a, b => infinity64 (a.sign * b.sign)

/-- Division, its divisor already known not to be zero (R126, R136). -/
def div64 : Binary64 → Binary64 → Binary64
  | .finite a, .finite b => round64 (a / b)
  | .nan, _ => .nan
  | _, .nan => .nan
  | .finite _, _ => .finite 0
  | a, .finite b => infinity64 (a.sign * (Binary64.finite b).sign)
  | _, _ => .nan

/-- Comparison; a NaN compares with nothing. -/
def le64 : Binary64 → Binary64 → Bool
  | .nan, _ => false
  | _, .nan => false
  | .negInf, _ => true
  | _, .posInf => true
  | .finite a, .finite b => decide (a ≤ b)
  | _, _ => false

/-- R138: the platform's power, `POW24` rounded to binary64 (log entry 18). -/
def ColourParams.pow64 (p : ColourParams) : Binary64 → Binary64
  | .finite c => round64 (p.pow24 c)
  | .posInf => .posInf
  | .negInf => .nan
  | .nan => .nan

/-! ### The tolerance of R137 -/

/-- R137: within `TOL_E2E` of the exact number. -/
def nearE2E (exact q : Rat) : Bool := decide (|q - exact| ≤ tolE2E * |exact|)

/-- R118, R137: the number, or the numbers together, that a domain other than `EXACT` delivers. `own` is what the
domain computes, when a rule says so; it is delivered when it conforms. Otherwise the rules only bound the result, and
it is the free value when that conforms, and else `reference`, which does (log entries 15 and 16). -/
def conforming {α : Type} (conforms : α → Bool) (own : Option α) (free reference : α) : α :=
  ((own.toList ++ [free]).find? conforms).getD reference

/-- How many codes `numberOfCode` reads: 53 bits of magnitude, 2046 last places, two signs. -/
def codes64 : Nat := 2 ^ 53 * 2046 * 2

/-- R138: the binary64 numbers, one for each code below `codes64`: `± m * 2^e * 2^-1074`. -/
def numberOfCode (k : Nat) : Rat :=
  let a := mkRat (k % 2 ^ 53 * 2 ^ (k / 2 ^ 53 % 2046) : Nat) (2 ^ 1074)
  if k / (2 ^ 53 * 2046) = 0 then a else -a

/-- A natural below the bound that passes the test, the greatest, when there is one. -/
def searchBelow (test : Nat → Bool) : Nat → Option Nat
  | 0 => none
  | n + 1 => if test n then some n else searchBelow test n

/-- R118, R137, R138: the same under `BINARY64`, whose values are binary64 numbers. `rounded` gives the binary64 value of
an `α`, and `ofCode` every one there is, by codes below `codes`. What `BINARY64` itself computes is delivered when it
conforms; else the free value, and else `reference`, each rounded, when that conforms; else any value of `BINARY64` that
does. Only where none does is the unrounded `reference` delivered, because R137 binds all the same (log entry 16). -/
def conforming64 {α : Type} (rounded : α → Option α) (ofCode : Nat → α) (codes : Nat) (conforms : α → Bool)
    (own : Option α) (free reference : α) : α :=
  match (own.toList ++ (rounded free).toList ++ (rounded reference).toList).find? conforms with
  | some a => a
  | none => ((searchBelow (fun k => conforms (ofCode k)) codes).map ofCode).getD reference

/-- R118: the number that the domain `NUM` delivers. -/
def ColourParams.oneNumber (p : ColourParams) (conforms : Rat → Bool) (own : Option Rat) (free reference : Rat) : Rat :=
  match p.num with
  | .exact => reference
  | .binary64 => conforming64 (fun q => (round64 q).number) numberOfCode codes64 conforms own free reference
  | .fixed _ => conforming conforms own free reference

/-- `c^(5/12) ≤ h` for a positive `c`, over the reals, by exact rational arithmetic. -/
def powAtMost (c h : Rat) : Bool := decide (0 ≤ h ∧ c ^ 5 ≤ h ^ 12)

/-- `h ≤ c^(5/12)` for a positive `c`, over the reals. -/
def powAtLeast (c h : Rat) : Bool := decide (h ≤ 0 ∨ h ^ 12 ≤ c ^ 5)

/-- R130, R137: `q` is within `TOL_E2E` of the transfer function of `c` with an exact `POW24`, that is, with the real
power. -/
def srgbNear (c q : Rat) : Bool :=
  if c ≤ gammaT then nearE2E (gammaA * c) q
  else powAtMost c ((q / (1 - tolE2E) + gammaC) / gammaB) && powAtLeast c ((q / (1 + tolE2E) + gammaC) / gammaB)

/-- The largest natural below `m + 2^bits` whose 12th power is at most `n`, bit by bit from `m`. -/
def rootBits (n : Nat) : (bits m : Nat) → Nat
  | 0, m => m
  | b + 1, m => rootBits n b (if (m + 2 ^ b) ^ 12 ≤ n then m + 2 ^ b else m)

/-- The 12th root of `n`, rounded down. -/
def floorRoot (n : Nat) : Nat := rootBits n (Nat.log2 n / 12 + 1) 0

/-- `c^(5/12)` for a positive `c`, rounded down at 32 fractional bits: far inside every tolerance of R137. -/
def powFloor (c : Rat) : Rat := mkRat (floorRoot (c.num.natAbs ^ 5 * 2 ^ 384 / c.den ^ 5)) (2 ^ 32)

/-- A number that is near the transfer function of `c` in the sense of `srgbNear`. -/
def srgbReference (c : Rat) : Rat := if c ≤ gammaT then gammaA * c else gammaB * powFloor c - gammaC

end Sys2Proof
end

