-- ==== Sys2Proof/Machine/ColourMath.lean ====
section
/-! DEFINITION. The colour pipeline's functions (spec rules R118 to R139) under each number domain: `…Exact` is the
normative one, `…64` is what R138 computes under `BINARY64`. A domain other than `EXACT` delivers numbers that conform to
R127 and R137 (`ColourParams.oneNumber`, `ColourParams.oneChroma`). Every function here reads the `ColourParams` only (R139). -/

namespace Sys2Proof

/-- R123: the four reconstructed values as numbers; the conversion is exact (R121). -/
def ChannelSet.values (cs : ChannelSet) : Row4 where
  c0 := (cs.ch0.value.toNat : Rat)
  c1 := (cs.ch1.value.toNat : Rat)
  c2 := (cs.ch2.value.toNat : Rat)
  c3 := (cs.ch3.value.toNat : Rat)

/-- R124: the row vector of channels times the matrix; outputs by column. -/
def Mat4.rowTimes (m : Mat4) (v : Row4) : Row4 where
  c0 := v.c0 * m.r0.c0 + v.c1 * m.r1.c0 + v.c2 * m.r2.c0 + v.c3 * m.r3.c0
  c1 := v.c0 * m.r0.c1 + v.c1 * m.r1.c1 + v.c2 * m.r2.c1 + v.c3 * m.r3.c1
  c2 := v.c0 * m.r0.c2 + v.c1 * m.r1.c2 + v.c2 * m.r2.c2 + v.c3 * m.r3.c2
  c3 := v.c0 * m.r0.c3 + v.c1 * m.r1.c3 + v.c2 * m.r2.c3 + v.c3 * m.r3.c3

/-- R126: chromaticity, absent when the sum is exactly zero. -/
def chromaOf (X Y Z : Rat) : Option Chroma :=
  if X + Y + Z = 0 then none
  else some ⟨X / (X + Y + Z), Y / (X + Y + Z), Z / (X + Y + Z)⟩

/-- R123 under `EXACT`. -/
def rawToXYZExact (m : Mat4) (v : Row4) : XYZColor where
  X := (m.rowTimes v).c0
  Y := (m.rowTimes v).c1
  Z := (m.rowTimes v).c2
  l := (m.rowTimes v).c3
  chroma := chromaOf (m.rowTimes v).c0 (m.rowTimes v).c1 (m.rowTimes v).c2

/-! ### R130: the transfer function -/

/-- R130 under `EXACT`. -/
def linearToSRGBExact (p : ColourParams) (c : Rat) : Rat :=
  if c ≤ gammaT then gammaA * c else gammaB * p.pow24 c - gammaC

/-- R130 as R138 computes it. -/
def linearToSRGB64 (p : ColourParams) (c : Binary64) : Binary64 :=
  if le64 c (round64 gammaT) then mul64 (round64 gammaA) c
  else sub64 (mul64 (round64 gammaB) (p.pow64 c)) (round64 gammaC)

/-- R130: `linearToSRGB` under the parameter `NUM`. -/
def ColourParams.linearToSRGB (p : ColourParams) (c : Rat) : Rat :=
  let free := Config.freeNum p 7 [c] 0
  match p.num with
  | .exact => linearToSRGBExact p c
  | .binary64 => p.oneNumber (srgbNear c) (linearToSRGB64 p (round64 c)).number free (srgbReference c)
  | .fixed _ => p.oneNumber (srgbNear c) none free (srgbReference c)

/-! ### R128: chromaticity to sRGB -/

/-- R128: one output of the 3×3 matrix, rows indexed by output (R129). -/
def Row3.dot (r : Row3) (c : Chroma) : Rat := r.c0 * c.x + r.c1 * c.y + r.c2 * c.z

/-- R138: the three-term sum of R128, rounded, left to right. -/
def Row3.dot64 (r : Row3) (c : Chroma) : Binary64 :=
  add64 (add64 (mul64 (round64 r.c0) (round64 c.x)) (mul64 (round64 r.c1) (round64 c.y)))
    (mul64 (round64 r.c2) (round64 c.z))

/-- R128 under `EXACT`. -/
def xyzToRGBExact (p : ColourParams) (c : Chroma) : RGBColor where
  r := linearToSRGBExact p (p.mRgb.r0.dot c)
  g := linearToSRGBExact p (p.mRgb.r1.dot c)
  b := linearToSRGBExact p (p.mRgb.r2.dot c)

/-- R128, R137 in a domain other than `EXACT`, which itself computes `own` of a matrix row. -/
def ColourParams.rgbConforming (p : ColourParams) (own : Row3 → Option Rat) (c : Chroma) : RGBColor :=
  let free := Config.freeNum p 6 [c.x, c.y, c.z]
  let one (row : Row3) (k : Nat) : Rat :=
    p.oneNumber (srgbNear (row.dot c)) (own row) (free k) (srgbReference (row.dot c))
  { r := one p.mRgb.r0 0, g := one p.mRgb.r1 1, b := one p.mRgb.r2 2 }

/-- R128: `xyzToRGB` on a colour that has a chromaticity, under the parameter `NUM`. -/
def ColourParams.xyzToRGB (p : ColourParams) (c : Chroma) : RGBColor :=
  match p.num with
  | .exact => xyzToRGBExact p c
  | .binary64 => p.rgbConforming (fun row => (linearToSRGB64 p (row.dot64 c)).number) c
  | .fixed _ => p.rgbConforming (fun _ => none) c

/-- R137: each number of `t` is within `TOL_E2E` of the one the chromaticity `g` has with an exact `POW24`. -/
def ColourParams.rgbNear (p : ColourParams) (g : Chroma) (t : RGBColor) : Bool :=
  srgbNear (p.mRgb.r0.dot g) t.r && srgbNear (p.mRgb.r1.dot g) t.g && srgbNear (p.mRgb.r2.dot g) t.b

/-! ### R135: correlated colour temperature; `z` does not enter -/

/-- R135: the cubic polynomial. -/
def cctPoly (n : Rat) : Rat := cctK3 * n * n * n + cctK2 * n * n + cctK1 * n + cctK0

/-- R135, R136 under `EXACT`; `none` exactly when `0.1858 - y = 0`. -/
def xyzToCCTExact (c : Chroma) : Option Rat :=
  if cctYe - c.y = 0 then none else some (cctPoly ((c.x - cctXe) / (cctYe - c.y)))

/-- R138: the polynomial rounded, left to right. -/
def cctPoly64 (n : Binary64) : Binary64 :=
  add64 (add64 (add64 (mul64 (mul64 (mul64 (round64 cctK3) n) n) n) (mul64 (mul64 (round64 cctK2) n) n))
    (mul64 (round64 cctK1) n)) (round64 cctK0)

/-- R138: the denominator of R135. -/
def cctDen64 (c : Chroma) : Binary64 := sub64 (round64 cctYe) (round64 c.y)

/-- R135, R136 as R138 computes it; `none` when the denominator is zero or the result is not finite. -/
def xyzToCCT64 (c : Chroma) : Option Rat :=
  if cctDen64 c = .finite 0 then none
  else (cctPoly64 (div64 (sub64 (round64 c.x) (round64 cctXe)) (cctDen64 c))).number

/-- R135: `xyzToCCT` on a colour that has a chromaticity, under the parameter `NUM`; `none` is `UndefinedCCT`. Under
`FIXED` the denominator is zero when `y` is `0.1858` (log entry 15). -/
def ColourParams.xyzToCCT (p : ColourParams) (c : Chroma) : Option Rat :=
  let free := Config.freeNum p 8 [c.x, c.y] 0
  match p.num with
  | .exact => xyzToCCTExact c
  | .binary64 =>
    match xyzToCCT64 c, xyzToCCTExact c with
    | some t, some e => some (p.oneNumber (nearE2E e) (some t) free e)
    | _, _ => none
  | .fixed _ => (xyzToCCTExact c).map fun e => p.oneNumber (nearE2E e) none free e

/-- R137: a delivered temperature is within `TOL_E2E` of the one the chromaticity `g` has. -/
def cctNear (g : Chroma) (t : Option Rat) : Bool :=
  match t, xyzToCCTExact g with
  | none, _ => true
  | some t, some e => nearE2E e t
  | some _, none => false

/-! ### R123: raw counts to XYZ -/

/-- R138: a four-term sum of R123, products and sums rounded, left to right. -/
def dot64 (v : Row4) (a b c d : Rat) : Binary64 :=
  add64 (add64 (add64 (mul64 (round64 v.c0) (round64 a)) (mul64 (round64 v.c1) (round64 b)))
    (mul64 (round64 v.c2) (round64 c))) (mul64 (round64 v.c3) (round64 d))

/-- R138: the sum `S` of R123. -/
def sum64 (X Y Z : Rat) : Binary64 := add64 (add64 (round64 X) (round64 Y)) (round64 Z)

/-- R138: the chromaticity of three binary64 values, when all are finite. -/
def Chroma.ofBinary64 (x y z : Binary64) : Option Chroma :=
  match x.number, y.number, z.number with
  | some x, some y, some z => some ⟨x, y, z⟩
  | _, _, _ => none

/-- R138: the three quotients of R126 by a sum that is not zero, when all are finite. -/
def quotients64 (X Y Z : Rat) : Option Chroma :=
  Chroma.ofBinary64 (div64 (round64 X) (sum64 X Y Z)) (div64 (round64 Y) (sum64 X Y Z)) (div64 (round64 Z) (sum64 X Y Z))

/-- R138: a chromaticity with each coordinate rounded, when all are finite. -/
def Chroma.rounded (t : Chroma) : Option Chroma := Chroma.ofBinary64 (round64 t.x) (round64 t.y) (round64 t.z)

/-- R127, R137: what a chromaticity must meet in a domain other than `EXACT`, where `exact` is the one under `EXACT`.
Its sum is one within `TOL_SUM`; and since R137 speaks of the whole pipeline, its numbers and the numbers `xyzToRGB` and
`xyzToCCT` deliver from it are within `TOL_E2E` of those of `exact`. -/
def ColourParams.chromaConforms (p : ColourParams) (exact : Option Chroma) (t : Chroma) : Bool :=
  decide (|t.x + t.y + t.z - 1| ≤ tolSum) &&
    match exact with
    | none => true
    | some g => nearE2E g.x t.x && nearE2E g.y t.y && nearE2E g.z t.z && p.rgbNear g (p.xyzToRGB t)
        && cctNear g (p.xyzToCCT t)

/-- R138: the chromaticities of binary64 numbers, one for each code below `codes64 ^ 3`. -/
def Chroma.ofCode (k : Nat) : Chroma where
  x := numberOfCode (k % codes64)
  y := numberOfCode (k / codes64 % codes64)
  z := numberOfCode (k / codes64 ^ 2)

/-- R118: the chromaticity that the domain `NUM` delivers, its three numbers chosen together. -/
def ColourParams.oneChroma (p : ColourParams) (conforms : Chroma → Bool) (own : Option Chroma)
    (free reference : Chroma) : Chroma :=
  match p.num with
  | .exact => reference
  | .binary64 => conforming64 Chroma.rounded Chroma.ofCode (codes64 ^ 3) conforms own free reference
  | .fixed _ => conforming conforms own free reference

/-- R123, R126, R127, R137 in a domain other than `EXACT`, which itself computes the numbers `own` and, from the delivered
`X`, `Y`, `Z`, the test `S == 0` and the quotients. Where `EXACT` has no chromaticity to compare with, only the sum is
bound. -/
def ColourParams.xyzConforming (p : ColourParams) (own : Nat → Option Rat) (zero : Rat → Rat → Rat → Bool)
    (quotients : Rat → Rat → Rat → Option Chroma) (v : Row4) : XYZColor :=
  let e := rawToXYZExact p.mCal v
  let free := Config.freeNum p 5 [v.c0, v.c1, v.c2, v.c3]
  let one (exact : Rat) (k : Nat) : Rat := p.oneNumber (nearE2E exact) (own k) (free k) exact
  let X := one e.X 0
  let Y := one e.Y 1
  let Z := one e.Z 2
  { X := X, Y := Y, Z := Z, l := one e.l 3
    chroma :=
      if zero X Y Z then none
      else some (p.oneChroma (p.chromaConforms e.chroma) (quotients X Y Z) ⟨free 4, free 5, free 6⟩
        (e.chroma.getD ⟨free 4, free 5, 1 - free 4 - free 5⟩)) }

/-- R138: the four sums of R123 by column of `M_CAL`. -/
def Mat4.column64 (m : Mat4) (v : Row4) : Nat → Option Rat
  | 0 => (dot64 v m.r0.c0 m.r1.c0 m.r2.c0 m.r3.c0).number
  | 1 => (dot64 v m.r0.c1 m.r1.c1 m.r2.c1 m.r3.c1).number
  | 2 => (dot64 v m.r0.c2 m.r1.c2 m.r2.c2 m.r3.c2).number
  | _ => (dot64 v m.r0.c3 m.r1.c3 m.r2.c3 m.r3.c3).number

/-- R123: `rawToXYZ` under the parameter `NUM`. -/
def ColourParams.rawToXYZ (p : ColourParams) (cs : ChannelSet) : XYZColor :=
  match p.num with
  | .exact => rawToXYZExact p.mCal cs.values
  | .binary64 =>
    p.xyzConforming (p.mCal.column64 cs.values) (fun X Y Z => sum64 X Y Z == .finite 0) quotients64 cs.values
  | .fixed _ => p.xyzConforming (fun _ => none) (fun X Y Z => X + Y + Z == 0) (fun _ _ _ => none) cs.values

end Sys2Proof
end

