-- ==== Sys2Proof/Machine/State.lean ====
section
/-! DEFINITION. The machine's state, plain data: the parameters, the Device Session (spec rules R22, R23, R97), the
device's registers as far as they are known (R24), the transport oracle (R33, R34, R48), and the caller's run
(R11, R12, R64). The block itself has no state (R10). -/

namespace Sys2Proof.Machine

/-- The direction of a transport access (R33, R34). -/
inductive Direction where
  | read
  | write
deriving DecidableEq, Repr

/-- R150: the status of an operation, `ok` or exactly one failure signal with what is delivered with it. -/
inductive Status where
  | ok
  /-- R151: the 16-bit value read from 0x11 -/
  | identityMismatch (id : Half)
  /-- R152: which access failed -/
  | transportFailure (addr : RegAddr) (dir : Direction)
  /-- R153: the four per-channel flags -/
  | crcMismatch (flags : CrcFlags)
  /-- R154 -/
  | undefinedChromaticity
  /-- R155 -/
  | undefinedCCT
  /-- R156: the `OPSEL` value -/
  | illegalOperation (opsel : Nat)
  /-- R157: the field and the value -/
  | operandOutOfRange (field : ConfigField) (value : Nat)
  /-- R158 -/
  | notReady
deriving DecidableEq, Repr

/-- R150: the numeric code of a status. -/
def Status.code : Status → Nat
  | .ok => 0
  | .identityMismatch _ => 1
  | .transportFailure _ _ => 2
  | .crcMismatch _ => 3
  | .undefinedChromaticity => 4
  | .undefinedCCT => 5
  | .illegalOperation _ => 6
  | .operandOutOfRange _ _ => 7
  | .notReady => 8

/-- What a name of the caller's program can hold: the results of R62 and R65. -/
inductive Value where
  | word (w : Word)
  | config (c : DeviceConfiguration)
  | channel (ch : RawChannel)
  | channelSet (cs : ChannelSet)
  | crcFlags (f : CrcFlags)
  | bool (b : Bool)
  | wide (v : Wide)
  | xyz (c : XYZColor)
  | rgb (c : RGBColor)
  | num (q : Rat)
  | status (st : Status)
deriving DecidableEq, Repr

/-- R22: `session_state`. -/
inductive SessionState where
  | uninitialized
  | ready
deriving DecidableEq, Repr

/-- R48: who answers an access for which the script holds no answer. -/
inductive TransportMode where
  /-- every answer is a free draw -/
  | oracle
  /-- the simulated transport echo -/
  | echo
deriving DecidableEq, Repr

/-- One answer of the transport collaborator to one access (R33, R34, R48, R152). -/
inductive Answer where
  /-- the call reports failure -/
  | fail
  /-- a read receives these bytes (a count other than the one asked for is a short read, a failure);
  a write succeeds -/
  | data (bs : List Byte)
  /-- the device answers from its registers; a write succeeds -/
  | echo
  /-- a free draw: the call may fail, and a read's bytes are any -/
  | draw
deriving DecidableEq, Repr

/-- One transport access as the transport saw it: what was asked and what came of it. -/
inductive Access where
  | read (addr : RegAddr) (n : Nat) (answer : Option (List Byte))
  | write (addr : RegAddr) (payload : List Byte) (ok : Bool)
deriving DecidableEq, Repr

/-- What the caller does after a status that is not `OK` (R11, R163). -/
inductive CallerPolicy where
  /-- the list stops (R11) -/
  | stop
  /-- the caller issues the next line anyway (R163, PROG4, PROG5) -/
  | goOn
deriving DecidableEq, Repr

/-- Where a run stops without a next state. -/
inductive Fault where
  /-- an operand is a name no line has assigned (R21: reading an absent value is a fault, never a number);
  raised by every operation with a name operand; safe -/
  | unassignedName (n : Name)
  /-- an operand is a name that holds a value of another type than the operation's operand (R62); safe -/
  | operandKind (n : Name)
  /-- R114, U24: a transport call never returns, so the operation has no end; raised by Device Session
  operations that reach the transport; safe -/
  | transportHang
  /-- the caller's list has no further line (R11); raised by `step`; safe -/
  | endOfProgram
  /-- the list stopped at a status that was not `OK` (R11); raised by `step`; safe -/
  | programStopped
deriving DecidableEq, Repr

/-- What the model gives no meaning. -/
inductive Refusal where
  /-- an instruction not modelled yet; raised by `exec`'s arm; safe -/
  | notModelled (mnemonic : String)
  /-- a line that encodes no invocation (R64 gives it none); raised by `step`; safe -/
  | malformedLine (e : DecodeError)
deriving DecidableEq, Repr

/-- The state of the whole system. -/
structure State where
  /-- R6, R20: the parameters; no operation writes them -/
  params : Params
  /-- R22 -/
  session : SessionState
  /-- R97, R177: an `init` on this session has failed, so the session accepts no operation -/
  initFailed : Bool
  /-- R23 -/
  cfgCache : Option DeviceConfiguration
  /-- R24: the device's registers, the bytes of register `a` at `2a` (high) and `2a + 1` (low); an unlisted
  byte is not known to the model (R28, R34) -/
  device : List Host.Cell
  /-- R48 -/
  mode : TransportMode
  /-- answers already chosen for the accesses to come, first first -/
  script : List Answer
  /-- R114: a call of the next operation that reaches the transport never returns -/
  hang : Bool
  /-- the model's own counter for free draws: how many accesses have been made -/
  draws : Nat
  /-- every access made, oldest first -/
  traffic : List Access
  /-- R64: the caller's list, one encoded line an operation -/
  program : List (List Byte)
  /-- R11: the index of the next line -/
  index : Nat
  /-- R11: the list has stopped -/
  stopped : Bool
  policy : CallerPolicy
  /-- R64: the names assigned so far and their values -/
  env : List (Nat × Value)
  /-- the run's record of statuses, oldest first (R12: kept in the run, not in the block) -/
  statuses : List Status
deriving DecidableEq, Repr

/-- R28, R175: a session just constructed, parameters at the defaults of R6, a device of which nothing is known,
and no line issued. -/
def State.reset : State where
  params := paramsDefault
  session := .uninitialized
  initFailed := false
  cfgCache := none
  device := []
  mode := .oracle
  script := []
  hang := false
  draws := 0
  traffic := []
  program := []
  index := 0
  stopped := false
  policy := .stop
  env := []
  statuses := []

end Sys2Proof.Machine
end

