-- ==== Sys2Proof/Machine/Ops.lean ====
section
/-! DEFINITION. The shared operations: keyed lists, the device's registers, the delivery of a result and a status to
the caller (spec rules R9, R11, R161, R162), and the two transport calls (R33, R34, R48). -/

namespace Sys2Proof.Machine

/-! ### Lists keyed by a natural, in one canonical form: keys strictly rising -/

/-- The value at a key. -/
def lookup {β : Type} : List (Nat × β) → Nat → Option β
  | [], _ => none
  | (k, v) :: rest, a => if a = k then some v else lookup rest a

/-- Puts a value at a key, replacing what stands there. -/
def insertAt {β : Type} (a : Nat) (b : β) : List (Nat × β) → List (Nat × β)
  | [] => [(a, b)]
  | (k, v) :: rest =>
    if a < k then (a, b) :: (k, v) :: rest
    else if a = k then (a, b) :: rest
    else (k, v) :: insertAt a b rest

/-- Removes a key. -/
def removeAt {β : Type} (a : Nat) : List (Nat × β) → List (Nat × β)
  | [] => []
  | (k, v) :: rest => if a = k then rest else (k, v) :: removeAt a rest

/-- The canonical form: every key is at least `lo` and smaller than the next. -/
def risingFrom {β : Type} : Nat → List (Nat × β) → Bool
  | _, [] => true
  | lo, (k, _) :: rest => decide (lo ≤ k) && risingFrom (k + 1) rest

/-! ### The device's registers (R24), known byte by byte -/

/-- The canonical form of the device's registers: addresses strictly rising and inside the 256 registers of two
bytes (R24). An unlisted byte is unknown, so no entry equals what an unlisted address reads as. -/
def Memory.wf (m : List Host.Cell) : Bool := risingFrom 0 m && m.all fun c => decide (c.1 < 512)

/-- R24, R35: the byte address of a register's byte, the high byte first. -/
def byteAddr (addr : RegAddr) (i : Nat) : Nat := 2 * addr.toNat + i

/-- The byte at an address, when it is known. -/
def Memory.readByte (m : List Host.Cell) (a : Nat) : Option Byte := lookup m a

/-- R34: a successful 16-bit write. -/
def Memory.writeHalf (m : List Host.Cell) (addr : RegAddr) (v : Half) : List Host.Cell :=
  insertAt (byteAddr addr 1) (v.extractLsb' 0 8) (insertAt (byteAddr addr 0) (v.extractLsb' 8 8) m)

/-- R34: after a failed write the register's content is unknown. -/
def Memory.forgetHalf (m : List Host.Cell) (addr : RegAddr) : List Host.Cell :=
  removeAt (byteAddr addr 1) (removeAt (byteAddr addr 0) m)

/-! ### Delivery to the caller -/

/-- R64: assigns names in order. When a line writes one destination name twice, as `(s, s, s) = read()` does, the spec
says nothing and the later assignment wins: a DESIGN CHOICE, log entry 27. -/
def assignAll (env : List (Nat × Value)) (as : List (Name × Value)) : List (Nat × Value) :=
  as.foldl (fun e a => insertAt a.1 a.2 e) env

/-- R11, R163: whether the caller goes on to the next line after a status. -/
def CallerPolicy.goesOn : CallerPolicy → Status → Bool
  | .goOn, _ => true
  | .stop, st => st == .ok

/-- R9, R11, R161, R162: an operation ends: its results are assigned, its one status reaches the caller, and the
list advances or stops. A failure is delivered by this same operation; nothing is saved and nothing else changes. A
destination name to which the failed operation delivers no value keeps the value an earlier line gave it, and a later
line can read it: the spec says only that the result carries no value (R9), so this is a DESIGN CHOICE, log entry 26. -/
def State.deliver (s : State) (as : List (Name × Value)) (st : Status) : State :=
  { s with
    env := assignAll s.env as
    statuses := s.statuses ++ [st]
    index := if s.policy.goesOn st then s.index + 1 else s.index
    stopped := !s.policy.goesOn st }

/-! ### Actions of the Device Session: a result or the first failure, and the state -/

/-- A step of a session operation: it ends with a value or with a failure status (R9, R161). -/
abbrev Act (α : Type) := State → Except Status α × State

/-- Runs one action and, if it did not fail, the next: the first failure ends the operation (R9, R116). -/
def Act.andThen {α β : Type} (m : Act α) (f : α → Act β) : Act β := fun s =>
  match m s with
  | (.ok a, s') => f a s'
  | (.error e, s') => (.error e, s')

def Act.done {α : Type} (a : α) : Act α := fun s => (.ok a, s)

def Act.fail {α : Type} (e : Status) : Act α := fun s => (.error e, s)

/-! ### The transport (R33, R34, R48) -/

/-- The answer to the next access: the script's, or the mode's when the script is empty. -/
def State.nextAnswer (s : State) : Answer :=
  match s.script with
  | a :: _ => a
  | [] =>
    match s.mode with
    | .oracle => .draw
    | .echo => .echo

/-- The n bytes of a free draw. -/
def drawnBytes (k n : Nat) : List Byte := (List.range n).map (Config.drawByte k)

/-- R48: the bytes the device's registers answer; an unknown byte is drawn (R34). R48 says so of 0x0A and 0x0B only; that
under `ECHO` the 16 bytes at 0x00 and the 2 bytes at 0x11 are answered from the listed bytes in the same way, the same at
every read, is a DESIGN CHOICE, log entry 28. -/
def echoedBytes (m : List Host.Cell) (k : Nat) (addr : RegAddr) (n : Nat) : List Byte :=
  (List.range n).map fun i => (Memory.readByte m (byteAddr addr i)).getD (Config.drawByte k i)

/-- R33: what a read of `n` bytes receives; `none` is a failure, a short read among them. -/
def State.readAnswer (s : State) (addr : RegAddr) (n : Nat) : Option (List Byte) :=
  match s.nextAnswer with
  | .fail => none
  | .data bs => if bs.length = n then some bs else none
  | .echo => some (echoedBytes s.device s.draws addr n)
  | .draw => if Config.drawFails s.draws then none else some (drawnBytes s.draws n)

/-- R34: whether a write succeeds. -/
def State.writeAnswer (s : State) : Bool :=
  match s.nextAnswer with
  | .fail => false
  | .data _ => true
  | .echo => true
  | .draw => !Config.drawFails s.draws

/-- An access is made: its answer is used up and the access is recorded. -/
def State.accessed (s : State) (a : Access) : State :=
  { s with script := s.script.drop 1, draws := s.draws + 1, traffic := s.traffic ++ [a] }

/-- R33: `MemRead(addr, n)`. -/
def memRead (addr : RegAddr) (n : Nat) : Act (List Byte) := fun s =>
  match s.readAnswer addr n with
  | some bs => (.ok bs, s.accessed (.read addr n (some bs)))
  | none => (.error (.transportFailure addr .read), s.accessed (.read addr n none))

/-- R34, R38: `MemWrite(addr, 2, v)`. -/
def memWrite (addr : RegAddr) (v : Half) : Act Unit := fun s =>
  if s.writeAnswer then
    (.ok (), { s.accessed (.write addr (payload16 v) true) with device := Memory.writeHalf s.device addr v })
  else
    (.error (.transportFailure addr .write),
      { s.accessed (.write addr (payload16 v) false) with device := Memory.forgetHalf s.device addr })

/-- R32: the complete list of accesses the system makes. -/
def Access.allowed : Access → Bool
  | .read addr n _ =>
    (addr == addrDeviceId && n == 2) || (addr == addrConfigHi && n == 2) || (addr == addrConfigLo && n == 2)
      || (addr == addrChannels && n == 16)
  | .write addr payload _ => (addr == addrConfigHi || addr == addrConfigLo) && payload.length == 2

end Sys2Proof.Machine
end

