-- ==== Sys2Proof/Machine/Flags.lean ====
section
/-! DEFINITION. The statuses the operations compute (spec rules R98, R123, R128, R135, R150, R159, R161). The hardware
has no flags that persist (R12): a status and the `bool` of `crcValid` are outputs of one invocation. -/

namespace Sys2Proof.Machine

/-- R123, R126: the status of a `rawToXYZ` from its result. -/
def xyzStatus (c : XYZColor) : Status :=
  match c.chroma with
  | none => .undefinedChromaticity
  | some _ => .ok

/-- R98: the status of a `read` from its four flags. -/
def crcStatus (f : CrcFlags) : Status := if f.all then .ok else .crcMismatch f

/-- R92, R158: a session operation other than `init` wants a session on which `init` returned `OK`, which is when
`Ready` is committed (R97). -/
def State.usable (s : State) : Bool := s.session == .ready

/-- R92, R158: the status with which a session operation is turned away before it makes an access. -/
def State.turnsAway (s : State) : Option Status := if s.usable then none else some .notReady

/-- R92, R177: `init` wants a session on which it has not been called. -/
def State.initTurnsAway (s : State) : Option Status :=
  if s.session == .uninitialized && !s.initFailed then none else some .notReady

/-- R100: `writeConfig` wants a cached configuration besides. -/
def State.writeTurnsAway (s : State) : Option Status :=
  if s.usable && s.cfgCache.isSome then none else some .notReady

/-- R101, R157, R161: a setter tests readiness first, then whether its operand fits the field. -/
def State.setterTurnsAway (s : State) (f : ConfigField) (v : Nat) : Option Status :=
  match s.writeTurnsAway with
  | some e => some e
  | none => if f.fits v then none else some (.operandOutOfRange f v)

end Sys2Proof.Machine
end

