-- ==== Sys2Proof/Machine/Operands.lean ====
section
/-! DEFINITION. The operand forms (spec rule R64): a literal stands for itself, a name for the value an earlier line
assigned to it. A name that holds nothing is a fault of the run, never a number (R21). -/

namespace Sys2Proof.Machine

def Value.asWord : Value → Option Word
  | .word w => some w
  | _ => none

def Value.asConfig : Value → Option DeviceConfiguration
  | .config c => some c
  | _ => none

def Value.asChannel : Value → Option RawChannel
  | .channel ch => some ch
  | _ => none

def Value.asChannelSet : Value → Option ChannelSet
  | .channelSet cs => some cs
  | _ => none

def Value.asXYZ : Value → Option XYZColor
  | .xyz c => some c
  | _ => none

/-- A `NUM`; a reconstructed value converts to one exactly (R121). -/
def Value.asNum : Value → Option Rat
  | .num q => some q
  | .wide v => some (v.toNat : Rat)
  | _ => none

/-- A setter's value as an untyped natural (R157): every result that is an unsigned number is one, a `bool` among them
(R8: `bool` is `u1`). -/
def Value.asField : Value → Option Nat
  | .bool b => some b.toNat
  | .word w => some w.toNat
  | .wide v => some v.toNat
  | _ => none

/-- The value a name holds, read as the type the operand wants. -/
def State.named {α : Type} (s : State) (as : Value → Option α) (n : Name) : Except Fault α :=
  match lookup s.env n with
  | none => .error (.unassignedName n)
  | some v =>
    match as v with
    | some a => .ok a
    | none => .error (.operandKind n)

/-- What an operand denotes (R64). -/
def evalOperand {α : Type} (s : State) (as : Value → Option α) : Operand α → Except Fault α
  | .lit a => .ok a
  | .var n => s.named as n

/-- What the operand of `rawToXYZ` denotes: a record's members are evaluated in order (R64, PROG2;
log entry 29). -/
def evalSet (s : State) : SetOperand → Except Fault ChannelSet
  | .var n => s.named Value.asChannelSet n
  | .record a b c d =>
    match evalOperand s Value.asChannel a, evalOperand s Value.asChannel b,
      evalOperand s Value.asChannel c, evalOperand s Value.asChannel d with
    | .ok c0, .ok c1, .ok c2, .ok c3 => .ok ⟨c0, c1, c2, c3⟩
    | .error f, _, _, _ => .error f
    | _, .error f, _, _ => .error f
    | _, _, .error f, _ => .error f
    | _, _, _, .error f => .error f

/-- What the operand of `packConfig` denotes: a typed configuration, or the first field that does not fit (R70,
R157). -/
def evalConfig (s : State) : ConfigOperand → Except Fault (Except (ConfigField × Nat) DeviceConfiguration)
  | .image c => .ok (.ok c)
  | .var n =>
    match s.named Value.asConfig n with
    | .ok c => .ok (.ok c)
    | .error f => .error f
  | .record r =>
    match r.misfit with
    | none => .ok (.ok r.typed)
    | some m => .ok (.error m)

/-- An operation whose operand denotes a value ends with a next state; one whose operand denotes none is a fault. -/
def withOperand {α : Type} (v : Except Fault α) (k : α → Host.Outcome State Fault Refusal) :
    Host.Outcome State Fault Refusal :=
  match v with
  | .ok a => k a
  | .error f => .fault f

end Sys2Proof.Machine
end

