-- ==== Sys2Proof/Machine/ColourPipeline.lean ====
section
/-! DEFINITION. The five operations of the Colour Pipeline (spec rules R118 to R139). They read their operand and the
parameters only, and change nothing but the caller's run (R139). -/

namespace Sys2Proof.Machine

/-- R120. -/
def execReconstruct (dst : Name) (ch : Operand RawChannel) (s : State) : Host.Outcome State Fault Refusal :=
  withOperand (evalOperand s Value.asChannel ch) fun ch => .next (s.deliver [(dst, .wide ch.value)] .ok)

/-- R123, R126: the colour is delivered in either case, without chromaticity when the sum is zero. -/
def execRawToXYZ (dst : Name) (set : SetOperand) (s : State) : Host.Outcome State Fault Refusal :=
  withOperand (evalSet s set) fun cs =>
    .next (s.deliver [(dst, .xyz (s.params.rawToXYZ cs))] (xyzStatus (s.params.rawToXYZ cs)))

/-- R128. -/
def execXyzToRGB (dst : Name) (c : Operand XYZColor) (s : State) : Host.Outcome State Fault Refusal :=
  withOperand (evalOperand s Value.asXYZ c) fun c =>
    match c.chroma with
    | none => .next (s.deliver [] .undefinedChromaticity)
    | some h => .next (s.deliver [(dst, .rgb (s.params.xyzToRGB h))] .ok)

/-- R130. -/
def execLinearToSRGB (dst : Name) (c : Operand Rat) (s : State) : Host.Outcome State Fault Refusal :=
  withOperand (evalOperand s Value.asNum c) fun c => .next (s.deliver [(dst, .num (s.params.linearToSRGB c))] .ok)

/-- R135, R136, R161: the chromaticity is tested before the denominator. -/
def execXyzToCCT (dst : Name) (c : Operand XYZColor) (s : State) : Host.Outcome State Fault Refusal :=
  withOperand (evalOperand s Value.asXYZ c) fun c =>
    match c.chroma with
    | none => .next (s.deliver [] .undefinedChromaticity)
    | some h =>
      match s.params.xyzToCCT h with
      | none => .next (s.deliver [] .undefinedCCT)
      | some t => .next (s.deliver [(dst, .num t)] .ok)

end Sys2Proof.Machine
end

