-- ==== Sys2Proof/Machine/DeviceSession.lean ====
section
/-! DEFINITION. The fourteen macro operations of the Device Session (spec rules R90 to R117): each a sequence of
transport accesses, reassembly and block operations, ended by its first failure. -/

namespace Sys2Proof.Machine

/-! ### The sequences -/

/-- R99: `readConfig`; a failed read leaves the cache as it was. -/
def doReadConfig : Act DeviceConfiguration :=
  (memRead addrConfigHi 2).andThen fun bh =>
  (memRead addrConfigLo 2).andThen fun bl => fun s =>
    let c := unpackWord s.params.layout (join32 (halfOf bh) (halfOf bl))
    (.ok c, { s with cfgCache := some c })

/-- R100: the two writes of a configuration word, high half first. -/
def writeWord (w : Word) : Act Unit :=
  (memWrite addrConfigHi (hi16 w)).andThen fun _ => memWrite addrConfigLo (lo16 w)

/-- R100: `writeConfig`. -/
def doWriteConfig : Act Unit := fun s =>
  match s.cfgCache with
  | none => Act.fail .notReady s
  | some c => writeWord (packWord s.params.layout c) s

/-- R101, R103: the generic setter; a failed write restores the cache. -/
def doSet (f : ConfigField) (v : Nat) : Act Unit := fun s =>
  match s.cfgCache with
  | none => Act.fail .notReady s
  | some old =>
    match doWriteConfig { s with cfgCache := some (old.set f v) } with
    | (.ok (), s') => (.ok (), s')
    | (.error e, s') => (.error e, { s' with cfgCache := some old })

/-- R93 to R97: the steps of `init` after which the session is ready. -/
def initSteps : Act Unit :=
  (memRead addrDeviceId 2).andThen fun b => fun s =>
    if halfOf b = s.params.deviceId then
      (doReadConfig.andThen fun _ =>
       (doSet .operatingMode s.params.enumMap.continuous.toNat).andThen fun _ =>
       doReadConfig.andThen fun _ => Act.done ()) s
    else Act.fail (.identityMismatch (halfOf b)) s

/-- R93, R97: `Ready` is committed when `init` returns `OK`; any failure leaves the session unusable. -/
def doInit : Act Unit := fun s =>
  match initSteps s with
  | (.ok (), s') => (.ok (), { s' with session := .ready })
  | (.error e, s') => (.error e, { s' with initFailed := true })

/-- R98: the one combined read of all four channels. -/
def doRead : Act ChannelSet :=
  (memRead addrChannels 16).andThen fun b => Act.done (channelsOf b)

/-! ### An invocation -/

/-- The end of a session operation: what it delivers besides its status, its status, and the name the status is
assigned to. -/
def finishCall (st : Name) (r : Except Status (List (Name × Value) × Status) × State) : State :=
  match r with
  | (.ok (as, status), s') => s'.deliver (as ++ [(st, .status status)]) status
  | (.error e, s') => s'.deliver [(st, .status e)] e

/-- R92, R114, R158, R161: an operation turned away makes no access; one that reaches a transport that hangs has no
end; any other runs to its end. -/
def callSession (turnedAway : Option Status) (st : Name) (run : Act (List (Name × Value) × Status)) (s : State) :
    Host.Outcome State Fault Refusal :=
  match turnedAway with
  | some e => .next (s.deliver [(st, .status e)] e)
  | none => if s.hang then .fault .transportHang else .next (finishCall st (run s))

/-- The shape of an operation that delivers its status only. -/
def statusOnly (m : Act Unit) : Act (List (Name × Value) × Status) := m.andThen fun _ => Act.done ([], .ok)

/-- The shape of the ten setters (R101). -/
def callSetter (f : ConfigField) (st : Name) (v : Operand Nat) (s : State) : Host.Outcome State Fault Refusal :=
  withOperand (evalOperand s Value.asField v) fun v => callSession (s.setterTurnsAway f v) st (statusOnly (doSet f v)) s

/-! ### The meanings -/

/-- R93. -/
def execInit (st : Name) (s : State) : Host.Outcome State Fault Refusal :=
  callSession s.initTurnsAway st (statusOnly doInit) s

/-- R98: a CRC mismatch is reported together with the channel set and the flags. -/
def execRead (set ok st : Name) (s : State) : Host.Outcome State Fault Refusal :=
  callSession s.turnsAway st
    (doRead.andThen fun cs =>
      Act.done ([(set, .channelSet cs), (ok, .crcFlags (s.params.crcFlags cs))], crcStatus (s.params.crcFlags cs))) s

/-- R99. -/
def execReadConfig (c st : Name) (s : State) : Host.Outcome State Fault Refusal :=
  callSession s.turnsAway st (doReadConfig.andThen fun cfg => Act.done ([(c, .config cfg)], .ok)) s

/-- R100. -/
def execWriteConfig (st : Name) (s : State) : Host.Outcome State Fault Refusal :=
  callSession s.writeTurnsAway st (statusOnly doWriteConfig) s

/-- R104. -/
def execSetRange (st : Name) (v : Operand Nat) (s : State) : Host.Outcome State Fault Refusal :=
  callSetter .range st v s

/-- R105. -/
def execSetConversionTime (st : Name) (v : Operand Nat) (s : State) : Host.Outcome State Fault Refusal :=
  callSetter .conversionTime st v s

/-- R106. -/
def execSetOperatingMode (st : Name) (v : Operand Nat) (s : State) : Host.Outcome State Fault Refusal :=
  callSetter .operatingMode st v s

/-- R107. -/
def execSetThresholdChannel (st : Name) (v : Operand Nat) (s : State) : Host.Outcome State Fault Refusal :=
  callSetter .thresholdChannelSelect st v s

/-- R108. -/
def execSetFaultCount (st : Name) (v : Operand Nat) (s : State) : Host.Outcome State Fault Refusal :=
  callSetter .faultCount st v s

/-- R109. -/
def execSetQuickWake (st : Name) (v : Operand Nat) (s : State) : Host.Outcome State Fault Refusal :=
  callSetter .quickWake st v s

/-- R110. -/
def execSetIntConfig (st : Name) (v : Operand Nat) (s : State) : Host.Outcome State Fault Refusal :=
  callSetter .interruptConfig st v s

/-- R111. -/
def execSetIntPolarity (st : Name) (v : Operand Nat) (s : State) : Host.Outcome State Fault Refusal :=
  callSetter .interruptPolarity st v s

/-- R112. -/
def execSetIntDirection (st : Name) (v : Operand Nat) (s : State) : Host.Outcome State Fault Refusal :=
  callSetter .interruptDirection st v s

/-- R113. -/
def execSetLatch (st : Name) (v : Operand Nat) (s : State) : Host.Outcome State Fault Refusal :=
  callSetter .latch st v s

end Sys2Proof.Machine
end

