-- ==== Sys2Proof/Machine/RegisterCodec.lean ====
section
/-! DEFINITION. The four operations of the Register Codec (spec rules R70 to R77). They read their operand and the
parameters `CFG_HI_LAYOUT` and `CRC_FN` only, and change nothing but the caller's run (R76). -/

namespace Sys2Proof.Machine

/-- R70. -/
def execPackConfig (dst : Name) (cfg : ConfigOperand) (s : State) : Host.Outcome State Fault Refusal :=
  withOperand (evalConfig s cfg) fun
    | .ok c => .next (s.deliver [(dst, .word (packWord s.params.layout c))] .ok)
    | .error (f, v) => .next (s.deliver [] (.operandOutOfRange f v))

/-- R71. -/
def execUnpackConfig (dst : Name) (w : Operand Word) (s : State) : Host.Outcome State Fault Refusal :=
  withOperand (evalOperand s Value.asWord w) fun w =>
    .next (s.deliver [(dst, .config (unpackWord s.params.layout w))] .ok)

/-- R72. -/
def execUnpackChannel (dst : Name) (w : Operand Word) (s : State) : Host.Outcome State Fault Refusal :=
  withOperand (evalOperand s Value.asWord w) fun w => .next (s.deliver [(dst, .channel (unpackChannelWord w))] .ok)

/-- R73. -/
def execCrcValid (dst : Name) (ch : Operand RawChannel) (s : State) : Host.Outcome State Fault Refusal :=
  withOperand (evalOperand s Value.asChannel ch) fun ch => .next (s.deliver [(dst, .bool (s.params.crcOk ch))] .ok)

end Sys2Proof.Machine
end

