-- ==== Sys2Proof/Machine/Dispatch.lean ====
section
/-! DEFINITION. One arm per row of `opcode_table.json`. -/

namespace Sys2Proof.Machine

def exec (i : Instr) (s : State) : Host.Outcome State Fault Refusal :=
  match i with
  | .packConfig dst cfg => Sys2Proof.Machine.execPackConfig dst cfg s
  | .unpackConfig dst w => Sys2Proof.Machine.execUnpackConfig dst w s
  | .unpackChannel dst w => Sys2Proof.Machine.execUnpackChannel dst w s
  | .crcValid dst ch => Sys2Proof.Machine.execCrcValid dst ch s
  | .reconstruct dst ch => Sys2Proof.Machine.execReconstruct dst ch s
  | .rawToXYZ dst cs => Sys2Proof.Machine.execRawToXYZ dst cs s
  | .xyzToRGB dst c => Sys2Proof.Machine.execXyzToRGB dst c s
  | .linearToSRGB dst c => Sys2Proof.Machine.execLinearToSRGB dst c s
  | .xyzToCCT dst c => Sys2Proof.Machine.execXyzToCCT dst c s
  | .init st => Sys2Proof.Machine.execInit st s
  | .read cs ok st => Sys2Proof.Machine.execRead cs ok st s
  | .readConfig c st => Sys2Proof.Machine.execReadConfig c st s
  | .writeConfig st => Sys2Proof.Machine.execWriteConfig st s
  | .setRange st v => Sys2Proof.Machine.execSetRange st v s
  | .setConversionTime st v => Sys2Proof.Machine.execSetConversionTime st v s
  | .setOperatingMode st v => Sys2Proof.Machine.execSetOperatingMode st v s
  | .setThresholdChannel st v => Sys2Proof.Machine.execSetThresholdChannel st v s
  | .setFaultCount st v => Sys2Proof.Machine.execSetFaultCount st v s
  | .setQuickWake st v => Sys2Proof.Machine.execSetQuickWake st v s
  | .setIntConfig st v => Sys2Proof.Machine.execSetIntConfig st v s
  | .setIntPolarity st v => Sys2Proof.Machine.execSetIntPolarity st v s
  | .setIntDirection st v => Sys2Proof.Machine.execSetIntDirection st v s
  | .setLatch st v => Sys2Proof.Machine.execSetLatch st v s

end Sys2Proof.Machine
end

