-- ==== Sys2Proof/Machine/Step.lean ====
section
/-! DEFINITION. One step: the caller issues the next line of its list and the operation runs to completion (spec
rules R5, R11, R43). -/

namespace Sys2Proof.Machine

/-- R11, R63: the line at the index is issued. An `OPSEL` that selects no operation ends with `IllegalOperation`. -/
def step (s : State) : Host.Outcome State Fault Refusal :=
  if s.stopped then .fault .programStopped
  else
    match s.program[s.index]? with
    | none => .fault .endOfProgram
    | some line =>
      match decode line with
      | .ok i => exec i s
      | .error (.illegalOpsel k) => .next (s.deliver [] (.illegalOperation k))
      | .error e => .refused (.malformedLine e)

/-- Puts a line at an index of the list, with empty lines before it where the list is shorter. -/
def setLine : List (List Byte) → Nat → List Byte → List (List Byte)
  | [], 0, line => [line]
  | _ :: rest, 0, line => line :: rest
  | [], k + 1, line => [] :: setLine [] k line
  | l :: rest, k + 1, line => l :: setLine rest k line

/-- The line of a table word where the next step takes its line from, in a list that has not stopped. -/
def State.withFetchWord (s : State) (nbits w : Nat) : State :=
  { s with program := setLine s.program s.index (tableLine nbits w), stopped := false }

end Sys2Proof.Machine
end

