-- ==== Sys2Proof/Safety.lean ====
section
/-! DEFINITION. What claims say of a run: the status matrix (spec rule R159), the complete list of accesses (R32), and
the invariant of the system (R22, R23, R91, R97). -/

namespace Sys2Proof.Machine

/-- R159: the statuses an operation can end with. -/
def statusAllowed : Instr → Status → Bool
  | .packConfig .., st => st.code == 0 || st.code == 7
  | .unpackConfig .., st => st.code == 0
  | .unpackChannel .., st => st.code == 0
  | .crcValid .., st => st.code == 0
  | .reconstruct .., st => st.code == 0
  | .linearToSRGB .., st => st.code == 0
  | .rawToXYZ .., st => st.code == 0 || st.code == 4
  | .xyzToRGB .., st => st.code == 0 || st.code == 4
  | .xyzToCCT .., st => st.code == 0 || st.code == 4 || st.code == 5
  | .init .., st => st.code == 0 || st.code == 1 || st.code == 2 || st.code == 8
  | .read .., st => st.code == 0 || st.code == 2 || st.code == 3 || st.code == 8
  | .readConfig .., st => st.code == 0 || st.code == 2 || st.code == 8
  | .writeConfig .., st => st.code == 0 || st.code == 2 || st.code == 8
  | .setRange .., st => st.code == 0 || st.code == 2 || st.code == 7 || st.code == 8
  | .setConversionTime .., st => st.code == 0 || st.code == 2 || st.code == 7 || st.code == 8
  | .setOperatingMode .., st => st.code == 0 || st.code == 2 || st.code == 7 || st.code == 8
  | .setThresholdChannel .., st => st.code == 0 || st.code == 2 || st.code == 7 || st.code == 8
  | .setFaultCount .., st => st.code == 0 || st.code == 2 || st.code == 7 || st.code == 8
  | .setQuickWake .., st => st.code == 0 || st.code == 2 || st.code == 7 || st.code == 8
  | .setIntConfig .., st => st.code == 0 || st.code == 2 || st.code == 7 || st.code == 8
  | .setIntPolarity .., st => st.code == 0 || st.code == 2 || st.code == 7 || st.code == 8
  | .setIntDirection .., st => st.code == 0 || st.code == 2 || st.code == 7 || st.code == 8
  | .setLatch .., st => st.code == 0 || st.code == 2 || st.code == 7 || st.code == 8

/-- The macro operations, the only ones that reach the session, the transport and the device (R65, R76, R139). -/
def isMacro : Instr → Bool
  | .packConfig .. => false
  | .unpackConfig .. => false
  | .unpackChannel .. => false
  | .crcValid .. => false
  | .reconstruct .. => false
  | .rawToXYZ .. => false
  | .xyzToRGB .. => false
  | .linearToSRGB .. => false
  | .xyzToCCT .. => false
  | .init .. => true
  | .read .. => true
  | .readConfig .. => true
  | .writeConfig .. => true
  | .setRange .. => true
  | .setConversionTime .. => true
  | .setOperatingMode .. => true
  | .setThresholdChannel .. => true
  | .setFaultCount .. => true
  | .setQuickWake .. => true
  | .setIntConfig .. => true
  | .setIntPolarity .. => true
  | .setIntDirection .. => true
  | .setLatch .. => true

/-- R139: the five operations of the Colour Pipeline. -/
def isColour : Instr → Bool
  | .packConfig .. => false
  | .unpackConfig .. => false
  | .unpackChannel .. => false
  | .crcValid .. => false
  | .reconstruct .. => true
  | .rawToXYZ .. => true
  | .xyzToRGB .. => true
  | .linearToSRGB .. => true
  | .xyzToCCT .. => true
  | .init .. => false
  | .read .. => false
  | .readConfig .. => false
  | .writeConfig .. => false
  | .setRange .. => false
  | .setConversionTime .. => false
  | .setOperatingMode .. => false
  | .setThresholdChannel .. => false
  | .setFaultCount .. => false
  | .setQuickWake .. => false
  | .setIntConfig .. => false
  | .setIntPolarity .. => false
  | .setIntDirection .. => false
  | .setLatch .. => false

/-- R64: the names a line assigns. -/
def destinations : Instr → List Name
  | .packConfig d _ => [d]
  | .unpackConfig d _ => [d]
  | .unpackChannel d _ => [d]
  | .crcValid d _ => [d]
  | .reconstruct d _ => [d]
  | .rawToXYZ d _ => [d]
  | .xyzToRGB d _ => [d]
  | .linearToSRGB d _ => [d]
  | .xyzToCCT d _ => [d]
  | .init st => [st]
  | .read set ok st => [set, ok, st]
  | .readConfig c st => [c, st]
  | .writeConfig st => [st]
  | .setRange st _ => [st]
  | .setConversionTime st _ => [st]
  | .setOperatingMode st _ => [st]
  | .setThresholdChannel st _ => [st]
  | .setFaultCount st _ => [st]
  | .setQuickWake st _ => [st]
  | .setIntConfig st _ => [st]
  | .setIntPolarity st _ => [st]
  | .setIntDirection st _ => [st]
  | .setLatch st _ => [st]

/-- R65: the ten setters with the field each writes. -/
def setters : List (ConfigField × (Name → Operand Nat → Instr)) :=
  [(.range, .setRange), (.conversionTime, .setConversionTime), (.operatingMode, .setOperatingMode),
   (.thresholdChannelSelect, .setThresholdChannel), (.faultCount, .setFaultCount), (.quickWake, .setQuickWake),
   (.interruptConfig, .setIntConfig), (.interruptPolarity, .setIntPolarity),
   (.interruptDirection, .setIntDirection), (.latch, .setLatch)]

/-! R133: the named properties of `POW24`, the only ones a claim may assume, each at the arguments it speaks of. -/

/-- R133, P1. -/
def PowAtOne (p : Params) : Prop := p.pow24 1 = 1

/-- R133, P2, between two arguments. -/
def PowNondecreasing (p : Params) (a b : Rat) : Prop := gammaT < a → a ≤ b → p.pow24 a ≤ p.pow24 b

/-- R133, P3, at an argument: the real power within `EPS_POW`. -/
def PowAccurate (p : Params) (c : Rat) : Prop :=
  gammaT < c →
    |((p.pow24 c : Rat) : ℝ) - (c : ℝ) ^ ((gammaE : Rat) : ℝ)| ≤ ((p.epsPow : Rat) : ℝ) * (c : ℝ) ^ ((gammaE : Rat) : ℝ)

/-- R133, P4, at an argument. -/
def PowPositive (p : Params) (c : Rat) : Prop := gammaT < c → 0 < p.pow24 c

/-- R138: the numbers binary64 can hold. -/
def IsBinary64 (q : Rat) : Prop :=
  ∃ (m e : Int), |m| < 2 ^ 53 ∧ -1074 ≤ e ∧ e ≤ 971 ∧ q = (m : Rat) * (2 : Rat) ^ e

/-- R138: a chromaticity of three binary64 numbers. -/
def ChromaIsBinary64 (t : Chroma) : Prop := IsBinary64 t.x ∧ IsBinary64 t.y ∧ IsBinary64 t.z

/-! What a record of accesses says of the transport (R32 to R34, R152). -/

/-- R33, R34: the register and the direction of an access. -/
def Access.target : Access → RegAddr × Direction
  | .read addr _ _ => (addr, .read)
  | .write addr _ _ => (addr, .write)

/-- R152: the status of an operation that this access ends; `none` when the access succeeded. -/
def Access.failure : Access → Option Status
  | .read _ _ (some _) => none
  | .read addr _ none => some (.transportFailure addr .read)
  | .write _ _ true => none
  | .write addr _ false => some (.transportFailure addr .write)

/-- R9, R116, R152: the first access that fails is the last of its operation and gives the operation's status; where none
fails the status is no `TransportFailure`. -/
def EndsAtFirstFailure : List Access → Status → Prop
  | [], r => r.code ≠ 2
  | a :: l, r =>
    match a.failure with
    | some e => l = [] ∧ r = e
    | none => EndsAtFirstFailure l r

/-- R33, R34: the recorded answer of an access is the one the transport has for it in this state. -/
def Access.answeredBy (s : State) : Access → Prop
  | .read addr n answer => answer = s.readAnswer addr n
  | .write _ _ ok => ok = s.writeAnswer

/-- R24, R34: the device's registers after an access; a failed write leaves its register unknown (log entry 22). -/
def Memory.after (m : List Host.Cell) : Access → List Host.Cell
  | .read _ _ _ => m
  | .write addr payload true => Memory.writeHalf m addr (halfOf payload)
  | .write addr _ false => Memory.forgetHalf m addr

/-- R33, R34: transport and device after an access. -/
def State.afterAccess (s : State) (a : Access) : State :=
  { s.accessed a with device := Memory.after s.device a }

/-- R33, R34: the accesses one after another, each with the answer the transport had for it then. -/
def Answered : State → List Access → Prop
  | _, [] => True
  | s, a :: l => a.answeredBy s ∧ Answered (s.afterAccess a) l

/-- The transport and the device of two states agree (R24, R33, R34, R48). -/
def State.sameTransport (s t : State) : Prop :=
  t.mode = s.mode ∧ t.script = s.script ∧ t.draws = s.draws ∧ t.device = s.device ∧ t.traffic = s.traffic

/-- The invariant of the system. The device's registers keep their canonical form; the caller's names keep theirs;
a ready session has a cached configuration and no failed `init` behind it (R22, R23, R97); a session on which `init`
was never called has an empty cache (R23, R28); and every access made is one of R32's list. -/
def State.Inv (s : State) : Prop :=
  Memory.wf s.device = true
    ∧ risingFrom 0 s.env = true
    ∧ (s.session = .ready → s.cfgCache.isSome = true ∧ s.initFailed = false)
    ∧ (s.session = .uninitialized → s.initFailed = false → s.cfgCache = none)
    ∧ s.traffic.all Access.allowed = true

end Sys2Proof.Machine
end

