-- ==== Sys2Proof/Certificates/Slice0/Obligations.lean ====
section
/-! DEFINITION. The statements for the provers. Each follows the rules of the spec its docstring names; a statement that
rests on a choice of this model says so and names the log entry. -/

namespace Sys2Proof.Machine

/-- The fields that stand in the high half of the configuration word (R15). -/
def highFields : List ConfigField :=
  [.quickWake, .range, .conversionTime, .operatingMode, .latch, .interruptPolarity, .faultCount]

/-- The fields that stand in the low half (R15). -/
def lowFields : List ConfigField := [.thresholdChannelSelect, .interruptDirection, .interruptConfig, .i2cBurst]

/-- The state whose next access gets the second answer: one answer used up. -/
def State.oneAnswerUsed (s : State) : State := { s with script := s.script.drop 1, draws := s.draws + 1 }

/-- The two writes of a configuration word as the transport sees them, bytes cut straight from the word (R37, R38). -/
def configWrites (w : Word) : List Access :=
  [.write 0x0A#8 [w.extractLsb' 24 8, w.extractLsb' 16 8] true,
   .write 0x0B#8 [w.extractLsb' 8 8, w.extractLsb' 0 8] true]

/-- R34, R100, R103, R152: how `i`, which on `s` writes the configuration word `w`, ends when a write fails. One whose first
write fails makes no second, one whose second fails ends there; either way the status is `TransportFailure` of that write,
assigned to `st`, and the session and its cache are those before the call. Every byte reads as before but those of a register
written, and those of the register whose write failed, which are unknown. -/
def FailedWriteEnds (i : Instr) (s : State) (st : Name) (w : Word) : Prop :=
  (s.writeAnswer = false → ∃ dev, exec i s = .next (State.deliver
      { s with script := s.script.drop 1, draws := s.draws + 1, device := dev
               traffic := s.traffic ++ [.write 0x0A#8 [w.extractLsb' 24 8, w.extractLsb' 16 8] false] }
      [(st, .status (.transportFailure 0x0A#8 .write))] (.transportFailure 0x0A#8 .write))
    ∧ (Memory.wf s.device = true → Memory.readByte dev 20 = none ∧ Memory.readByte dev 21 = none)
    ∧ ∀ a, a ∉ [20, 21] → Memory.readByte dev a = Memory.readByte s.device a) ∧
  (s.writeAnswer = true → s.oneAnswerUsed.writeAnswer = false →
    ∃ dev, exec i s = .next (State.deliver
      { s with script := s.script.drop 2, draws := s.draws + 2, device := dev
               traffic := s.traffic ++ [.write 0x0A#8 [w.extractLsb' 24 8, w.extractLsb' 16 8] true,
                 .write 0x0B#8 [w.extractLsb' 8 8, w.extractLsb' 0 8] false] }
      [(st, .status (.transportFailure 0x0B#8 .write))] (.transportFailure 0x0B#8 .write))
    ∧ Memory.readByte dev 20 = some (w.extractLsb' 24 8) ∧ Memory.readByte dev 21 = some (w.extractLsb' 16 8)
    ∧ (Memory.wf s.device = true → Memory.readByte dev 22 = none ∧ Memory.readByte dev 23 = none)
    ∧ ∀ a, a ∉ [20, 21, 22, 23] → Memory.readByte dev a = Memory.readByte s.device a)

/-- The session, the transport and the device of two states agree (R22, R23, R24, R48), and so do the parameters. -/
def State.sameSystem (s t : State) : Prop :=
  t.params = s.params ∧ t.session = s.session ∧ t.initFailed = s.initFailed ∧ t.cfgCache = s.cfgCache
    ∧ t.device = s.device ∧ t.mode = s.mode ∧ t.script = s.script ∧ t.hang = s.hang ∧ t.draws = s.draws
    ∧ t.traffic = s.traffic

/-- The value of a channel as a number, straight from its two fields (R120). -/
def RawChannelNumber (ch : RawChannel) : Rat := (ch.mantissa.toNat : Rat) * 2 ^ ch.exponent.toNat

/-- R6, R137: `q` is within `TOL_E2E = 0.1 %` of `e`. -/
def WithinE2E (q e : ℝ) : Prop := |q - e| ≤ |e| / 1000

/-- R137, R138: `q` is a binary64 number, when some binary64 number is within `TOL_E2E` of `e`. -/
def Holds64 (e : ℝ) (q : Rat) : Prop := (∃ b : Rat, IsBinary64 b ∧ WithinE2E b e) → IsBinary64 q

/-- R130: `f` is the transfer function over the reals, with an exact `POW24`. -/
def IsSRGB (f : Rat → ℝ) : Prop :=
  (∀ c : Rat, c ≤ 0.0031308 → f c = 12.92 * c) ∧
  (∀ c : Rat, 0.0031308 < c → f c = 1.055 * (c : ℝ) ^ ((5 : ℝ) / 12) - 0.055)

/-- R128: a row of the matrix times the chromaticity. -/
def RowDot (r : Row3) (g : Chroma) : Rat := r.c0 * g.x + r.c1 * g.y + r.c2 * g.z

/-- R128, R137: the three numbers of `t` are near those the chromaticity `g` has through `f`. -/
def RGBWithin (f : Rat → ℝ) (m : Mat3) (g : Chroma) (t : RGBColor) : Prop :=
  WithinE2E t.r (f (RowDot m.r0 g)) ∧ WithinE2E t.g (f (RowDot m.r1 g)) ∧ WithinE2E t.b (f (RowDot m.r2 g))

/-- R128, R138: the same, products and sums rounded left to right. -/
def RowDot64 (r : Row3) (g : Chroma) : Binary64 :=
  add64 (add64 (mul64 (round64 r.c0) (round64 g.x)) (mul64 (round64 r.c1) (round64 g.y)))
    (mul64 (round64 r.c2) (round64 g.z))

/-- R123, R138: four products and their sum, rounded left to right. -/
def VectorDot64 (v w : Row4) : Binary64 :=
  add64 (add64 (add64 (mul64 (round64 v.c0) (round64 w.c0)) (mul64 (round64 v.c1) (round64 w.c1)))
    (mul64 (round64 v.c2) (round64 w.c2))) (mul64 (round64 v.c3) (round64 w.c3))

/-- R135: the colour temperature of a chromaticity whose `y` is not `0.1858`. -/
def CCTNumber (g : Chroma) : Rat :=
  437 * ((g.x - 0.3320) / (0.1858 - g.y)) ^ 3 + 3601 * ((g.x - 0.3320) / (0.1858 - g.y)) ^ 2
    + 6861 * ((g.x - 0.3320) / (0.1858 - g.y)) + 5517

/-- R135, R138: the denominator, rounded. -/
def CCTDen64 (g : Chroma) : Binary64 := sub64 (round64 0.1858) (round64 g.y)

/-- R135, R138: the polynomial of `n`, products and sums rounded left to right. -/
def CCTPoly64 (n : Binary64) : Binary64 :=
  add64 (add64 (add64 (mul64 (mul64 (mul64 (round64 437) n) n) n) (mul64 (mul64 (round64 3601) n) n))
    (mul64 (round64 6861) n)) (round64 5517)

/-- R135, R138: the colour temperature as binary64 computes it. -/
def CCT64 (g : Chroma) : Binary64 := CCTPoly64 (div64 (sub64 (round64 g.x) (round64 0.3320)) (CCTDen64 g))

/-- R136: where a chromaticity has a colour temperature in a domain other than `EXACT`: under `BINARY64` where its
denominator is not zero and its result is finite (operands rounded when read: log entry 18), under `FIXED` off the line
`y = 0.1858` (log entry 15). -/
def HasCCT (num : NumDomain) (g : Chroma) : Prop :=
  (num = .binary64 ∧ CCTDen64 g ≠ .finite 0 ∧ ∃ q, CCT64 g = .finite q) ∨ (num ≠ .binary64 ∧ g.y ≠ 0.1858)

end Sys2Proof.Machine

open Sys2Proof Sys2Proof.Machine

/-! ### Encoding -/

/-- A line of words the spec writes out decodes to the invocation they stand for (R51, R54, R62, R70, R72): PROG1
line 0, the all-fields-at-maximum word, the channel words of R72 and PROG2, the 16 bytes of R98's worked example.
The selector and name bytes are this model's own (log entries 3 and 4). -/
def Obligations.DecodesWrittenOutWords : Prop :=
  decode [0x00, 7, 0, 0x32, 0x38, 0x80, 0x11]
      = .ok (.packConfig 7 (.image ⟨0, 12, 8, 3, 1, 0, 0, 1, 0, 0, 1⟩)) ∧
  decode [0x00, 7, 0, 0xBF, 0xFF, 0x80, 0x7D]
      = .ok (.packConfig 7 (.image ⟨1, 15, 15, 3, 1, 3, 1, 1, 3, 3, 1⟩)) ∧
  decode [0x01, 1, 0, 0x72, 0xB8, 0xFF, 0x93] = .ok (.unpackConfig 1 (.lit 0x72B8FF93#32)) ∧
  decode [0x02, 2, 0, 0x12, 0x34, 0x56, 0x78] = .ok (.unpackChannel 2 (.lit 0x12345678#32)) ∧
  decode [0x03, 3, 0, 0x12, 0x34, 0x56, 0x78] = .ok (.crcValid 3 (.lit ⟨1, 0x23456, 7, 8⟩)) ∧
  decode [0x05, 4, 0, 0, 0x12, 0x34, 0x56, 0x78, 0, 0x00, 0x00, 0x01, 0x00, 0, 0xFF, 0xFF, 0xFF, 0xFF,
      0, 0x80, 0x00, 0x01, 0x00]
      = .ok (.rawToXYZ 4 (.record (.lit ⟨1, 0x23456, 7, 8⟩) (.lit ⟨0, 1, 0, 0⟩) (.lit ⟨15, 0xFFFFF, 15, 15⟩)
          (.lit ⟨8, 1, 0, 0⟩))) ∧
  decode [0x14, 9, 0, 5] = .ok (.setRange 9 (.lit 5))

/-- Every well-formed invocation is what the decoder reads from its line, with every operand at every value the line
encoding admits. The line encoding is this model's own (log entries 3 and 4); the word operands in it follow R51 and
R54. -/
def Obligations.DecodeOfEncodeIsTheInstruction : Prop :=
  ∀ i : Instr, i.wf = true → decode (encode i) = .ok i

/-- R63: an `OPSEL` from 0x9 to 0xF, whatever follows it, ends with `IllegalOperation`, assigns nothing and changes
nothing of the session, the transport, the device or the parameters. -/
def Obligations.ReservedOpselIsIllegalOperation : Prop :=
  ∀ (s : State) (k : Nat) (rest : List Byte), 0x9 ≤ k → k ≤ 0xF → s.stopped = false →
    s.program[s.index]? = some (BitVec.ofNat 8 k :: rest) →
    ∃ t, step s = .next t ∧ t.statuses = s.statuses ++ [.illegalOperation k] ∧ t.env = s.env ∧ s.sameSystem t

/-- R5, R11: when the line at the index decodes to an instruction, a step is `exec` of it. -/
def Obligations.StepRunsTheDecodedLine : Prop :=
  ∀ (s : State) (line : List Byte) (i : Instr), s.stopped = false → s.program[s.index]? = some line →
    decode line = .ok i → step s = exec i s

/-! ### The Register Codec -/

/-- R51, R70: under layout B `packConfig` delivers the word of the pattern `q0rrrrccccmmlpff 100000000ttdii0b`, given here
slice by slice (`extractLsb' lo width`), for every form of its operand that denotes a configuration, and changes nothing
but the caller's run. -/
def Obligations.PackConfigProducesLayoutB : Prop :=
  ∀ (d : Name) (o : ConfigOperand) (c : DeviceConfiguration) (s : State),
    s.params.layout = .B → evalConfig s o = .ok (.ok c) →
    ∃ w : Word, exec (.packConfig d o) s = .next (s.deliver [(d, .word w)] .ok)
      ∧ w.extractLsb' 31 1 = c.quickWake ∧ w.extractLsb' 30 1 = 0#1 ∧ w.extractLsb' 26 4 = c.range
      ∧ w.extractLsb' 22 4 = c.conversionTime ∧ w.extractLsb' 20 2 = c.operatingMode ∧ w.extractLsb' 19 1 = c.latch
      ∧ w.extractLsb' 18 1 = c.interruptPolarity ∧ w.extractLsb' 16 2 = c.faultCount
      ∧ w.extractLsb' 15 1 = 1#1 ∧ w.extractLsb' 7 8 = 0#8
      ∧ w.extractLsb' 5 2 = c.thresholdChannelSelect ∧ w.extractLsb' 4 1 = c.interruptDirection
      ∧ w.extractLsb' 2 2 = c.interruptConfig ∧ w.extractLsb' 1 1 = 0#1 ∧ w.extractLsb' 0 1 = c.i2cBurst

/-- R52, R70: the same under layout A, pattern `qrrrrccccmmlp0ff 100000000ttdii0b`. -/
def Obligations.PackConfigProducesLayoutA : Prop :=
  ∀ (d : Name) (o : ConfigOperand) (c : DeviceConfiguration) (s : State),
    s.params.layout = .A → evalConfig s o = .ok (.ok c) →
    ∃ w : Word, exec (.packConfig d o) s = .next (s.deliver [(d, .word w)] .ok)
      ∧ w.extractLsb' 31 1 = c.quickWake ∧ w.extractLsb' 27 4 = c.range ∧ w.extractLsb' 23 4 = c.conversionTime
      ∧ w.extractLsb' 21 2 = c.operatingMode ∧ w.extractLsb' 20 1 = c.latch
      ∧ w.extractLsb' 19 1 = c.interruptPolarity ∧ w.extractLsb' 18 1 = 0#1 ∧ w.extractLsb' 16 2 = c.faultCount
      ∧ w.extractLsb' 15 1 = 1#1 ∧ w.extractLsb' 7 8 = 0#8
      ∧ w.extractLsb' 5 2 = c.thresholdChannelSelect ∧ w.extractLsb' 4 1 = c.interruptDirection
      ∧ w.extractLsb' 2 2 = c.interruptConfig ∧ w.extractLsb' 1 1 = 0#1 ∧ w.extractLsb' 0 1 = c.i2cBurst

/-- R70, R157, R161: a record literal all of whose values fit denotes the configuration with those numbers; one with a
value of `2^width` or more ends `packConfig` with `OperandOutOfRange` of the first field, in the order of R70's
pseudocode, that does not fit, and no word. -/
def Obligations.RecordLiteralFitsOrIsOutOfRange : Prop :=
  ∀ (r : ConfigRecord) (d : Name) (s : State) (l : List (ConfigField × Nat)),
    l = [(.quickWake, r.quickWake), (.range, r.range), (.conversionTime, r.conversionTime),
      (.operatingMode, r.operatingMode), (.latch, r.latch), (.interruptPolarity, r.interruptPolarity),
      (.faultCount, r.faultCount), (.thresholdChannelSelect, r.thresholdChannelSelect),
      (.interruptDirection, r.interruptDirection), (.interruptConfig, r.interruptConfig), (.i2cBurst, r.i2cBurst)] →
    ((∀ e ∈ l, e.2 < 2 ^ e.1.width) →
      ∃ c, evalConfig s (.record r) = .ok (.ok c) ∧ ∀ f, (f, c.get f) ∈ l) ∧
    (∀ before f v after, l = before ++ (f, v) :: after → (∀ e ∈ before, e.2 < 2 ^ e.1.width) → 2 ^ f.width ≤ v →
      exec (.packConfig d (.record r)) s = .next (s.deliver [] (.operandOutOfRange f v)))

/-- R51, R71: under layout B `unpackConfig` delivers the eleven slices of any word. -/
def Obligations.UnpackConfigReadsLayoutB : Prop :=
  ∀ (d : Name) (o : Operand Word) (w : Word) (s : State),
    s.params.layout = .B → evalOperand s Value.asWord o = .ok w →
    exec (.unpackConfig d o) s = .next (s.deliver [(d, .config
      { quickWake := w.extractLsb 31 31, range := w.extractLsb 29 26, conversionTime := w.extractLsb 25 22
        operatingMode := w.extractLsb 21 20, latch := w.extractLsb 19 19, interruptPolarity := w.extractLsb 18 18
        faultCount := w.extractLsb 17 16, thresholdChannelSelect := w.extractLsb 6 5
        interruptDirection := w.extractLsb 4 4, interruptConfig := w.extractLsb 3 2, i2cBurst := w.extractLsb 0 0 })]
      .ok)

/-- R52, R71: the same under layout A. -/
def Obligations.UnpackConfigReadsLayoutA : Prop :=
  ∀ (d : Name) (o : Operand Word) (w : Word) (s : State),
    s.params.layout = .A → evalOperand s Value.asWord o = .ok w →
    exec (.unpackConfig d o) s = .next (s.deliver [(d, .config
      { quickWake := w.extractLsb 31 31, range := w.extractLsb 30 27, conversionTime := w.extractLsb 26 23
        operatingMode := w.extractLsb 22 21, latch := w.extractLsb 20 20, interruptPolarity := w.extractLsb 19 19
        faultCount := w.extractLsb 17 16, thresholdChannelSelect := w.extractLsb 6 5
        interruptDirection := w.extractLsb 4 4, interruptConfig := w.extractLsb 3 2, i2cBurst := w.extractLsb 0 0 })]
      .ok)

/-- R74, TP1: what `packConfig` assigned to a name, `unpackConfig` of that name gives back, under either layout. -/
def Obligations.UnpackOfPackIsTheConfiguration : Prop :=
  ∀ (d e : Name) (o : ConfigOperand) (c : DeviceConfiguration) (s t : State),
    evalConfig s o = .ok (.ok c) → exec (.packConfig d o) s = .next t →
    exec (.unpackConfig e (.var d)) t = .next (t.deliver [(e, .config c)] .ok)

/-- R60, R74: packing what was unpacked clears the reserved bits and sets the fixed one, and gives the word back exactly
when it had them so. -/
def Obligations.PackOfUnpackCorrectsReservedBits : Prop :=
  ∀ (w : Word),
    packWord .B (unpackWord .B w) = (w &&& ~~~0x4000FF82#32) ||| 0x00008000#32 ∧
    packWord .A (unpackWord .A w) = (w &&& ~~~0x0004FF82#32) ||| 0x00008000#32 ∧
    (packWord .B (unpackWord .B w) = w ↔ w &&& 0x4000FF82#32 = 0x00008000#32) ∧
    (packWord .A (unpackWord .A w) = w ↔ w &&& 0x0004FF82#32 = 0x00008000#32)

/-- R59: under either layout every word `packConfig` delivers has bit 15 set and every reserved bit clear; and
`unpackConfig` ends with `OK` on every word and delivers the same for two words that differ only in reserved and fixed
bits, the word with those bits corrected among them. -/
def Obligations.ReservedBitsPackFixedAndUnpackIgnored : Prop :=
  ∀ (s : State) (M : Word), (s.params.layout = .B ∧ M = 0x4000FF82#32) ∨ (s.params.layout = .A ∧ M = 0x0004FF82#32) →
    (∀ (d : Name) (o : ConfigOperand) (c : DeviceConfiguration), evalConfig s o = .ok (.ok c) →
      ∃ w : Word, exec (.packConfig d o) s = .next (s.deliver [(d, .word w)] .ok) ∧ w &&& M = 0x00008000#32) ∧
    (∀ (d : Name) (w w' : Word), w &&& ~~~M = w' &&& ~~~M →
      ∃ c, exec (.unpackConfig d (.lit w)) s = .next (s.deliver [(d, .config c)] .ok)
        ∧ exec (.unpackConfig d (.lit w')) s = .next (s.deliver [(d, .config c)] .ok)) ∧
    (∀ w : Word, ((w &&& ~~~M) ||| 0x00008000#32) &&& M = 0x00008000#32
      ∧ ((w &&& ~~~M) ||| 0x00008000#32) &&& ~~~M = w &&& ~~~M)

/-- R54, R57, R72: `unpackChannel` delivers the four slices of any word, the mantissa as the single slice 27:8. -/
def Obligations.UnpackChannelReadsTheFourFields : Prop :=
  ∀ (d : Name) (o : Operand Word) (w : Word) (s : State), evalOperand s Value.asWord o = .ok w →
    exec (.unpackChannel d o) s = .next (s.deliver [(d, .channel
      ⟨w.extractLsb 31 28, w.extractLsb 27 8, w.extractLsb 7 4, w.extractLsb 3 0⟩)] .ok)

/-- R56: RawChannel and `CH32` correspond one to one, by the bitwise or of the
shifted fields and back by the slices. -/
def Obligations.ChannelWordIsABijection : Prop :=
  (∀ ch : RawChannel, (channelWord ch).toNat
    = ch.exponent.toNat <<< 28 ||| ch.mantissa.toNat <<< 8 ||| ch.counter.toNat <<< 4 ||| ch.crc.toNat) ∧
  (∀ w : Word, unpackChannelWord w
    = ⟨w.extractLsb 31 28, w.extractLsb 27 8, w.extractLsb 7 4, w.extractLsb 3 0⟩) ∧
  (∀ ch : RawChannel, unpackChannelWord (channelWord ch) = ch) ∧
  (∀ w : Word, channelWord (unpackChannelWord w) = w)

/-- R73, R75: `crcValid` is true of every channel under `CRC_STUB`; under `some(F)` it is whether `F` of exponent, mantissa
and counter equals the `crc` field; and under `CRC_OPT4048_GK`, which the spec marks as general knowledge (log entry 1),
the four bits of `F` are the parities R75 lists. It raises nothing. -/
def Obligations.CrcValidComparesOrAccepts : Prop :=
  ∀ (d : Name) (o : Operand RawChannel) (ch : RawChannel) (s : State) (E R C : Nat → Bool),
    evalOperand s Value.asChannel o = .ok ch →
    E = ch.exponent.getLsbD → R = ch.mantissa.getLsbD → C = ch.counter.getLsbD →
    (s.params.crcFn = none → exec (.crcValid d o) s = .next (s.deliver [(d, .bool true)] .ok)) ∧
    (∀ f, s.params.crcFn = some f → exec (.crcValid d o) s
      = .next (s.deliver [(d, .bool (f.apply ch.exponent ch.mantissa ch.counter == ch.crc))] .ok)) ∧
    (s.params.crcFn = some .opt4048 → ∃ X : BitVec 4,
      exec (.crcValid d o) s = .next (s.deliver [(d, .bool (X == ch.crc))] .ok)
      ∧ X.getLsbD 0 = (E 0 ^^ E 1 ^^ E 2 ^^ E 3 ^^ R 0 ^^ R 1 ^^ R 2 ^^ R 3 ^^ R 4 ^^ R 5 ^^ R 6 ^^ R 7 ^^ R 8 ^^ R 9
          ^^ R 10 ^^ R 11 ^^ R 12 ^^ R 13 ^^ R 14 ^^ R 15 ^^ R 16 ^^ R 17 ^^ R 18 ^^ R 19 ^^ C 0 ^^ C 1 ^^ C 2 ^^ C 3)
      ∧ X.getLsbD 1 = (C 1 ^^ C 3 ^^ R 1 ^^ R 3 ^^ R 5 ^^ R 7 ^^ R 9 ^^ R 11 ^^ R 13 ^^ R 15 ^^ R 17 ^^ R 19 ^^ E 1 ^^ E 3)
      ∧ X.getLsbD 2 = (C 3 ^^ R 3 ^^ R 7 ^^ R 11 ^^ R 15 ^^ R 19 ^^ E 3)
      ∧ X.getLsbD 3 = (R 3 ^^ R 11 ^^ R 19))

/-! ### The Colour Pipeline -/

/-- R120, R121: `reconstruct` delivers `mantissa × 2^exponent`, nothing lost: at most `(2^20 - 1) × 2^15 < 2^35`, inside the
36 bits of the delivered integer, and converted to binary64 exactly. -/
def Obligations.ReconstructNeverOverflows : Prop :=
  ∀ (d : Name) (o : Operand RawChannel) (ch : RawChannel) (s : State),
    evalOperand s Value.asChannel o = .ok ch →
    ∃ v : Wide, exec (.reconstruct d o) s = .next (s.deliver [(d, .wide v)] .ok)
      ∧ v.toNat = ch.mantissa.toNat * 2 ^ ch.exponent.toNat ∧ v.toNat ≤ (2 ^ 20 - 1) * 2 ^ 15 ∧ v.toNat < 2 ^ 35
      ∧ round64 v.toNat = .finite v.toNat

/-- R123, R124 under `EXACT`: outputs are indexed by the columns of `M_CAL`, channels by its rows; when the sum is not
zero the chromaticity is the three quotients. -/
def Obligations.RawToXYZExactNumbers : Prop :=
  ∀ (d : Name) (o : SetOperand) (cs : ChannelSet) (s : State) (v0 v1 v2 v3 X Y Z l : Rat),
    s.params.num = .exact → evalSet s o = .ok cs →
    v0 = RawChannelNumber cs.ch0 → v1 = RawChannelNumber cs.ch1 → v2 = RawChannelNumber cs.ch2 →
    v3 = RawChannelNumber cs.ch3 →
    X = v0 * s.params.mCal.r0.c0 + v1 * s.params.mCal.r1.c0 + v2 * s.params.mCal.r2.c0 + v3 * s.params.mCal.r3.c0 →
    Y = v0 * s.params.mCal.r0.c1 + v1 * s.params.mCal.r1.c1 + v2 * s.params.mCal.r2.c1 + v3 * s.params.mCal.r3.c1 →
    Z = v0 * s.params.mCal.r0.c2 + v1 * s.params.mCal.r1.c2 + v2 * s.params.mCal.r2.c2 + v3 * s.params.mCal.r3.c2 →
    l = v0 * s.params.mCal.r0.c3 + v1 * s.params.mCal.r1.c3 + v2 * s.params.mCal.r2.c3 + v3 * s.params.mCal.r3.c3 →
    (X + Y + Z ≠ 0 → exec (.rawToXYZ d o) s = .next (s.deliver [(d, .xyz
      ⟨X, Y, Z, l, some ⟨X / (X + Y + Z), Y / (X + Y + Z), Z / (X + Y + Z)⟩⟩)] .ok)) ∧
    (X + Y + Z = 0 → exec (.rawToXYZ d o) s = .next (s.deliver [(d, .xyz ⟨X, Y, Z, l, none⟩)] .undefinedChromaticity))

/-- R127: the chromaticity coordinates a `rawToXYZ` delivers sum to one, exactly under `EXACT` and within `TOL_SUM`
under `BINARY64` and `FIXED`. -/
def Obligations.ChromaticitySumsToOne : Prop :=
  ∀ (d : Name) (o : SetOperand) (s t : State) (c : XYZColor) (h : Chroma),
    exec (.rawToXYZ d o) s = .next t → lookup t.env d = some (.xyz c) → c.chroma = some h →
    (s.params.num = .exact → h.x + h.y + h.z = 1) ∧
    (s.params.num ≠ .exact → |h.x + h.y + h.z - 1| ≤ 1 / 10 ^ 9)

/-- R125 under `M_CAL_GK`, which the spec marks as general knowledge: the sum is zero exactly when the first three
channels are zero, positive otherwise, and channel 3 has no influence on any output. -/
def Obligations.CalibrationMatrixGKSums : Prop :=
  ∀ (v : Row4), 0 ≤ v.c0 → 0 ≤ v.c1 → 0 ≤ v.c2 →
    ((rawToXYZExact mCalGK v).X + (rawToXYZExact mCalGK v).Y + (rawToXYZExact mCalGK v).Z = 0
      ↔ v.c0 = 0 ∧ v.c1 = 0 ∧ v.c2 = 0) ∧
    0 ≤ (rawToXYZExact mCalGK v).X + (rawToXYZExact mCalGK v).Y + (rawToXYZExact mCalGK v).Z ∧
    (∀ u, rawToXYZExact mCalGK { v with c3 := u } = rawToXYZExact mCalGK v)

/-- R128, R130 under `EXACT`: three matrix rows times the chromaticity column, each through the transfer function, not
clamped. `X`, `Y`, `Z` and `l` do not enter. -/
def Obligations.XyzToRGBExactNumbers : Prop :=
  ∀ (d : Name) (o : Operand XYZColor) (c : XYZColor) (h : Chroma) (s : State) (f : Rat → Rat),
    s.params.num = .exact → evalOperand s Value.asXYZ o = .ok c → c.chroma = some h →
    (∀ q : Rat, q ≤ 0.0031308 → f q = 12.92 * q) → (∀ q : Rat, 0.0031308 < q → f q = 1.055 * s.params.pow24 q - 0.055) →
    exec (.xyzToRGB d o) s = .next (s.deliver [(d, .rgb
      { r := f (s.params.mRgb.r0.c0 * h.x + s.params.mRgb.r0.c1 * h.y + s.params.mRgb.r0.c2 * h.z)
        g := f (s.params.mRgb.r1.c0 * h.x + s.params.mRgb.r1.c1 * h.y + s.params.mRgb.r1.c2 * h.z)
        b := f (s.params.mRgb.r2.c0 * h.x + s.params.mRgb.r2.c1 * h.y + s.params.mRgb.r2.c2 * h.z) })] .ok)

/-- R130 under `EXACT`: the two branches of the transfer function, the threshold itself on the linear one. -/
def Obligations.LinearToSRGBTakesItsTwoBranches : Prop :=
  ∀ (d : Name) (o : Operand Rat) (c : Rat) (s : State),
    s.params.num = .exact → evalOperand s Value.asNum o = .ok c →
    (c ≤ 0.0031308 → exec (.linearToSRGB d o) s = .next (s.deliver [(d, .num (12.92 * c))] .ok)) ∧
    (0.0031308 < c → exec (.linearToSRGB d o) s
      = .next (s.deliver [(d, .num (1.055 * s.params.pow24 c - 0.055))] .ok))

/-- R119, R130, R131 under `EXACT`, for every `POW24` with the properties P1 and P2 of R133: nothing is clamped. A
negative argument gives `12.92 c`, negative; one gives one; an argument above one gives `1.055 POW24(c) - 0.055`, which
is not below one, and above one when `POW24(c)` is. -/
def Obligations.TransferFunctionDoesNotClamp : Prop :=
  ∀ (d : Name) (c : Rat) (s : State), s.params.num = .exact → PowAtOne s.params → PowNondecreasing s.params 1 c →
    ∃ q : Rat, exec (.linearToSRGB d (.lit c)) s = .next (s.deliver [(d, .num q)] .ok)
      ∧ (c < 0 → q = 12.92 * c ∧ q < 0) ∧ (c = 1 → q = 1)
      ∧ (1 < c → q = 1.055 * s.params.pow24 c - 0.055 ∧ 1 ≤ q ∧ (1 < s.params.pow24 c → 1 < q))

/-- R130, R133 under `EXACT`, for every `POW24` with property P3 at the argument: above the threshold the number
delivered differs from the real transfer function by at most `1.055 × EPS_POW × c^(5/12)`. -/
def Obligations.TransferFunctionIsAccurate : Prop :=
  ∀ (d : Name) (c : Rat) (s : State), s.params.num = .exact → 0.0031308 < c → PowAccurate s.params c →
    ∃ q : Rat, exec (.linearToSRGB d (.lit c)) s = .next (s.deliver [(d, .num q)] .ok)
      ∧ |(q : ℝ) - (1.055 * (c : ℝ) ^ ((5 : ℝ) / 12) - 0.055)|
          ≤ 1.055 * (s.params.epsPow : ℝ) * (c : ℝ) ^ ((5 : ℝ) / 12)

/-- R135, R136 under `EXACT`: the cubic polynomial of `n = (x - 0.3320) / (0.1858 - y)` when `y` is not `0.1858`. And in
every number domain `z` does not enter, nor do `X`, `Y`, `Z` and `l`. -/
def Obligations.XyzToCCTExactPolynomial : Prop :=
  (∀ (d : Name) (o : Operand XYZColor) (c : XYZColor) (h : Chroma) (s : State) (n : Rat),
    s.params.num = .exact → evalOperand s Value.asXYZ o = .ok c → c.chroma = some h → h.y ≠ 0.1858 →
    n = (h.x - 0.3320) / (0.1858 - h.y) →
    exec (.xyzToCCT d o) s
      = .next (s.deliver [(d, .num (437 * n ^ 3 + 3601 * n ^ 2 + 6861 * n + 5517))] .ok)) ∧
  (∀ (d : Name) (o o' : Operand XYZColor) (c c' : XYZColor) (h h' : Chroma) (s : State),
    evalOperand s Value.asXYZ o = .ok c → evalOperand s Value.asXYZ o' = .ok c' →
    c.chroma = some h → c'.chroma = some h' → h.x = h'.x → h.y = h'.y →
    exec (.xyzToCCT d o) s = exec (.xyzToCCT d o') s)

/-- R136, R138, R155: `xyzToCCT` ends with `UndefinedCCT` and delivers no number when `0.1858 - y` is zero, in every number
domain and under `BINARY64` as a binary64 comparison, and under `BINARY64` when the result is not finite. What `BINARY64`
computes is R138's arithmetic; that an operand that is no binary64 number is rounded when it is read is log entry 18
(PRESUMED). -/
def Obligations.CCTUndefinedOnTheLine : Prop :=
  ∀ (d : Name) (o : Operand XYZColor) (c : XYZColor) (h : Chroma) (s : State),
    evalOperand s Value.asXYZ o = .ok c → c.chroma = some h →
    (h.y = 0.1858 → exec (.xyzToCCT d o) s = .next (s.deliver [] .undefinedCCT)) ∧
    (s.params.num = .binary64 → CCTDen64 h = .finite 0 → exec (.xyzToCCT d o) s = .next (s.deliver [] .undefinedCCT)) ∧
    (s.params.num = .binary64 → (∀ q, CCT64 h ≠ .finite q) →
      exec (.xyzToCCT d o) s = .next (s.deliver [] .undefinedCCT))

/-- R126, R138, R154: `rawToXYZ` ends with `UndefinedChromaticity` exactly when it delivers a colour without chromaticity,
which is when the sum of the delivered `X`, `Y`, `Z` is zero, a binary64 sum under `BINARY64`; and on a colour without
chromaticity `xyzToRGB` and `xyzToCCT` end with `UndefinedChromaticity` and deliver no number, in every number domain. That
`FIXED` compares the sum of the delivered numbers with zero exactly is log entry 15 (DESIGN CHOICE); that `BINARY64` sums
the delivered numbers, each rounded when read, is log entries 16 (DESIGN CHOICE) and 18 (PRESUMED). -/
def Obligations.NoChromaticityNoNumber : Prop :=
  (∀ (d : Name) (o : SetOperand) (cs : ChannelSet) (s : State), evalSet s o = .ok cs →
    ∃ (c : XYZColor) (r : Status), exec (.rawToXYZ d o) s = .next (s.deliver [(d, .xyz c)] r)
      ∧ (r = .ok ∨ r = .undefinedChromaticity) ∧ (r = .undefinedChromaticity ↔ c.chroma = none)
      ∧ (s.params.num ≠ .binary64 → (c.chroma = none ↔ c.X + c.Y + c.Z = 0))
      ∧ (s.params.num = .binary64 →
          (c.chroma = none ↔ add64 (add64 (round64 c.X) (round64 c.Y)) (round64 c.Z) = .finite 0))) ∧
  (∀ (d : Name) (o : Operand XYZColor) (c : XYZColor) (s : State),
    evalOperand s Value.asXYZ o = .ok c → c.chroma = none →
    exec (.xyzToRGB d o) s = .next (s.deliver [] .undefinedChromaticity) ∧
    exec (.xyzToCCT d o) s = .next (s.deliver [] .undefinedChromaticity))

/-- R137, TP5: when `rawToXYZ` ends with `UndefinedChromaticity`, the name it assigned makes `xyzToRGB` and `xyzToCCT`
end with `UndefinedChromaticity` too, and neither assigns anything. -/
def Obligations.UndefinedChromaticityPropagates : Prop :=
  ∀ (d e : Name) (o : SetOperand) (s t : State),
    exec (.rawToXYZ d o) s = .next t → t.statuses = s.statuses ++ [.undefinedChromaticity] →
    exec (.xyzToRGB e (.var d)) t = .next (t.deliver [] .undefinedChromaticity) ∧
    exec (.xyzToCCT e (.var d)) t = .next (t.deliver [] .undefinedChromaticity)

/-- R137 under `BINARY64` and `FIXED`: every number the four operations deliver is within 0.1 % of the exact result with
an exact `POW24`, operation by operation; and on the name a `rawToXYZ` assigned, `xyzToRGB` and `xyzToCCT` deliver
numbers within 0.1 % of what the exact chromaticity of the channel set has. `xyzToCCT` delivers a number, and ends with
`OK`, exactly where the chromaticity it reads has a temperature (`HasCCT`, R136), and ends with `UndefinedCCT` elsewhere.
Which conforming number it is, is free (log entries 15 and 16); where `HasCCT` stands is log entries 15 and 18. -/
def Obligations.NonExactNumbersStayWithinTolerance : Prop :=
  ∀ (d k : Name) (s : State) (f : Rat → ℝ), s.params.num ≠ .exact → IsSRGB f →
    (∀ o c, evalOperand s Value.asNum o = .ok c →
      ∃ q, exec (.linearToSRGB d o) s = .next (s.deliver [(d, .num q)] .ok) ∧ WithinE2E q (f c)) ∧
    (∀ o c h, evalOperand s Value.asXYZ o = .ok c → c.chroma = some h →
      (∃ t, exec (.xyzToRGB d o) s = .next (s.deliver [(d, .rgb t)] .ok) ∧ RGBWithin f s.params.mRgb h t) ∧
      (HasCCT s.params.num h → h.y ≠ 0.1858 ∧ ∃ q : Rat,
        exec (.xyzToCCT d o) s = .next (s.deliver [(d, .num q)] .ok) ∧ WithinE2E q (CCTNumber h)) ∧
      (¬ HasCCT s.params.num h → exec (.xyzToCCT d o) s = .next (s.deliver [] .undefinedCCT))) ∧
    (∀ o cs e, evalSet s o = .ok cs → e = rawToXYZExact s.params.mCal cs.values →
      ∃ (c : XYZColor) (r : Status) (u : State), u = s.deliver [(d, .xyz c)] r ∧ exec (.rawToXYZ d o) s = .next u
        ∧ WithinE2E c.X e.X ∧ WithinE2E c.Y e.Y ∧ WithinE2E c.Z e.Z ∧ WithinE2E c.l e.l
        ∧ ∀ h g, c.chroma = some h → e.chroma = some g →
          WithinE2E h.x g.x ∧ WithinE2E h.y g.y ∧ WithinE2E h.z g.z
          ∧ (∃ t, exec (.xyzToRGB k (.var d)) u = .next (u.deliver [(k, .rgb t)] .ok)
              ∧ RGBWithin f s.params.mRgb g t)
          ∧ (HasCCT s.params.num h → g.y ≠ 0.1858 ∧ ∃ q : Rat,
              exec (.xyzToCCT k (.var d)) u = .next (u.deliver [(k, .num q)] .ok) ∧ WithinE2E q (CCTNumber g))
          ∧ (¬ HasCCT s.params.num h → exec (.xyzToCCT k (.var d)) u = .next (u.deliver [] .undefinedCCT)))

/-- R138: binary64 rounding. Inside the finite range it gives a binary64 number to which no other is nearer, and of two as
near, which are neighbours `2^e` apart, the even multiple of `2^e`; from half a last place above the greatest finite number
on, it gives the infinity of the sign. It never gives a NaN. -/
def Obligations.BinaryRoundingIsNearest : Prop :=
  ∀ q : Rat,
    (|q| < 2 ^ 1024 - 2 ^ 970 → ∃ r, round64 q = .finite r ∧ IsBinary64 r ∧
      ∀ b, IsBinary64 b → |r - q| ≤ |b - q| ∧
        (b ≠ r → |b - q| = |r - q| → ∃ k e : Int, |b - r| = (2 : Rat) ^ e ∧ r = 2 * k * (2 : Rat) ^ e)) ∧
    (2 ^ 1024 - 2 ^ 970 ≤ q → round64 q = .posInf) ∧ (q ≤ -(2 ^ 1024 - 2 ^ 970) → round64 q = .negInf)

/-- R123, R128, R130, R135, R138 under `BINARY64`: what the four operations compute, every operation rounded, sums left to
right, and that they deliver it when it conforms to R127 and R137 (log entry 16). `VectorDot64` and `RowDot64` are the sums; the
quotients of `rawToXYZ` are tested together with what the two later operations make of them. That a number the caller gives
is rounded when it is read, and that the power is `POW24` rounded, is log entry 18 (PRESUMED). And whatever they compute,
the numbers they deliver are binary64 numbers wherever a binary64 number (for the chromaticity, three together) conforms. -/
def Obligations.BinaryOperationsDeliverWhatTheyCompute : Prop :=
  ∀ (d : Name) (s : State) (f : Rat → ℝ) (t : Rat → Binary64), s.params.num = .binary64 → IsSRGB f →
    (∀ x T, round64 0.0031308 = .finite T → t x = if x ≤ T then mul64 (round64 12.92) (.finite x)
      else sub64 (mul64 (round64 1.055) (round64 (s.params.pow24 x))) (round64 0.055)) →
    (∀ o c x q, evalOperand s Value.asNum o = .ok c → round64 c = .finite x → t x = .finite q → WithinE2E q (f c) →
      exec (.linearToSRGB d o) s = .next (s.deliver [(d, .num q)] .ok)) ∧
    (∀ o c h x1 x2 x3 q1 q2 q3, evalOperand s Value.asXYZ o = .ok c → c.chroma = some h →
      RowDot64 s.params.mRgb.r0 h = .finite x1 → RowDot64 s.params.mRgb.r1 h = .finite x2 →
      RowDot64 s.params.mRgb.r2 h = .finite x3 → t x1 = .finite q1 → t x2 = .finite q2 → t x3 = .finite q3 →
      RGBWithin f s.params.mRgb h ⟨q1, q2, q3⟩ →
      exec (.xyzToRGB d o) s = .next (s.deliver [(d, .rgb ⟨q1, q2, q3⟩)] .ok)) ∧
    (∀ o c h q, evalOperand s Value.asXYZ o = .ok c → c.chroma = some h → CCTDen64 h ≠ .finite 0 →
      CCT64 h = .finite q → WithinE2E q (CCTNumber h) →
      exec (.xyzToCCT d o) s = .next (s.deliver [(d, .num q)] .ok)) ∧
    (∀ o cs v m e X Y Z l S, evalSet s o = .ok cs → v = cs.values → m = s.params.mCal → e = rawToXYZExact m v →
      VectorDot64 v ⟨m.r0.c0, m.r1.c0, m.r2.c0, m.r3.c0⟩ = .finite X →
      VectorDot64 v ⟨m.r0.c1, m.r1.c1, m.r2.c1, m.r3.c1⟩ = .finite Y →
      VectorDot64 v ⟨m.r0.c2, m.r1.c2, m.r2.c2, m.r3.c2⟩ = .finite Z →
      VectorDot64 v ⟨m.r0.c3, m.r1.c3, m.r2.c3, m.r3.c3⟩ = .finite l →
      WithinE2E X e.X → WithinE2E Y e.Y → WithinE2E Z e.Z → WithinE2E l e.l →
      S = add64 (add64 (round64 X) (round64 Y)) (round64 Z) →
      (S = .finite 0 → exec (.rawToXYZ d o) s
        = .next (s.deliver [(d, .xyz ⟨X, Y, Z, l, none⟩)] .undefinedChromaticity)) ∧
      (∀ x y z, S ≠ .finite 0 → div64 (round64 X) S = .finite x → div64 (round64 Y) S = .finite y →
        div64 (round64 Z) S = .finite z → s.params.chromaConforms e.chroma ⟨x, y, z⟩ = true →
        exec (.rawToXYZ d o) s = .next (s.deliver [(d, .xyz ⟨X, Y, Z, l, some ⟨x, y, z⟩⟩)] .ok))) ∧
    (∀ o c, evalOperand s Value.asNum o = .ok c →
      ∃ q, exec (.linearToSRGB d o) s = .next (s.deliver [(d, .num q)] .ok) ∧ Holds64 (f c) q) ∧
    (∀ o c h, evalOperand s Value.asXYZ o = .ok c → c.chroma = some h →
      (∃ w, exec (.xyzToRGB d o) s = .next (s.deliver [(d, .rgb w)] .ok) ∧ Holds64 (f (RowDot s.params.mRgb.r0 h)) w.r
        ∧ Holds64 (f (RowDot s.params.mRgb.r1 h)) w.g ∧ Holds64 (f (RowDot s.params.mRgb.r2 h)) w.b) ∧
      (∀ q, exec (.xyzToCCT d o) s = .next (s.deliver [(d, .num q)] .ok) → Holds64 (CCTNumber h) q)) ∧
    (∀ o cs e, evalSet s o = .ok cs → e = rawToXYZExact s.params.mCal cs.values →
      ∃ c r, exec (.rawToXYZ d o) s = .next (s.deliver [(d, .xyz c)] r)
        ∧ Holds64 e.X c.X ∧ Holds64 e.Y c.Y ∧ Holds64 e.Z c.Z ∧ Holds64 e.l c.l
        ∧ ∀ h, c.chroma = some h → (∃ b, ChromaIsBinary64 b ∧ s.params.chromaConforms e.chroma b = true) →
          ChromaIsBinary64 h)

/-- R118, R139, R159, R192: in every number domain the five colour operations end with a next state, their status one of
R159's, on every operand that denotes a value. -/
def Obligations.ColourOperationsCompleteInEveryDomain : Prop :=
  ∀ (d : Name) (s : State),
    (∀ o ch, evalOperand s Value.asChannel o = .ok ch →
      ∃ as, exec (.reconstruct d o) s = .next (s.deliver as .ok)) ∧
    (∀ o cs, evalSet s o = .ok cs →
      ∃ as st, exec (.rawToXYZ d o) s = .next (s.deliver as st) ∧ (st.code = 0 ∨ st.code = 4)) ∧
    (∀ o c, evalOperand s Value.asXYZ o = .ok c →
      ∃ as st, exec (.xyzToRGB d o) s = .next (s.deliver as st) ∧ (st.code = 0 ∨ st.code = 4)
        ∧ (st = .ok ↔ c.chroma.isSome = true)) ∧
    (∀ o q, evalOperand s Value.asNum o = .ok q →
      ∃ as, exec (.linearToSRGB d o) s = .next (s.deliver as .ok)) ∧
    (∀ o c, evalOperand s Value.asXYZ o = .ok c →
      ∃ as st, exec (.xyzToCCT d o) s = .next (s.deliver as st) ∧ (st.code = 0 ∨ st.code = 4 ∨ st.code = 5))

/-! ### The Device Session -/

/-- R92, R97, R158, R163: on a session that is not `Ready`, which is one whose `init` has not returned `OK`, every session
operation but `init` ends with `NotReady`, and so does a second `init`: one on a session that is `Ready`, and one on a
session whose first `init` failed, which the flag `initFailed` remembers (log entry 20). No access is made and nothing but
the caller's run changes. -/
def Obligations.NotReadyOperationsAreTurnedAway : Prop :=
  ∀ (s : State) (a b st : Name),
    (s.session ≠ .ready →
      exec (.read a b st) s = .next (s.deliver [(st, .status .notReady)] .notReady) ∧
      exec (.readConfig a st) s = .next (s.deliver [(st, .status .notReady)] .notReady) ∧
      exec (.writeConfig st) s = .next (s.deliver [(st, .status .notReady)] .notReady) ∧
      ∀ e ∈ setters, ∀ o v, evalOperand s Value.asField o = .ok v →
        exec (e.2 st o) s = .next (s.deliver [(st, .status .notReady)] .notReady)) ∧
    (s.session = .ready ∨ s.initFailed = true →
      exec (.init st) s = .next (s.deliver [(st, .status .notReady)] .notReady))

/-- R93, R96, R97: `init` on a device that answers its seven accesses, whoever answers them (a script, the echo or a draw;
each answer is that of the state the access meets, `s` to `s6`): identity matched, the mode written back as
`continuous` with the ten other fields as read, the session `Ready`, the cache what the re-read reports. -/
def Obligations.InitBringsTheSessionUp : Prop :=
  ∀ (s s1 s2 s3 s4 s5 s6 : State) (st : Name) (i0 i1 h0 h1 l0 l1 h2 h3 l2 l3 : Byte) (c : DeviceConfiguration)
    (w : Word) (dev : List Host.Cell),
    s.session = .uninitialized → s.initFailed = false → s.hang = false →
    s1 = s.oneAnswerUsed → s2 = s1.oneAnswerUsed → s3 = s2.oneAnswerUsed → s4 = s3.oneAnswerUsed →
    dev = Memory.writeHalf (Memory.writeHalf s.device 0x0A#8 (hi16 w)) 0x0B#8 (lo16 w) →
    s5 = { s4.oneAnswerUsed with device := dev } → s6 = s5.oneAnswerUsed →
    s.readAnswer 0x11#8 2 = some [i0, i1] → s1.readAnswer 0x0A#8 2 = some [h0, h1] →
    s2.readAnswer 0x0B#8 2 = some [l0, l1] → s3.writeAnswer = true → s4.writeAnswer = true →
    s5.readAnswer 0x0A#8 2 = some [h2, h3] → s6.readAnswer 0x0B#8 2 = some [l2, l3] →
    be16 i0 i1 = s.params.deviceId →
    c = { unpackWord s.params.layout (be32 h0 h1 l0 l1) with operatingMode := s.params.enumMap.continuous } →
    w = packWord s.params.layout c →
    ∃ t, exec (.init st) s = .next t ∧ t.session = .ready ∧ t.initFailed = false
      ∧ t.cfgCache = some (unpackWord s.params.layout (be32 h2 h3 l2 l3))
      ∧ t.traffic = s.traffic ++ [.read 0x11#8 2 (some [i0, i1]), .read 0x0A#8 2 (some [h0, h1]),
          .read 0x0B#8 2 (some [l0, l1])] ++ configWrites w
          ++ [.read 0x0A#8 2 (some [h2, h3]), .read 0x0B#8 2 (some [l2, l3])]
      ∧ t.script = s.script.drop 7 ∧ t.draws = s.draws + 7 ∧ t.device = dev ∧ t.params = s.params ∧ t.statuses = s.statuses ++ [.ok]
      ∧ lookup t.env st = some (.status .ok) ∧ (∀ n, n ≠ st → lookup t.env n = lookup s.env n)
      ∧ Memory.readByte dev 20 = some (w.extractLsb' 24 8) ∧ Memory.readByte dev 21 = some (w.extractLsb' 16 8)
      ∧ Memory.readByte dev 22 = some (w.extractLsb' 8 8) ∧ Memory.readByte dev 23 = some (w.extractLsb' 0 8)
      ∧ ∀ a, a ∉ [20, 21, 22, 23] → Memory.readByte t.device a = Memory.readByte s.device a

/-- R94, R95, R151: an identity value that differs in any bit ends `init` with `IdentityMismatch` and the value read;
no further access is made, the session stays `Uninitialized` and the cache as it was. -/
def Obligations.IdentityMismatchEndsInit : Prop :=
  ∀ (s : State) (st : Name) (b0 b1 : Byte),
    s.session = .uninitialized → s.initFailed = false → s.hang = false →
    s.readAnswer 0x11#8 2 = some [b0, b1] → be16 b0 b1 ≠ s.params.deviceId →
    exec (.init st) s = .next (State.deliver
      { s with initFailed := true, script := s.script.drop 1, draws := s.draws + 1
               traffic := s.traffic ++ [.read 0x11#8 2 (some [b0, b1])] }
      [(st, .status (.identityMismatch (be16 b0 b1)))] (.identityMismatch (be16 b0 b1)))

/-- R92, R97, R150, R159, R163, R177: every `init` that is not turned away and does not hang ends, either with `OK` and a
`Ready` session with a cached configuration, or with a failure of code 1 or 2 that leaves the session `Uninitialized`
and turns every later operation on it away. Its accesses are the seven of R93 in their order, or the first of them, each
recorded with the answer the transport had for it; the first that fails is the last and gives the status (R152), with `OK`
all seven have succeeded, and an identity mismatch follows the first. What it writes is the word it read with the mode
`continuous` (R96). That the failure is remembered in `initFailed`, and that `Ready` is committed at `OK`, is log entry
20. -/
def Obligations.InitEndsReadyOrUnusable : Prop :=
  ∀ (s : State) (st : Name), s.session = .uninitialized → s.initFailed = false → s.hang = false →
    ∃ (t : State) (r : Status) (l : List Access), exec (.init st) s = .next t ∧ t.statuses = s.statuses ++ [r]
      ∧ lookup t.env st = some (.status r) ∧ t.traffic = s.traffic ++ l ∧ Answered s l ∧ EndsAtFirstFailure l r
      ∧ l.map Access.target <+: [(0x11#8, .read), (0x0A#8, .read), (0x0B#8, .read), (0x0A#8, .write), (0x0B#8, .write),
          (0x0A#8, .read), (0x0B#8, .read)]
      ∧ (r = .ok → l.length = 7) ∧ (r.code = 1 → l.length = 1)
      ∧ (∀ h0 h1 l0 l1 w, l[1]? = some (.read 0x0A#8 2 (some [h0, h1])) → l[2]? = some (.read 0x0B#8 2 (some [l0, l1])) →
          w = packWord s.params.layout
            { unpackWord s.params.layout (be32 h0 h1 l0 l1) with operatingMode := s.params.enumMap.continuous } →
          ∀ addr p ok, .write addr p ok ∈ l → .write addr p true ∈ configWrites w)
      ∧ ((r = .ok ∧ t.session = .ready ∧ t.initFailed = false ∧ t.cfgCache.isSome = true) ∨
         ((r.code = 1 ∨ r.code = 2) ∧ t.session = .uninitialized ∧ t.initFailed = true
          ∧ ∀ a b n, exec (.init n) t = .next (t.deliver [(n, .status .notReady)] .notReady)
            ∧ exec (.read a b n) t = .next (t.deliver [(n, .status .notReady)] .notReady)
            ∧ exec (.readConfig a n) t = .next (t.deliver [(n, .status .notReady)] .notReady)
            ∧ exec (.writeConfig n) t = .next (t.deliver [(n, .status .notReady)] .notReady)
            ∧ ∀ e ∈ setters, ∀ o v, evalOperand t Value.asField o = .ok v →
              exec (e.2 n o) t = .next (t.deliver [(n, .status .notReady)] .notReady)))

/-- R36, R98: `read` makes one access of 16 bytes at 0x00, delivers the four channels reassembled big-endian and the
four flags, and its status is `OK` when all flags are true and `CrcMismatch` with the flags otherwise. The cache is
not touched. -/
def Obligations.ReadDeliversChannelsAndFlags : Prop :=
  ∀ (s : State) (a b st : Name) (b0 b1 b2 b3 b4 b5 b6 b7 b8 b9 b10 b11 b12 b13 b14 b15 : Byte) (cs : ChannelSet)
    (f : CrcFlags) (r : Status),
    s.session = .ready → s.hang = false →
    s.readAnswer 0x00#8 16 = some [b0, b1, b2, b3, b4, b5, b6, b7, b8, b9, b10, b11, b12, b13, b14, b15] →
    cs = ⟨unpackChannelWord (be32 b0 b1 b2 b3), unpackChannelWord (be32 b4 b5 b6 b7),
      unpackChannelWord (be32 b8 b9 b10 b11), unpackChannelWord (be32 b12 b13 b14 b15)⟩ →
    f = ⟨s.params.crcOk cs.ch0, s.params.crcOk cs.ch1, s.params.crcOk cs.ch2, s.params.crcOk cs.ch3⟩ →
    r = (if f = ⟨true, true, true, true⟩ then .ok else .crcMismatch f) →
    exec (.read a b st) s = .next (State.deliver
      { s with script := s.script.drop 1, draws := s.draws + 1
               traffic := s.traffic ++ [.read 0x00#8 16
                 (some [b0, b1, b2, b3, b4, b5, b6, b7, b8, b9, b10, b11, b12, b13, b14, b15])] }
      [(a, .channelSet cs), (b, .crcFlags f), (st, .status r)] r)

/-- R33, R98, R152: a failed read, a short one among them, delivers no channel set. -/
def Obligations.FailedReadDeliversNoChannels : Prop :=
  ∀ (s : State) (a b st : Name), s.session = .ready → s.hang = false → s.readAnswer 0x00#8 16 = none →
    exec (.read a b st) s = .next (State.deliver
      { s with script := s.script.drop 1, draws := s.draws + 1
               traffic := s.traffic ++ [.read 0x00#8 16 none] }
      [(st, .status (.transportFailure 0x00#8 .read))] (.transportFailure 0x00#8 .read))

/-- R33, R48, R152: what the transport answers. A script's failure is a failure, a script's bytes are delivered when
their count is the one asked for and a short or long read is a failure; under `ECHO` with no script no access fails. -/
def Obligations.TransportAnswers : Prop :=
  ∀ (s : State) (addr : RegAddr) (n : Nat) (bs : List Byte) (rest : List Answer),
    (s.script = .fail :: rest → s.readAnswer addr n = none ∧ s.writeAnswer = false) ∧
    (s.script = .data bs :: rest → bs.length = n → s.readAnswer addr n = some bs) ∧
    (s.script = .data bs :: rest → bs.length ≠ n → s.readAnswer addr n = none) ∧
    (s.script = [] → s.mode = .echo → (s.readAnswer addr n).isSome = true ∧ s.writeAnswer = true)

/-- R99: `readConfig` reads 0x0A then 0x0B, replaces the cache by the unpacked concatenation and returns it. -/
def Obligations.ReadConfigReplacesTheCache : Prop :=
  ∀ (s : State) (d st : Name) (h0 h1 l0 l1 : Byte) (c : DeviceConfiguration),
    s.session = .ready → s.hang = false → s.readAnswer 0x0A#8 2 = some [h0, h1] →
    s.oneAnswerUsed.readAnswer 0x0B#8 2 = some [l0, l1] →
    c = unpackWord s.params.layout (be32 h0 h1 l0 l1) →
    exec (.readConfig d st) s = .next (State.deliver
      { s with cfgCache := some c, script := s.script.drop 2, draws := s.draws + 2
               traffic := s.traffic ++ [.read 0x0A#8 2 (some [h0, h1]), .read 0x0B#8 2 (some [l0, l1])] }
      [(d, .config c), (st, .status .ok)] .ok)

/-- R99, R152: when either read of `readConfig` fails, the operation ends there and the cache keeps its value. -/
def Obligations.FailedReadConfigKeepsTheCache : Prop :=
  ∀ (s : State) (d st : Name), s.session = .ready → s.hang = false →
    (s.readAnswer 0x0A#8 2 = none → exec (.readConfig d st) s = .next (State.deliver
      { s with script := s.script.drop 1, draws := s.draws + 1, traffic := s.traffic ++ [.read 0x0A#8 2 none] }
      [(st, .status (.transportFailure 0x0A#8 .read))] (.transportFailure 0x0A#8 .read))) ∧
    (∀ bs, s.readAnswer 0x0A#8 2 = some bs → s.oneAnswerUsed.readAnswer 0x0B#8 2 = none →
      exec (.readConfig d st) s = .next (State.deliver
        { s with script := s.script.drop 2, draws := s.draws + 2
                 traffic := s.traffic ++ [.read 0x0A#8 2 (some bs), .read 0x0B#8 2 none] }
        [(st, .status (.transportFailure 0x0B#8 .read))] (.transportFailure 0x0B#8 .read)))

/-- R37, R38, R100: `writeConfig` writes the packed cache, high half to 0x0A then low half to 0x0B, and leaves the
cache. -/
def Obligations.WriteConfigWritesBothHalves : Prop :=
  ∀ (s : State) (st : Name) (c : DeviceConfiguration) (w : Word),
    s.session = .ready → s.cfgCache = some c → s.hang = false →
    s.writeAnswer = true → s.oneAnswerUsed.writeAnswer = true → w = packWord s.params.layout c →
    ∃ dev, exec (.writeConfig st) s = .next (State.deliver
        { s with script := s.script.drop 2, draws := s.draws + 2, device := dev
                 traffic := s.traffic ++ configWrites w } [(st, .status .ok)] .ok)
      ∧ Memory.readByte dev 20 = some (w.extractLsb' 24 8) ∧ Memory.readByte dev 21 = some (w.extractLsb' 16 8)
      ∧ Memory.readByte dev 22 = some (w.extractLsb' 8 8) ∧ Memory.readByte dev 23 = some (w.extractLsb' 0 8)
      ∧ ∀ a, a ∉ [20, 21, 22, 23] → Memory.readByte dev a = Memory.readByte s.device a

/-- R101, R104 to R113: each of the ten setters replaces its one field in the cache, keeps the ten others, and writes the
whole word back in two writes, whatever the device held. -/
def Obligations.SetterChangesOneFieldAndWritesBack : Prop :=
  ∀ e ∈ setters, ∀ (s : State) (st : Name) (o : Operand Nat) (v : Nat) (old : DeviceConfiguration),
    s.session = .ready → s.cfgCache = some old → s.hang = false →
    evalOperand s Value.asField o = .ok v → v < 2 ^ e.1.width →
    s.writeAnswer = true → s.oneAnswerUsed.writeAnswer = true →
    ∃ (new : DeviceConfiguration) (w : Word) (dev : List Host.Cell),
      new.get e.1 = v ∧ (∀ g, g ≠ e.1 → new.get g = old.get g) ∧ w = packWord s.params.layout new
      ∧ exec (e.2 st o) s = .next (State.deliver
          { s with cfgCache := some new, script := s.script.drop 2, draws := s.draws + 2, device := dev
                   traffic := s.traffic ++ configWrites w } [(st, .status .ok)] .ok)
      ∧ Memory.readByte dev 20 = some (w.extractLsb' 24 8) ∧ Memory.readByte dev 21 = some (w.extractLsb' 16 8)
      ∧ Memory.readByte dev 22 = some (w.extractLsb' 8 8) ∧ Memory.readByte dev 23 = some (w.extractLsb' 0 8)
      ∧ ∀ a, a ∉ [20, 21, 22, 23] → Memory.readByte dev a = Memory.readByte s.device a

/-- R34, R100, R101, R103, R152: when a write of `writeConfig` or of a setter fails, the operation ends there with
`TransportFailure` of that write, the cache is the one before the call, and the register whose write failed is unknown
(`FailedWriteEnds`; log entry 22). `writeConfig` writes the cached configuration, a setter the one with its field
changed. -/
def Obligations.FailedSetterRestoresTheCache : Prop :=
  ∀ (s : State) (st : Name) (old : DeviceConfiguration),
    s.session = .ready → s.cfgCache = some old → s.hang = false →
    FailedWriteEnds (.writeConfig st) s st (packWord s.params.layout old) ∧
    ∀ e ∈ setters, ∀ (o : Operand Nat) (v : Nat), evalOperand s Value.asField o = .ok v → v < 2 ^ e.1.width →
      FailedWriteEnds (e.2 st o) s st (packWord s.params.layout (old.set e.1 v))

/-- R70, R157, R161: on a usable session a setter whose value does not fit its field ends with `OperandOutOfRange` of
that field and value; no access is made. -/
def Obligations.SetterRefusesAValueTooWide : Prop :=
  ∀ e ∈ setters, ∀ (s : State) (st : Name) (o : Operand Nat) (v : Nat),
    s.session = .ready → s.cfgCache.isSome = true → evalOperand s Value.asField o = .ok v → 2 ^ e.1.width ≤ v →
    exec (e.2 st o) s
      = .next (s.deliver [(st, .status (.operandOutOfRange e.1 v))] (.operandOutOfRange e.1 v))

/-- R115, TP8: under `ECHO`, after a setter re-reading the configuration gives the cached one with that one field
changed. -/
def Obligations.EchoWriteBack : Prop :=
  ∀ e ∈ setters, ∀ (s : State) (st d st' : Name) (o : Operand Nat) (v : Nat) (old : DeviceConfiguration),
    s.session = .ready → s.cfgCache = some old → s.hang = false → s.mode = .echo → s.script = [] →
    evalOperand s Value.asField o = .ok v → v < 2 ^ e.1.width → d ≠ st' →
    ∃ (t u : State) (new : DeviceConfiguration),
      exec (e.2 st o) s = .next t ∧ t.statuses = s.statuses ++ [.ok]
      ∧ new.get e.1 = v ∧ (∀ g, g ≠ e.1 → new.get g = old.get g)
      ∧ exec (.readConfig d st') t = .next u ∧ u.statuses = s.statuses ++ [.ok, .ok]
      ∧ lookup u.env d = some (.config new) ∧ u.cfgCache = some new

/-- R184: under `ECHO`, `readConfig` and then a setter leave the device with every reserved bit of its two
configuration registers clear and bit 15 of 0x0B set, whatever they held, under either layout. -/
def Obligations.SetterClearsReservedDeviceBits : Prop :=
  ∀ e ∈ setters, ∀ (s t u : State) (d st st' : Name) (o : Operand Nat) (v : Nat) (M : Word),
    s.session = .ready → s.hang = false → s.mode = .echo → s.script = [] →
    ((s.params.layout = .B ∧ M = 0x4000FF82#32) ∨ (s.params.layout = .A ∧ M = 0x0004FF82#32)) →
    exec (.readConfig d st) s = .next t → evalOperand t Value.asField o = .ok v → v < 2 ^ e.1.width →
    exec (e.2 st' o) t = .next u →
    ∃ b0 b1 b2 b3, Memory.readByte u.device 20 = some b0 ∧ Memory.readByte u.device 21 = some b1
      ∧ Memory.readByte u.device 22 = some b2 ∧ Memory.readByte u.device 23 = some b3
      ∧ be32 b0 b1 b2 b3 &&& M = 0x00008000#32

/-- R104, R180: changing a field of one half leaves the other half of the word as it was, so the mixed word between the
two writes is the final word when cache and device agreed. -/
def Obligations.OneHalfFieldLeavesTheOtherHalf : Prop :=
  ∀ (L : CfgHiLayout) (c : DeviceConfiguration) (f : ConfigField) (v : Nat),
    (f ∈ highFields → lo16 (packWord L (c.set f v)) = lo16 (packWord L c)) ∧
    (f ∈ lowFields → hi16 (packWord L (c.set f v)) = hi16 (packWord L c))

/-- R114, U24: a session operation that is not turned away and whose transport call never returns has no next state. The
fault is this model's name for it (log entry 9). -/
def Obligations.HungTransportHasNoStep : Prop :=
  ∀ (s : State) (a b st : Name), s.hang = true →
    (s.session = .uninitialized → s.initFailed = false → exec (.init st) s = .fault .transportHang) ∧
    (s.session = .ready → exec (.read a b st) s = .fault .transportHang
      ∧ exec (.readConfig a st) s = .fault .transportHang) ∧
    (s.session = .ready → s.cfgCache.isSome = true → exec (.writeConfig st) s = .fault .transportHang
      ∧ ∀ e ∈ setters, ∀ o v, evalOperand s Value.asField o = .ok v → v < 2 ^ e.1.width →
        exec (e.2 st o) s = .fault .transportHang)

/-! ### The whole machine -/

/-- R22, R23, R28, R175: what reset leaves of the system, and the invariant holds of it. That the caller's run, its accesses
and its statuses, stands in the state and is empty is log entry 10 (DESIGN CHOICE). -/
def Obligations.ResetStateOfTheSession : Prop :=
  State.reset.session = .uninitialized ∧ State.reset.cfgCache = none ∧ State.reset.traffic = []
    ∧ State.reset.statuses = [] ∧ State.reset.Inv

/-- Every step keeps the invariant: the canonical form of the device's registers and of the caller's names (log entry
6), a cached configuration in a ready session (R23), an empty cache before the first `init` (R28), and accesses of R32's
list only. -/
def Obligations.StepKeepsTheInvariant : Prop :=
  ∀ s t : State, s.Inv → step s = .next t → t.Inv

/-- R20, R114, U24: no step changes the parameters, the transport's mode, or whether it hangs, nor the caller's list and
policy. -/
def Obligations.StepNeverWritesTheParameters : Prop :=
  ∀ s t : State, step s = .next t → t.params = s.params ∧ t.mode = s.mode ∧ t.hang = s.hang
    ∧ t.program = s.program ∧ t.policy = s.policy

/-- R91, R97: the session is `Uninitialized` at construction, a step leaves `Ready` never, and reaches it only by an
`init`. That this `init` has ended with `OK` rests on where the model commits `Ready`, which R97 and D18 allow (log entry
20, DEDUCED). -/
def Obligations.ReadyOnlyThroughInit : Prop :=
  State.reset.session = .uninitialized ∧
  ∀ s t : State, step s = .next t →
    (s.session = .ready → t.session = .ready) ∧
    (s.session = .uninitialized → t.session = .ready →
      ∃ line st, s.program[s.index]? = some line ∧ decode line = .ok (.init st)
        ∧ t.statuses = s.statuses ++ [.ok])

/-- R23: the cache is written by `init`, by `readConfig` and by the setters only. -/
def Obligations.CacheWrittenOnlyByItsOperations : Prop :=
  ∀ (i : Instr) (s t : State), exec i s = .next t → t.cfgCache ≠ s.cfgCache →
    (∃ st, i = .init st) ∨ (∃ c st, i = .readConfig c st) ∨ (∃ e ∈ setters, ∃ st o, i = e.2 st o)

/-- R10, R64, R76, R139, R162: the nine block operations change nothing of the session, the transport, the device or the
parameters, every byte of the device among them, whatever their status; and every operation leaves each of the caller's
names but its destinations as it was. A block operation other than `rawToXYZ` that ends with a failure, and every delivery
of no value, leaves all names, its destination among them (log entry 26). -/
def Obligations.OperationsLeaveAllElse : Prop :=
  (∀ (i : Instr) (s t : State), isMacro i = false → exec i s = .next t →
    s.sameSystem t ∧ ∀ a, Memory.readByte t.device a = Memory.readByte s.device a) ∧
  (∀ (i : Instr) (s t : State), exec i s = .next t → ∀ n, n ∉ destinations i → lookup t.env n = lookup s.env n) ∧
  (∀ (i : Instr) (s t : State) (r : Status), isMacro i = false → (∀ d o, i ≠ .rawToXYZ d o) → exec i s = .next t →
    t.statuses = s.statuses ++ [r] → r ≠ .ok → t.env = s.env) ∧
  (∀ (s : State) (r : Status), (s.deliver [] r).env = s.env)

/-- R10, R49, R76, R139: two invocations of one block operation with equal operands give equal results and equal status
when the parameters that operation reads are equal, whatever the other parameters (the bus addresses among them), the
session, the transport and the device are. A codec operation reads `CFG_HI_LAYOUT` and `CRC_FN`, a colour operation `NUM`,
`M_CAL`, `M_RGB` and `POW24`. Equal operands: the caller's names hold the same. -/
def Obligations.BlockOperationsDependOnOperandsOnly : Prop :=
  ∀ (i : Instr) (s s' : State), isMacro i = false →
    (isColour i = false → s.params.layout = s'.params.layout ∧ s.params.crcFn = s'.params.crcFn) →
    (isColour i = true → s.params.toColourParams = s'.params.toColourParams) → s.env = s'.env →
    (∃ as st, exec i s = .next (s.deliver as st) ∧ exec i s' = .next (s'.deliver as st)) ∨
    (∃ f, exec i s = .fault f ∧ exec i s' = .fault f)

/-- R24, R32: no operation changes a byte of the device outside the registers 0x0A and 0x0B. -/
def Obligations.OnlyConfigurationRegistersAreWritten : Prop :=
  ∀ (i : Instr) (s t : State), exec i s = .next t →
    ∀ a, a ∉ [20, 21, 22, 23] → Memory.readByte t.device a = Memory.readByte s.device a

/-- R9, R32 to R34, R43, R116, R152: every access an operation adds is of the list, after those made before; it makes at most
seven. Each is recorded with the answer the transport had for it then, the device afterwards holds what the accesses made
of it, and the first that fails is the last and gives the status; where none fails the status is no `TransportFailure`. -/
def Obligations.AccessesAreOfTheList : Prop :=
  ∀ (i : Instr) (s t : State), exec i s = .next t →
    ∃ l r, t.traffic = s.traffic ++ l ∧ l.all Access.allowed = true ∧ l.length ≤ 7 ∧ t.draws = s.draws + l.length
      ∧ Answered s l ∧ (l.foldl State.afterAccess s).sameTransport t
      ∧ t.statuses = s.statuses ++ [r] ∧ EndsAtFirstFailure l r

/-- R9, R159: every operation that ends adds exactly one status to the run, one of those the matrix allows it. -/
def Obligations.StatusesFollowTheMatrix : Prop :=
  ∀ (i : Instr) (s t : State), exec i s = .next t →
    ∃ st, t.statuses = s.statuses ++ [st] ∧ statusAllowed i st = true

/-- R11, R163: after a status the list goes on at the next line when the status is `OK`, or when the caller issues the
next line anyway; otherwise it stops where it is. -/
def Obligations.ListAdvancesOnOKAndStopsOtherwise : Prop :=
  ∀ (s t : State), step s = .next t → ∃ st, t.statuses = s.statuses ++ [st] ∧
    (st = .ok ∨ s.policy = .goOn → t.index = s.index + 1 ∧ t.stopped = false) ∧
    (st ≠ .ok → s.policy = .stop → t.index = s.index ∧ t.stopped = true)

/-- R21, R64: an operation whose operand is a name no line has assigned is a fault, never a number; so is a `rawToXYZ`
of a record with such a member whose earlier members denote channels. The fault is this model's name for it (log entry
8), that a setter's operand is evaluated before readiness is tested is log entry 19, and that a record's members may be names,
evaluated in order, is log entry 29. -/
def Obligations.UnassignedNameIsAFault : Prop :=
  ∀ (d n : Name) (s : State), lookup s.env n = none →
    exec (.packConfig d (.var n)) s = .fault (.unassignedName n) ∧
    exec (.unpackConfig d (.var n)) s = .fault (.unassignedName n) ∧
    exec (.unpackChannel d (.var n)) s = .fault (.unassignedName n) ∧
    exec (.crcValid d (.var n)) s = .fault (.unassignedName n) ∧
    exec (.reconstruct d (.var n)) s = .fault (.unassignedName n) ∧
    exec (.rawToXYZ d (.var n)) s = .fault (.unassignedName n) ∧
    exec (.xyzToRGB d (.var n)) s = .fault (.unassignedName n) ∧
    exec (.linearToSRGB d (.var n)) s = .fault (.unassignedName n) ∧
    exec (.xyzToCCT d (.var n)) s = .fault (.unassignedName n) ∧
    (∀ e ∈ setters, exec (e.2 d (.var n)) s = .fault (.unassignedName n)) ∧
    ∀ a b c x : Operand RawChannel,
      exec (.rawToXYZ d (.record (.var n) b c x)) s = .fault (.unassignedName n) ∧
      ((evalOperand s Value.asChannel a).isOk = true →
        exec (.rawToXYZ d (.record a (.var n) c x)) s = .fault (.unassignedName n) ∧
        ((evalOperand s Value.asChannel b).isOk = true →
          exec (.rawToXYZ d (.record a b (.var n) x)) s = .fault (.unassignedName n) ∧
          ((evalOperand s Value.asChannel c).isOk = true →
            exec (.rawToXYZ d (.record a b c (.var n))) s = .fault (.unassignedName n))))
end

