-- ==== Sys2Proof/Laws/Bits.lean ====
section
/-! SUPPORT. The bits of what `Bits.lean` builds, one lemma per function. Read through these, an equality of words or of
fields is 32 closed questions about bits. -/

namespace Sys2Proof.Machine

theorem getLsbD_insertField {n : Nat} (v : BitVec n) (lo i : Nat) :
    (insertField v lo).getLsbD i = (decide (i < 32) && !decide (i < lo) && v.getLsbD (i - lo)) := by
  simp only [insertField, BitVec.getLsbD_shiftLeft, BitVec.getLsbD_setWidth]
  by_cases h : i < 32
  · have : i - lo < 32 := by omega
    simp [h, this]
  · simp [h]

theorem getLsbD_extractField (w : Word) (lo width i : Nat) :
    (extractField w lo width).getLsbD i = (decide (i < width) && w.getLsbD (lo + i)) :=
  BitVec.getLsbD_extractLsb' _ _ _ _

theorem getLsbD_be16 (b0 b1 : Byte) (i : Nat) :
    (be16 b0 b1).getLsbD i = if i < 8 then b1.getLsbD i else b0.getLsbD (i - 8) := by
  show (b0 ++ b1).getLsbD i = _
  rw [BitVec.getLsbD_append]

theorem getLsbD_join32 (hi lo : Half) (i : Nat) :
    (join32 hi lo).getLsbD i = if i < 16 then lo.getLsbD i else hi.getLsbD (i - 16) := by
  show (hi ++ lo).getLsbD i = _
  rw [BitVec.getLsbD_append]

theorem getLsbD_be32 (b0 b1 b2 b3 : Byte) (i : Nat) :
    (be32 b0 b1 b2 b3).getLsbD i =
      if i < 8 then b3.getLsbD i else if i < 16 then b2.getLsbD (i - 8)
      else if i < 24 then b1.getLsbD (i - 16) else b0.getLsbD (i - 24) := by
  show (b0 ++ b1 ++ b2 ++ b3).getLsbD i = _
  rw [BitVec.getLsbD_append, BitVec.getLsbD_append, BitVec.getLsbD_append]
  by_cases h1 : i < 8
  · simp [h1]
  · by_cases h2 : i < 16
    · have : i - 8 < 8 := by omega
      simp [h1, h2, this]
    · have h2' : ¬ i - 8 < 8 := by omega
      by_cases h3 : i < 24
      · have : i - 8 - 8 < 8 := by omega
        have e : i - 8 - 8 = i - 16 := by omega
        simp [h1, h2, h2', h3, e, show i - 16 < 8 by omega]
      · have e : i - 8 - 8 = i - 16 := by omega
        have e' : i - 16 - 8 = i - 24 := by omega
        simp [h1, h2, h2', h3, e, e', show ¬ i - 16 < 8 by omega]

/-- R36, R37: two registers joined are their four bytes in order. -/
theorem join32_be16 (b0 b1 b2 b3 : Byte) : join32 (be16 b0 b1) (be16 b2 b3) = be32 b0 b1 b2 b3 := by
  apply BitVec.eq_of_getLsbD_eq
  intro i hi
  rw [getLsbD_join32, getLsbD_be16, getLsbD_be16, getLsbD_be32]
  by_cases h1 : i < 8
  · simp [h1, show i < 16 by omega]
  · by_cases h2 : i < 16
    · simp [h1, h2]
    · by_cases h3 : i < 24
      · simp [h1, h2, h3, show i - 16 < 8 by omega]
      · simp [h1, h2, h3, show ¬ i - 16 < 8 by omega, show i - 16 - 8 = i - 24 by omega]

theorem getLsbD_hi16 (w : Word) (i : Nat) : (hi16 w).getLsbD i = (decide (i < 16) && w.getLsbD (16 + i)) :=
  BitVec.getLsbD_extractLsb' _ _ _ _

theorem getLsbD_lo16 (w : Word) (i : Nat) : (lo16 w).getLsbD i = (decide (i < 16) && w.getLsbD i) := by
  simp [lo16, BitVec.getLsbD_extractLsb']

/-- R37: `join32(hi16(w), lo16(w)) = w`. -/
theorem join32_hi16_lo16 (w : Word) : join32 (hi16 w) (lo16 w) = w := by
  apply BitVec.eq_of_getLsbD_eq
  intro i hi
  rw [getLsbD_join32, getLsbD_hi16, getLsbD_lo16]
  by_cases h : i < 16
  · simp [h]
  · simp [h, show i - 16 < 16 by omega, show 16 + (i - 16) = i by omega]

/-- R38: the payload of a half, read back, is the half. -/
theorem be16_payload16 (v : Half) : be16 (v.extractLsb' 8 8) (v.extractLsb' 0 8) = v := by
  apply BitVec.eq_of_getLsbD_eq
  intro i hi
  rw [getLsbD_be16]
  by_cases h : i < 8
  · simp [h]
  · simp [h, show i - 8 < 8 by omega, show 8 + (i - 8) = i by omega]

/-- R38: the bytes of the two halves of a word, cut straight from the word. -/
theorem payload16_hi16 (w : Word) : payload16 (hi16 w) = [w.extractLsb' 24 8, w.extractLsb' 16 8] := by
  simp only [payload16, hi16, List.cons.injEq, and_true]
  constructor <;> (apply BitVec.eq_of_getLsbD_eq; intro i hi)
  · simp only [BitVec.getLsbD_extractLsb', hi, show 8 + i < 16 by omega, show 16 + (8 + i) = 24 + i by omega]
    simp
  · simp only [BitVec.getLsbD_extractLsb', hi, show 0 + i < 16 by omega, show 16 + (0 + i) = 16 + i by omega]
    simp

theorem payload16_lo16 (w : Word) : payload16 (lo16 w) = [w.extractLsb' 8 8, w.extractLsb' 0 8] := by
  simp only [payload16, lo16, List.cons.injEq, and_true]
  constructor <;> (apply BitVec.eq_of_getLsbD_eq; intro i hi)
  · simp only [BitVec.getLsbD_extractLsb', hi, show 8 + i < 16 by omega, show 0 + (8 + i) = 8 + i by omega]
    simp
  · simp only [BitVec.getLsbD_extractLsb', hi, show 0 + i < 16 by omega, show 0 + (0 + i) = 0 + i by omega]
    simp

end Sys2Proof.Machine

namespace Sys2Proof

/-- R57: the mantissa's two pieces are the single slice 27:8. -/
theorem unpackChannelWord_mantissa (w : Word) : (unpackChannelWord w).mantissa = Machine.extractField w 8 20 := by
  apply BitVec.eq_of_getLsbD_eq
  intro i hi
  show (Machine.extractField w 16 12 ++ Machine.extractField w 8 8).getLsbD i = _
  rw [BitVec.getLsbD_append, Machine.getLsbD_extractField, Machine.getLsbD_extractField, Machine.getLsbD_extractField]
  by_cases h : i < 8
  · simp [h, hi]
  · simp [h, hi, show i - 8 < 12 by omega, show 16 + (i - 8) = 8 + i by omega]

end Sys2Proof
end

