-- ==== Sys2Proof/Laws/State.lean ====
section
/-! SUPPORT. One lemma per field of `State` for the two shared updates, `deliver` and `accessed`. -/

namespace Sys2Proof.Machine

section deliver
variable (s : State) (as : List (Name × Value)) (st : Status)

@[simp] theorem deliver_params : (s.deliver as st).params = s.params := rfl
@[simp] theorem deliver_session : (s.deliver as st).session = s.session := rfl
@[simp] theorem deliver_initFailed : (s.deliver as st).initFailed = s.initFailed := rfl
@[simp] theorem deliver_cfgCache : (s.deliver as st).cfgCache = s.cfgCache := rfl
@[simp] theorem deliver_device : (s.deliver as st).device = s.device := rfl
@[simp] theorem deliver_mode : (s.deliver as st).mode = s.mode := rfl
@[simp] theorem deliver_script : (s.deliver as st).script = s.script := rfl
@[simp] theorem deliver_hang : (s.deliver as st).hang = s.hang := rfl
@[simp] theorem deliver_draws : (s.deliver as st).draws = s.draws := rfl
@[simp] theorem deliver_traffic : (s.deliver as st).traffic = s.traffic := rfl
@[simp] theorem deliver_program : (s.deliver as st).program = s.program := rfl
@[simp] theorem deliver_index :
    (s.deliver as st).index = if s.policy.goesOn st then s.index + 1 else s.index := rfl
@[simp] theorem deliver_stopped : (s.deliver as st).stopped = !s.policy.goesOn st := rfl
@[simp] theorem deliver_policy : (s.deliver as st).policy = s.policy := rfl
@[simp] theorem deliver_env : (s.deliver as st).env = assignAll s.env as := rfl
@[simp] theorem deliver_statuses : (s.deliver as st).statuses = s.statuses ++ [st] := rfl

end deliver

section accessed
variable (s : State) (a : Access)

@[simp] theorem accessed_params : (s.accessed a).params = s.params := rfl
@[simp] theorem accessed_session : (s.accessed a).session = s.session := rfl
@[simp] theorem accessed_initFailed : (s.accessed a).initFailed = s.initFailed := rfl
@[simp] theorem accessed_cfgCache : (s.accessed a).cfgCache = s.cfgCache := rfl
@[simp] theorem accessed_device : (s.accessed a).device = s.device := rfl
@[simp] theorem accessed_mode : (s.accessed a).mode = s.mode := rfl
@[simp] theorem accessed_script : (s.accessed a).script = s.script.drop 1 := rfl
@[simp] theorem accessed_hang : (s.accessed a).hang = s.hang := rfl
@[simp] theorem accessed_draws : (s.accessed a).draws = s.draws + 1 := rfl
@[simp] theorem accessed_traffic : (s.accessed a).traffic = s.traffic ++ [a] := rfl
@[simp] theorem accessed_program : (s.accessed a).program = s.program := rfl
@[simp] theorem accessed_index : (s.accessed a).index = s.index := rfl
@[simp] theorem accessed_stopped : (s.accessed a).stopped = s.stopped := rfl
@[simp] theorem accessed_policy : (s.accessed a).policy = s.policy := rfl
@[simp] theorem accessed_env : (s.accessed a).env = s.env := rfl
@[simp] theorem accessed_statuses : (s.accessed a).statuses = s.statuses := rfl

end accessed

/-- The two policies of R11 and R163. -/
@[simp] theorem goesOn_stop (st : Status) : CallerPolicy.stop.goesOn st = (st == .ok) := rfl
@[simp] theorem goesOn_goOn (st : Status) : CallerPolicy.goOn.goesOn st = true := rfl

@[simp] theorem assignAll_nil (e : List (Nat × Value)) : assignAll e [] = e := rfl
@[simp] theorem assignAll_cons (e : List (Nat × Value)) (a : Name × Value) (as : List (Name × Value)) :
    assignAll e (a :: as) = assignAll (insertAt a.1 a.2 e) as := rfl

end Sys2Proof.Machine
end

