-- ==== Sys2Proof/Laws/Keyed.lean ====
section
/-! SUPPORT. The keyed lists: what is read after an update, and that every update keeps the canonical form. The
device's registers and the caller's names both rest on these. -/

namespace Sys2Proof.Machine

variable {β : Type}

theorem risingFrom_weaken {lo lo' : Nat} (h : lo' ≤ lo) :
    ∀ {l : List (Nat × β)}, risingFrom lo l = true → risingFrom lo' l = true
  | [], _ => rfl
  | (k, v) :: rest, hl => by
    simp only [risingFrom, Bool.and_eq_true, decide_eq_true_eq] at hl ⊢
    exact ⟨by omega, hl.2⟩

theorem lookup_of_lt_rising {lo a : Nat} (h : a < lo) :
    ∀ {l : List (Nat × β)}, risingFrom lo l = true → lookup l a = none
  | [], _ => rfl
  | (k, v) :: rest, hl => by
    simp only [risingFrom, Bool.and_eq_true, decide_eq_true_eq] at hl
    have hne : ¬ a = k := by omega
    simp only [lookup, hne, if_false]
    exact lookup_of_lt_rising (by omega) hl.2

theorem lookup_insertAt_same (a : Nat) (b : β) : ∀ l : List (Nat × β), lookup (insertAt a b l) a = some b
  | [] => by simp [insertAt, lookup]
  | (k, v) :: rest => by
    unfold insertAt
    split
    · simp [lookup]
    · split
      · simp [lookup]
      · next h => simp [lookup, h, lookup_insertAt_same a b rest]

theorem lookup_insertAt_other {a c : Nat} (b : β) (h : c ≠ a) :
    ∀ l : List (Nat × β), lookup (insertAt a b l) c = lookup l c
  | [] => by simp [insertAt, lookup, h]
  | (k, v) :: rest => by
    unfold insertAt
    split
    · simp [lookup, h]
    · split
      · next hk => subst hk; simp [lookup, h]
      · simp [lookup, lookup_insertAt_other b h rest]

theorem lookup_removeAt_other {a c : Nat} (h : c ≠ a) :
    ∀ l : List (Nat × β), lookup (removeAt a l) c = lookup l c
  | [] => rfl
  | (k, v) :: rest => by
    unfold removeAt
    split
    · next hk => subst hk; simp [lookup, h]
    · simp [lookup, lookup_removeAt_other h rest]

theorem lookup_removeAt_same {a : Nat} :
    ∀ {lo : Nat} {l : List (Nat × β)}, risingFrom lo l = true → lookup (removeAt a l) a = none
  | _, [], _ => rfl
  | lo, (k, v) :: rest, hl => by
    simp only [risingFrom, Bool.and_eq_true, decide_eq_true_eq] at hl
    unfold removeAt
    split
    · next hk => exact lookup_of_lt_rising (by omega) hl.2
    · next hk => simpa [lookup, hk] using lookup_removeAt_same hl.2

theorem risingFrom_insertAt {a : Nat} (b : β) :
    ∀ {lo : Nat} {l : List (Nat × β)}, lo ≤ a → risingFrom lo l = true → risingFrom lo (insertAt a b l) = true
  | lo, [], ha, _ => by simp [insertAt, risingFrom, ha]
  | lo, (k, v) :: rest, ha, hl => by
    simp only [risingFrom, Bool.and_eq_true, decide_eq_true_eq] at hl
    unfold insertAt
    split
    · simp only [risingFrom, Bool.and_eq_true, decide_eq_true_eq]
      exact ⟨ha, by omega, hl.2⟩
    · split
      · next hk => simp only [risingFrom, Bool.and_eq_true, decide_eq_true_eq]; exact ⟨ha, hk ▸ hl.2⟩
      · simp only [risingFrom, Bool.and_eq_true, decide_eq_true_eq]
        exact ⟨hl.1, risingFrom_insertAt b (by omega) hl.2⟩

theorem risingFrom_removeAt {a : Nat} :
    ∀ {lo : Nat} {l : List (Nat × β)}, risingFrom lo l = true → risingFrom lo (removeAt a l) = true
  | _, [], _ => rfl
  | lo, (k, v) :: rest, hl => by
    simp only [risingFrom, Bool.and_eq_true, decide_eq_true_eq] at hl
    unfold removeAt
    split
    · exact risingFrom_weaken (by omega) hl.2
    · simp only [risingFrom, Bool.and_eq_true, decide_eq_true_eq]
      exact ⟨hl.1, risingFrom_removeAt hl.2⟩

theorem all_insertAt (p : Nat × β → Bool) {a : Nat} {b : β} (h : p (a, b) = true) :
    ∀ {l : List (Nat × β)}, l.all p = true → (insertAt a b l).all p = true
  | [], _ => by simp [insertAt, h]
  | (k, v) :: rest, hl => by
    simp only [List.all_cons, Bool.and_eq_true] at hl
    unfold insertAt
    split
    · simp [h, hl.1, hl.2]
    · split
      · simp [h, hl.2]
      · simp [hl.1, all_insertAt p h hl.2]

theorem all_removeAt (p : Nat × β → Bool) (a : Nat) :
    ∀ {l : List (Nat × β)}, l.all p = true → (removeAt a l).all p = true
  | [], _ => rfl
  | (k, v) :: rest, hl => by
    simp only [List.all_cons, Bool.and_eq_true] at hl
    unfold removeAt
    split
    · exact hl.2
    · simp [hl.1, all_removeAt p a hl.2]

/-! ### The device's registers -/

theorem byteAddr_lt (addr : RegAddr) {i : Nat} (hi : i < 2) : byteAddr addr i < 512 := by
  have := addr.isLt
  unfold byteAddr
  omega

/-- R24, R34: a successful write keeps the canonical form. -/
theorem writeHalf_wf {m : List Host.Cell} (addr : RegAddr) (v : Half) (h : Memory.wf m = true) :
    Memory.wf (Memory.writeHalf m addr v) = true := by
  simp only [Memory.wf, Bool.and_eq_true] at h ⊢
  refine ⟨risingFrom_insertAt _ (Nat.zero_le _) (risingFrom_insertAt _ (Nat.zero_le _) h.1), ?_⟩
  exact all_insertAt _ (by simpa using byteAddr_lt addr (by omega))
    (all_insertAt _ (by simpa using byteAddr_lt addr (by omega)) h.2)

/-- R34: forgetting a register keeps the canonical form. -/
theorem forgetHalf_wf {m : List Host.Cell} (addr : RegAddr) (h : Memory.wf m = true) :
    Memory.wf (Memory.forgetHalf m addr) = true := by
  simp only [Memory.wf, Bool.and_eq_true] at h ⊢
  exact ⟨risingFrom_removeAt (risingFrom_removeAt h.1), all_removeAt _ _ (all_removeAt _ _ h.2)⟩

/-- What a byte reads as after a successful write of a register. -/
theorem readByte_writeHalf (m : List Host.Cell) (addr : RegAddr) (v : Half) (a : Nat) :
    Memory.readByte (Memory.writeHalf m addr v) a =
      if a = byteAddr addr 1 then some (v.extractLsb' 0 8)
      else if a = byteAddr addr 0 then some (v.extractLsb' 8 8) else Memory.readByte m a := by
  unfold Memory.readByte Memory.writeHalf
  split
  · next h => rw [h, lookup_insertAt_same]
  · next h =>
    rw [lookup_insertAt_other _ h]
    split
    · next h0 => rw [h0, lookup_insertAt_same]
    · next h0 => rw [lookup_insertAt_other _ h0]

/-- A byte outside a register reads as before after the register is forgotten. -/
theorem readByte_forgetHalf (m : List Host.Cell) (addr : RegAddr) {a : Nat}
    (h0 : a ≠ byteAddr addr 0) (h1 : a ≠ byteAddr addr 1) :
    Memory.readByte (Memory.forgetHalf m addr) a = Memory.readByte m a := by
  unfold Memory.readByte Memory.forgetHalf
  rw [lookup_removeAt_other h1, lookup_removeAt_other h0]

/-! ### The caller's names -/

/-- R64: assigning names keeps their canonical form. -/
theorem assignAll_rising {e : List (Nat × Value)} (as : List (Name × Value)) (h : risingFrom 0 e = true) :
    risingFrom 0 (assignAll e as) = true := by
  induction as generalizing e with
  | nil => exact h
  | cons a as ih => exact ih (risingFrom_insertAt _ (Nat.zero_le _) h)

/-- R64: a name that is not assigned keeps its value. -/
theorem lookup_assignAll_other {n : Name} (as : List (Name × Value)) (h : ∀ a ∈ as, a.1 ≠ n) (e : List (Nat × Value)) :
    lookup (assignAll e as) n = lookup e n := by
  induction as generalizing e with
  | nil => rfl
  | cons a as ih =>
    rw [assignAll_cons, ih (fun b hb => h b (List.mem_cons_of_mem _ hb)),
      lookup_insertAt_other _ (h a List.mem_cons_self).symm]

theorem deliver_rising {s : State} (as : List (Name × Value)) (st : Status) (h : risingFrom 0 s.env = true) :
    risingFrom 0 (s.deliver as st).env = true := assignAll_rising as h

end Sys2Proof.Machine
end

