-- ==== Sys2Proof/Laws/Actions.lean ====
section
/-! SUPPORT. What the actions of the Device Session can do, said once for each: `Moved` is everything a sequence of
accesses leaves unchanged and which accesses it makes; each `do…` has one lemma that gives its outcomes. -/

namespace Sys2Proof.Machine

/-! ### A record of accesses and the transport -/

theorem sameTransport_refl (s : State) : s.sameTransport s := ⟨rfl, rfl, rfl, rfl, rfl⟩

theorem sameTransport_symm {s t : State} (h : s.sameTransport t) : t.sameTransport s :=
  ⟨h.1.symm, h.2.1.symm, h.2.2.1.symm, h.2.2.2.1.symm, h.2.2.2.2.symm⟩

theorem sameTransport_trans {s t u : State} (h : s.sameTransport t) (g : t.sameTransport u) : s.sameTransport u :=
  ⟨g.1.trans h.1, g.2.1.trans h.2.1, g.2.2.1.trans h.2.2.1, g.2.2.2.1.trans h.2.2.2.1, g.2.2.2.2.trans h.2.2.2.2⟩

/-- An answer depends on the mode, the script, the counter and the device. -/
theorem readAnswer_congr {s t : State} (hm : t.mode = s.mode) (hs : t.script = s.script) (hd : t.draws = s.draws)
    (hv : t.device = s.device) (addr : RegAddr) (n : Nat) : t.readAnswer addr n = s.readAnswer addr n := by
  simp only [State.readAnswer, State.nextAnswer, hm, hs, hd, hv]

theorem writeAnswer_congr {s t : State} (hm : t.mode = s.mode) (hs : t.script = s.script) (hd : t.draws = s.draws) :
    t.writeAnswer = s.writeAnswer := by
  simp only [State.writeAnswer, State.nextAnswer, hm, hs, hd]

theorem sameTransport_afterAccess {s t : State} (h : s.sameTransport t) (a : Access) :
    (s.afterAccess a).sameTransport (t.afterAccess a) := by
  obtain ⟨h1, h2, h3, h4, h5⟩ := h
  refine ⟨h1, ?_, ?_, ?_, ?_⟩ <;> simp [State.afterAccess, h2, h3, h4, h5]

/-- A record depends on the transport and the device only. -/
theorem Answered.congr : ∀ {l : List Access} {s t : State}, s.sameTransport t → Answered s l → Answered t l
  | [], _, _, _, _ => trivial
  | a :: l, s, t, h, ⟨ha, hl⟩ => by
    refine ⟨?_, Answered.congr (sameTransport_afterAccess h a) hl⟩
    cases a with
    | read addr n r => exact (ha : r = _).trans (readAnswer_congr h.1 h.2.1 h.2.2.1 h.2.2.2.1 addr n).symm
    | write addr p ok => exact (ha : ok = _).trans (writeAnswer_congr h.1 h.2.1 h.2.2.1).symm

/-- One record after another. -/
theorem Answered.append : ∀ {l r : List Access} {s : State}, Answered s l → Answered (l.foldl State.afterAccess s) r →
    Answered s (l ++ r)
  | [], _, _, _, h => h
  | _ :: _, _, _, ⟨ha, hl⟩, h => ⟨ha, Answered.append hl h⟩

theorem foldl_sameTransport (l : List Access) : ∀ {s t : State}, s.sameTransport t →
    (l.foldl State.afterAccess s).sameTransport (l.foldl State.afterAccess t) := by
  induction l with
  | nil => exact id
  | cons a l ih => exact fun h => ih (sameTransport_afterAccess h a)

theorem foldl_afterAccess_traffic (l : List Access) : ∀ s : State,
    (l.foldl State.afterAccess s).traffic = s.traffic ++ l ∧ (l.foldl State.afterAccess s).draws = s.draws + l.length := by
  induction l with
  | nil => exact fun s => ⟨by simp, rfl⟩
  | cons a l ih =>
    intro s
    obtain ⟨h1, h2⟩ := ih (s.afterAccess a)
    refine ⟨?_, ?_⟩
    · rw [List.foldl_cons, h1]; simp [State.afterAccess]
    · rw [List.foldl_cons, h2, List.length_cons]; simp [State.afterAccess]; omega

@[simp] theorem halfOf_payload16 (v : Half) : halfOf (payload16 v) = v := be16_payload16 v

/-! ### A sequence of accesses -/

/-- A sequence of session accesses leads from `s` to `t`: the cache and the state of the session are spoken of
elsewhere. -/
structure Moved (s t : State) : Prop where
  params : t.params = s.params
  mode : t.mode = s.mode
  hang : t.hang = s.hang
  program : t.program = s.program
  index : t.index = s.index
  stopped : t.stopped = s.stopped
  policy : t.policy = s.policy
  env : t.env = s.env
  statuses : t.statuses = s.statuses
  /-- R32 to R34: the accesses made are of the list, each recorded with the transport's answer to it -/
  accesses : ∃ l, l.all Access.allowed = true ∧ Answered s l ∧ (l.foldl State.afterAccess s).sameTransport t
  wf : Memory.wf s.device = true → Memory.wf t.device = true
  /-- only the bytes of the registers 0x0A and 0x0B can change -/
  others : ∀ a, a < 20 ∨ 24 ≤ a → Memory.readByte t.device a = Memory.readByte s.device a

theorem Moved.refl (s : State) : Moved s s :=
  ⟨rfl, rfl, rfl, rfl, rfl, rfl, rfl, rfl, rfl, ⟨[], rfl, trivial, sameTransport_refl s⟩, id, fun _ _ => rfl⟩

/-- R43: how the accesses extend the run's record. -/
theorem Moved.traffic {s t : State} (h : Moved s t) :
    ∃ l, t.traffic = s.traffic ++ l ∧ l.all Access.allowed = true ∧ Answered s l ∧ t.draws = s.draws + l.length := by
  obtain ⟨l, ha, hl, -, -, hd, -, ht⟩ := h.accesses
  obtain ⟨e1, e2⟩ := foldl_afterAccess_traffic l s
  exact ⟨l, ht.trans e1, ha, hl, hd.trans e2⟩

theorem Moved.trans {s t u : State} (h : Moved s t) (g : Moved t u) : Moved s u := by
  obtain ⟨l, hla, hl, hls⟩ := h.accesses
  obtain ⟨r, hra, hr, hrs⟩ := g.accesses
  refine ⟨g.params.trans h.params, g.mode.trans h.mode, g.hang.trans h.hang, g.program.trans h.program,
    g.index.trans h.index, g.stopped.trans h.stopped, g.policy.trans h.policy, g.env.trans h.env,
    g.statuses.trans h.statuses, ⟨l ++ r, ?_, ?_, ?_⟩, fun w => g.wf (h.wf w),
    fun a ha => (g.others a ha).trans (h.others a ha)⟩
  · rw [List.all_append, hla, hra]; rfl
  · exact hl.append (hr.congr (sameTransport_symm hls))
  · rw [List.foldl_append]
    exact sameTransport_trans (foldl_sameTransport r hls) hrs

/-- Changing the cache or the session is no transport matter. -/
theorem Moved.withCache {s t : State} (h : Moved s t) (c : Option DeviceConfiguration) :
    Moved s { t with cfgCache := c } :=
  ⟨h.params, h.mode, h.hang, h.program, h.index, h.stopped, h.policy, h.env, h.statuses, h.accesses, h.wf, h.others⟩

theorem Moved.fromCache {s t : State} {c : Option DeviceConfiguration} (h : Moved { s with cfgCache := c } t) :
    Moved s t := by
  obtain ⟨l, ha, hl, ht⟩ := h.accesses
  have e : State.sameTransport { s with cfgCache := c } s := sameTransport_refl _
  exact ⟨h.params, h.mode, h.hang, h.program, h.index, h.stopped, h.policy, h.env, h.statuses,
    ⟨l, ha, hl.congr e, sameTransport_trans (sameTransport_symm (foldl_sameTransport l e)) ht⟩, h.wf, h.others⟩

theorem Moved.withSession {s t : State} (h : Moved s t) (x : SessionState) : Moved s { t with session := x } :=
  ⟨h.params, h.mode, h.hang, h.program, h.index, h.stopped, h.policy, h.env, h.statuses, h.accesses, h.wf, h.others⟩

theorem Moved.withInitFailed {s t : State} (h : Moved s t) (x : Bool) : Moved s { t with initFailed := x } :=
  ⟨h.params, h.mode, h.hang, h.program, h.index, h.stopped, h.policy, h.env, h.statuses, h.accesses, h.wf, h.others⟩

/-- One access. -/
theorem afterAccess_moved (s : State) {a : Access} (ha : a.allowed = true) (hs : a.answeredBy s)
    (hw : Memory.wf s.device = true → Memory.wf (Memory.after s.device a) = true)
    (ho : ∀ b, b < 20 ∨ 24 ≤ b → Memory.readByte (Memory.after s.device a) b = Memory.readByte s.device b) :
    Moved s (s.afterAccess a) :=
  ⟨rfl, rfl, rfl, rfl, rfl, rfl, rfl, rfl, rfl, ⟨[a], by simp [ha], ⟨hs, trivial⟩, sameTransport_refl _⟩, hw, ho⟩

theorem accessed_moved (s : State) {addr : RegAddr} {n : Nat} {r : Option (List Byte)}
    (ha : (Access.read addr n r).allowed = true) (hs : r = s.readAnswer addr n) :
    Moved s (s.accessed (.read addr n r)) := afterAccess_moved s ha hs id fun _ _ => rfl

/-! ### The two transport calls -/

/-- R33: a read delivers the bytes or fails; either way it is one access and nothing else. -/
theorem memRead_eq (addr : RegAddr) (n : Nat) (s : State) :
    (∃ bs, s.readAnswer addr n = some bs ∧ memRead addr n s = (.ok bs, s.accessed (.read addr n (some bs)))) ∨
    (s.readAnswer addr n = none ∧
      memRead addr n s = (.error (.transportFailure addr .read), s.accessed (.read addr n none))) := by
  unfold memRead
  cases h : s.readAnswer addr n with
  | some bs => exact .inl ⟨bs, rfl, rfl⟩
  | none => exact .inr ⟨rfl, rfl⟩

/-- R33: a successful read delivers exactly the bytes asked for. -/
theorem readAnswer_length {s : State} {addr : RegAddr} {n : Nat} {bs : List Byte}
    (h : s.readAnswer addr n = some bs) : bs.length = n := by
  unfold State.readAnswer at h
  split at h
  · cases h
  · split at h
    · next hl => cases h; exact hl
    · cases h
  · cases h; simp [echoedBytes]
  · split at h
    · cases h
    · cases h; simp [drawnBytes]

theorem memRead_moved {addr : RegAddr} {n : Nat} (ha : ∀ r, (Access.read addr n r).allowed = true) (s : State) :
    Moved s (memRead addr n s).2 := by
  obtain ⟨bs, e, h⟩ | ⟨e, h⟩ := memRead_eq addr n s <;> rw [h] <;> exact accessed_moved s (ha _) e.symm

theorem memRead_cfgCache (addr : RegAddr) (n : Nat) (s : State) : (memRead addr n s).2.cfgCache = s.cfgCache := by
  obtain ⟨bs, -, h⟩ | ⟨-, h⟩ := memRead_eq addr n s <;> rw [h] <;> rfl

theorem memRead_session (addr : RegAddr) (n : Nat) (s : State) :
    (memRead addr n s).2.session = s.session ∧ (memRead addr n s).2.initFailed = s.initFailed := by
  obtain ⟨bs, -, h⟩ | ⟨-, h⟩ := memRead_eq addr n s <;> rw [h] <;> exact ⟨rfl, rfl⟩

/-- A write of a configuration register succeeds or fails; it touches the registers 0x0A and 0x0B only. -/
theorem memWrite_moved {addr : RegAddr} (ha : addr = addrConfigHi ∨ addr = addrConfigLo) (v : Half) (s : State) :
    Moved s (memWrite addr v s).2 := by
  have hal : ∀ ok, (Access.write addr (payload16 v) ok).allowed = true := by
    intro ok; rcases ha with rfl | rfl <;> rfl
  have hb : ∀ a, a < 20 ∨ 24 ≤ a → a ≠ byteAddr addr 0 ∧ a ≠ byteAddr addr 1 := by
    intro a h
    rcases ha with rfl | rfl
    · exact ⟨by rintro rfl; revert h; decide, by rintro rfl; revert h; decide⟩
    · exact ⟨by rintro rfl; revert h; decide, by rintro rfl; revert h; decide⟩
  unfold memWrite
  cases h : s.writeAnswer with
  | true =>
    have m := afterAccess_moved s (hal true) h.symm (fun w => writeHalf_wf addr _ w) fun a h => by
      rw [Memory.after, readByte_writeHalf, if_neg (hb a h).2, if_neg (hb a h).1]
    rwa [State.afterAccess, Memory.after, halfOf_payload16] at m
  | false =>
    exact afterAccess_moved s (hal false) h.symm (fun w => forgetHalf_wf addr w)
      fun a h => readByte_forgetHalf _ _ (hb a h).1 (hb a h).2

/-- R34: the outcomes of a write. -/
theorem memWrite_eq (addr : RegAddr) (v : Half) (s : State) :
    (s.writeAnswer = true ∧ memWrite addr v s = (.ok (),
      { s.accessed (.write addr (payload16 v) true) with device := Memory.writeHalf s.device addr v })) ∨
    (s.writeAnswer = false ∧ memWrite addr v s = (.error (.transportFailure addr .write),
      { s.accessed (.write addr (payload16 v) false) with device := Memory.forgetHalf s.device addr })) := by
  unfold memWrite
  cases h : s.writeAnswer with
  | true => exact .inl ⟨rfl, rfl⟩
  | false => exact .inr ⟨rfl, rfl⟩

theorem memWrite_session (addr : RegAddr) (v : Half) (s : State) :
    (memWrite addr v s).2.session = s.session ∧ (memWrite addr v s).2.initFailed = s.initFailed
      ∧ (memWrite addr v s).2.cfgCache = s.cfgCache := by
  obtain ⟨-, h⟩ | ⟨-, h⟩ := memWrite_eq addr v s <;> rw [h] <;> exact ⟨rfl, rfl, rfl⟩

/-! ### What an action keeps -/

/-- An action whose accesses are of R32's list and that leaves the session's two flags alone. -/
def Sound {α : Type} (m : Act α) : Prop :=
  ∀ s, Moved s (m s).2 ∧ (m s).2.session = s.session ∧ (m s).2.initFailed = s.initFailed

theorem Sound.andThen {α β : Type} {m : Act α} {f : α → Act β} (hm : Sound m) (hf : ∀ a, Sound (f a)) :
    Sound (m.andThen f) := by
  intro s
  have h := hm s
  unfold Act.andThen
  split
  · next a s' e =>
    rw [e] at h
    have g := hf a s'
    exact ⟨h.1.trans g.1, g.2.1.trans h.2.1, g.2.2.trans h.2.2⟩
  · next e' s' e => rw [e] at h; exact h

theorem Sound.done {α : Type} (a : α) : Sound (Act.done a) := fun s => ⟨Moved.refl s, rfl, rfl⟩

theorem Sound.fail {α : Type} (e : Status) : Sound (Act.fail e : Act α) := fun s => ⟨Moved.refl s, rfl, rfl⟩

theorem memRead_sound {addr : RegAddr} {n : Nat} (ha : ∀ r, (Access.read addr n r).allowed = true) :
    Sound (memRead addr n) := fun s => ⟨memRead_moved ha s, memRead_session addr n s⟩

theorem memWrite_sound {addr : RegAddr} (ha : addr = addrConfigHi ∨ addr = addrConfigLo) (v : Half) :
    Sound (memWrite addr v) := fun s =>
  ⟨memWrite_moved ha v s, (memWrite_session addr v s).1, (memWrite_session addr v s).2.1⟩

theorem doReadConfig_sound : Sound doReadConfig := by
  refine (memRead_sound fun _ => rfl).andThen fun bh => (memRead_sound fun _ => rfl).andThen fun bl s => ?_
  exact ⟨(Moved.refl s).withCache _, rfl, rfl⟩

theorem writeWord_sound (w : Word) : Sound (writeWord w) :=
  (memWrite_sound (.inl rfl) _).andThen fun _ => memWrite_sound (.inr rfl) _

theorem doWriteConfig_sound : Sound doWriteConfig := by
  intro s
  unfold doWriteConfig
  split
  · exact Sound.fail _ s
  · exact writeWord_sound _ s

theorem doSet_sound (f : ConfigField) (v : Nat) : Sound (doSet f v) := by
  intro s
  unfold doSet
  split
  · exact Sound.fail _ s
  · next old hold =>
    have h := doWriteConfig_sound { s with cfgCache := some (old.set f v) }
    split
    · next s' e => rw [e] at h; exact ⟨h.1.fromCache, h.2⟩
    · next e' s' e => rw [e] at h; exact ⟨h.1.fromCache.withCache _, h.2⟩

theorem initSteps_sound : Sound initSteps := by
  refine (memRead_sound fun _ => rfl).andThen fun b s => ?_
  split
  · exact (doReadConfig_sound.andThen fun _ => (doSet_sound _ _).andThen fun _ =>
      doReadConfig_sound.andThen fun _ => Sound.done ()) s
  · exact Sound.fail _ s

theorem doRead_sound : Sound doRead := (memRead_sound fun _ => rfl).andThen fun _ => Sound.done _

/-! ### Which accesses an action makes, and where it ends -/

theorem failure_code {a : Access} {e : Status} (h : a.failure = some e) : e.code = 2 := by
  unfold Access.failure at h
  split at h <;> cases h <;> rfl

/-- Accesses that succeeded, then others. -/
theorem EndsAtFirstFailure.append {r : Status} : ∀ {l k : List Access}, EndsAtFirstFailure l .ok →
    EndsAtFirstFailure k r → EndsAtFirstFailure (l ++ k) r
  | [], _, _, h => h
  | a :: l, k, hl, hk => by
    simp only [List.cons_append, EndsAtFirstFailure] at hl ⊢
    split at hl
    · next e he => rw [← hl.2] at he; cases failure_code he
    · exact EndsAtFirstFailure.append hl hk

theorem EndsAtFirstFailure.withStatus {r : Status} (hr : r.code ≠ 2) {l : List Access} (h : EndsAtFirstFailure l .ok) :
    EndsAtFirstFailure l r := by
  have := h.append (k := []) (r := r) hr
  rwa [List.append_nil] at this

/-- R9, R152: an action makes the accesses `ts` in order, or ends earlier; it ends where an access fails, with the status
of that access. -/
def Trace {α : Type} (ts : List (RegAddr × Direction)) (m : Act α) : Prop :=
  ∀ s, ∃ l, (m s).2.traffic = s.traffic ++ l ∧
    match (m s).1 with
    | .ok _ => EndsAtFirstFailure l .ok ∧ l.map Access.target = ts
    | .error e => EndsAtFirstFailure l e ∧ l.map Access.target <+: ts

theorem Trace.andThen {α β : Type} {m : Act α} {f : α → Act β} {ts us : List (RegAddr × Direction)} (hm : Trace ts m)
    (hf : ∀ a, Trace us (f a)) : Trace (ts ++ us) (m.andThen f) := by
  intro s
  obtain ⟨l, hl, h⟩ := hm s
  unfold Act.andThen
  rcases e : m s with ⟨r, t⟩
  rw [e] at hl h
  cases r with
  | error e' => exact ⟨l, hl, h.1, h.2.trans (List.prefix_append _ _)⟩
  | ok a =>
    obtain ⟨k, hk, g⟩ := hf a t
    refine ⟨l ++ k, by simp only at hl ⊢; rw [hk, hl, List.append_assoc], ?_⟩
    revert g
    simp only
    cases (f a t).1 with
    | ok _ => exact fun g => ⟨h.1.append g.1, by rw [List.map_append, h.2, g.2]⟩
    | error _ => exact fun g => ⟨h.1.append g.1, by rw [List.map_append, h.2]; exact (List.prefix_append_right_inj _).2 g.2⟩

theorem Trace.done {α : Type} (a : α) : Trace [] (Act.done a) := fun s =>
  ⟨[], by simp [Act.done], by simp [EndsAtFirstFailure, Status.code], rfl⟩

theorem Trace.fail {α : Type} {e : Status} (h : e.code ≠ 2) (ts : List (RegAddr × Direction)) :
    Trace ts (Act.fail e : Act α) := fun s => ⟨[], by simp [Act.fail], h, List.nil_prefix⟩

theorem memRead_trace (addr : RegAddr) (n : Nat) : Trace [(addr, .read)] (memRead addr n) := fun s => by
  obtain ⟨bs, -, h⟩ | ⟨-, h⟩ := memRead_eq addr n s <;> rw [h] <;> refine ⟨[_], rfl, ?_⟩ <;>
    simp [EndsAtFirstFailure, Access.failure, Access.target, Status.code]

theorem memWrite_trace (addr : RegAddr) (v : Half) : Trace [(addr, .write)] (memWrite addr v) := fun s => by
  obtain ⟨-, h⟩ | ⟨-, h⟩ := memWrite_eq addr v s <;> rw [h] <;> refine ⟨[_], rfl, ?_⟩ <;>
    simp [EndsAtFirstFailure, Access.failure, Access.target, Status.code]

/-- R99: the two reads of `readConfig`. -/
theorem doReadConfig_trace : Trace [(addrConfigHi, .read), (addrConfigLo, .read)] doReadConfig :=
  (memRead_trace _ _).andThen fun _ => (memRead_trace _ _).andThen (us := []) fun _ s =>
    ⟨[], (List.append_nil _).symm, by simp [EndsAtFirstFailure, Status.code]⟩

/-- R100: the two writes of a configuration word. -/
theorem writeWord_trace (w : Word) : Trace [(addrConfigHi, .write), (addrConfigLo, .write)] (writeWord w) :=
  (memWrite_trace _ _).andThen fun _ => memWrite_trace _ _

theorem doWriteConfig_trace : Trace [(addrConfigHi, .write), (addrConfigLo, .write)] doWriteConfig := by
  intro s
  unfold doWriteConfig
  split
  · exact Trace.fail (by simp [Status.code]) _ s
  · exact writeWord_trace _ s

theorem doSet_trace (f : ConfigField) (v : Nat) :
    Trace [(addrConfigHi, .write), (addrConfigLo, .write)] (doSet f v) := by
  intro s
  unfold doSet
  split
  · exact Trace.fail (by simp [Status.code]) _ s
  · next old _ =>
    obtain ⟨l, hl, h⟩ := doWriteConfig_trace { s with cfgCache := some (old.set f v) }
    split <;> next e => rw [e] at hl h; exact ⟨l, hl, h⟩

/-- R93 to R97: the seven accesses of `init`. -/
theorem initSteps_trace : Trace [(addrDeviceId, .read), (addrConfigHi, .read), (addrConfigLo, .read),
    (addrConfigHi, .write), (addrConfigLo, .write), (addrConfigHi, .read), (addrConfigLo, .read)] initSteps := by
  refine (memRead_trace _ _).andThen fun b s => ?_
  split
  · exact (doReadConfig_trace.andThen fun _ => (doSet_trace _ _).andThen fun _ => doReadConfig_trace.andThen fun _ =>
      Trace.done ()) s
  · exact Trace.fail (by simp [Status.code]) _ s

theorem doInit_trace : Trace [(addrDeviceId, .read), (addrConfigHi, .read), (addrConfigLo, .read),
    (addrConfigHi, .write), (addrConfigLo, .write), (addrConfigHi, .read), (addrConfigLo, .read)] doInit := by
  intro s
  obtain ⟨l, hl, h⟩ := initSteps_trace s
  unfold doInit
  split <;> next e => rw [e] at hl h; exact ⟨l, hl, h⟩

theorem doRead_trace : Trace [(addrChannels, .read)] doRead := (memRead_trace _ _).andThen fun _ => Trace.done _

/-- R32: no more accesses than the action's list has. -/
theorem Trace.bound {α : Type} {m : Act α} {ts : List (RegAddr × Direction)} (h : Trace ts m) (s : State) :
    ∃ l, (m s).2.traffic = s.traffic ++ l ∧ l.length ≤ ts.length ∧
      match (m s).1 with
      | .ok _ => EndsAtFirstFailure l .ok
      | .error e => EndsAtFirstFailure l e := by
  obtain ⟨l, hl, h⟩ := h s
  refine ⟨l, hl, ?_⟩
  cases e : (m s).1 with
  | ok a => rw [e] at h; exact ⟨by rw [← h.2, List.length_map], h.1⟩
  | error a => rw [e] at h; exact ⟨by simpa using h.2.length_le, h.1⟩

/-! ### The cache -/

/-- R99: a successful `readConfig` leaves the configuration it returns in the cache; a failed one leaves the cache
as it was. -/
theorem doReadConfig_cache (s : State) :
    (∃ c t, doReadConfig s = (.ok c, t) ∧ t.cfgCache = some c) ∨
    (∃ addr t, doReadConfig s = (.error (.transportFailure addr .read), t) ∧ t.cfgCache = s.cfgCache) := by
  unfold doReadConfig Act.andThen
  obtain ⟨bh, -, h⟩ | ⟨-, h⟩ := memRead_eq addrConfigHi 2 s
  · simp only [h]
    obtain ⟨bl, -, g⟩ | ⟨-, g⟩ := memRead_eq addrConfigLo 2 (s.accessed (.read addrConfigHi 2 (some bh)))
    · simp only [g]; exact .inl ⟨_, _, rfl, rfl⟩
    · simp only [g]; exact .inr ⟨_, _, rfl, rfl⟩
  · simp only [h]; exact .inr ⟨_, _, rfl, rfl⟩

/-- R100: writing a word leaves the cache alone and fails with `TransportFailure` only. -/
theorem writeWord_cache (w : Word) (s : State) :
    (∃ t, writeWord w s = (.ok (), t) ∧ t.cfgCache = s.cfgCache) ∨
    (∃ addr t, writeWord w s = (.error (.transportFailure addr .write), t) ∧ t.cfgCache = s.cfgCache) := by
  unfold writeWord Act.andThen
  obtain ⟨-, h⟩ | ⟨-, h⟩ := memWrite_eq addrConfigHi (hi16 w) s
  · simp only [h]
    obtain ⟨-, g⟩ | ⟨-, g⟩ := memWrite_eq addrConfigLo (lo16 w)
      { s.accessed (.write addrConfigHi (payload16 (hi16 w)) true) with
        device := Memory.writeHalf s.device addrConfigHi (hi16 w) }
    · simp only [g]; exact .inl ⟨_, rfl, rfl⟩
    · simp only [g]; exact .inr ⟨_, _, rfl, rfl⟩
  · simp only [h]; exact .inr ⟨_, _, rfl, rfl⟩

/-- R101, R103: after a setter the cache holds the new record, or the record it held. -/
theorem doSet_cache (f : ConfigField) (v : Nat) {s : State} {old : DeviceConfiguration}
    (hc : s.cfgCache = some old) :
    (∃ t, doSet f v s = (.ok (), t) ∧ t.cfgCache = some (old.set f v)) ∨
    (∃ addr t, doSet f v s = (.error (.transportFailure addr .write), t) ∧ t.cfgCache = some old) := by
  unfold doSet
  simp only [hc, doWriteConfig]
  obtain ⟨t, h, hcache⟩ | ⟨addr, t, h, -⟩ := writeWord_cache
    (packWord s.params.layout (old.set f v)) { s with cfgCache := some (old.set f v) }
  · simp only [h]; exact .inl ⟨_, rfl, hcache⟩
  · simp only [h]; exact .inr ⟨_, _, rfl, rfl⟩

/-- R93 to R97: `init`'s steps end well with a cached configuration, or with `IdentityMismatch` or
`TransportFailure`. -/
theorem initSteps_cases (s : State) :
    (∃ t, initSteps s = (.ok (), t) ∧ t.cfgCache.isSome = true) ∨
    (∃ e t, initSteps s = (.error e, t) ∧ (e.code = 1 ∨ e.code = 2)) := by
  unfold initSteps Act.andThen
  obtain ⟨b, -, h⟩ | ⟨-, h⟩ := memRead_eq addrDeviceId 2 s
  · simp only [h]
    split
    · obtain ⟨c, t1, h1, hc1⟩ | ⟨addr, t1, h1, -⟩ := doReadConfig_cache (s.accessed (.read addrDeviceId 2 (some b)))
      · simp only [h1]
        obtain ⟨t2, h2, -⟩ | ⟨addr, t2, h2, -⟩ :=
          doSet_cache .operatingMode (s.accessed (.read addrDeviceId 2 (some b))).params.enumMap.continuous.toNat hc1
        · rw [h2]
          obtain ⟨c', t3, h3, hc3⟩ | ⟨addr, t3, h3, -⟩ := doReadConfig_cache t2
          · simp only [h3, Act.done]; exact .inl ⟨_, rfl, by simp [hc3]⟩
          · simp only [h3]; exact .inr ⟨_, _, rfl, .inr rfl⟩
        · rw [h2]; exact .inr ⟨_, _, rfl, .inr rfl⟩
      · simp only [h1]; exact .inr ⟨_, _, rfl, .inr rfl⟩
    · exact .inr ⟨_, _, rfl, .inl rfl⟩
  · simp only [h]; exact .inr ⟨_, _, rfl, .inr rfl⟩

/-- R93, R97: `Ready` is committed when `init` returns `OK`; any failure leaves the session unusable. -/
theorem doInit_cases (s : State) :
    (∃ t, doInit s = (.ok (), t) ∧ Moved s t ∧ t.session = .ready ∧ t.initFailed = s.initFailed
      ∧ t.cfgCache.isSome = true) ∨
    (∃ e t, doInit s = (.error e, t) ∧ Moved s t ∧ t.session = s.session ∧ t.initFailed = true
      ∧ (e.code = 1 ∨ e.code = 2)) := by
  have hs := initSteps_sound s
  unfold doInit
  obtain ⟨t, h, hc⟩ | ⟨e, t, h, he⟩ := initSteps_cases s
  · rw [h] at hs ⊢
    exact .inl ⟨_, rfl, hs.1.withSession _, rfl, hs.2.2, hc⟩
  · rw [h] at hs ⊢
    exact .inr ⟨e, _, rfl, hs.1.withInitFailed _, hs.2.1, rfl, he⟩

end Sys2Proof.Machine
end

