-- ==== Sys2Proof/Laws/Binary64.lean ====
section
/-! SUPPORT. Binary64 rounding, said once: the exponent brackets the magnitude, the rounded magnitude is the nearest
multiple of its last place, every operation answers a binary64 number, and the codes list them all. -/

namespace Sys2Proof

open Machine (IsBinary64)

/-- A power of two as the quotient of two natural ones. -/
theorem two_zpow_eq (u : Int) : (2 : Rat) ^ u = (2 ^ u.toNat : Rat) / 2 ^ (-u).toNat := by
  obtain ⟨n, rfl | rfl⟩ := u.eq_nat_or_neg <;> simp [zpow_neg]

/-- Scaling a fraction by a power of two, in naturals. -/
theorem scaled_div (n d : Nat) (u : Int) :
    ((n * 2 ^ (-u).toNat : Nat) : Rat) / (d * 2 ^ u.toNat : Nat) = (n : Rat) / d / 2 ^ u := by
  rw [two_zpow_eq]
  push_cast
  rcases eq_or_ne (d : Rat) 0 with h | h
  · simp [h]
  · field_simp

/-- The natural nearest the fraction, even when two are as near. -/
theorem roundHalfEven_spec (n : Nat) {d : Nat} (hd : 0 < d) :
    |(roundHalfEven n d : Rat) - n / d| ≤ 1 / 2 ∧
      (|(roundHalfEven n d : Rat) - n / d| = 1 / 2 → roundHalfEven n d % 2 = 0) := by
  have hdq : (0 : Rat) < d := by exact_mod_cast hd
  have hn : (n : Rat) / d = (n / d : Nat) + (n % d : Nat) / d := by
    rw [div_eq_iff hdq.ne', add_mul, div_mul_cancel₀ _ hdq.ne', mul_comm]
    exact_mod_cast (Nat.div_add_mod n d).symm
  have hr : ((n % d : Nat) : Rat) < d := by exact_mod_cast Nat.mod_lt n hd
  have hr0 : (0 : Rat) ≤ ((n % d : Nat) : Rat) / d := by positivity
  unfold roundHalfEven
  split
  · next h =>
    have hq : 2 * ((n % d : Nat) : Rat) < d := by exact_mod_cast h
    have : ((n % d : Nat) : Rat) / d < 1 / 2 := by rw [div_lt_iff₀ hdq]; linarith
    rw [hn, sub_add_cancel_left, abs_neg, abs_of_nonneg hr0]
    exact ⟨this.le, fun e => absurd e this.ne⟩
  · split
    · next h =>
      have hq : (d : Rat) < 2 * ((n % d : Nat) : Rat) := by exact_mod_cast h
      have h1 : ((n % d : Nat) : Rat) / d < 1 := by rw [div_lt_one hdq]; exact hr
      have h2 : 1 / 2 < ((n % d : Nat) : Rat) / d := by rw [lt_div_iff₀ hdq]; linarith
      rw [hn, Nat.cast_add, Nat.cast_one, add_sub_add_left_eq_sub, abs_of_pos (by linarith)]
      exact ⟨by linarith, fun e => by linarith⟩
    · next h h' =>
      have he : 2 * ((n % d : Nat) : Rat) = d := by exact_mod_cast le_antisymm (not_lt.1 h') (not_lt.1 h)
      have : ((n % d : Nat) : Rat) / d = 1 / 2 := by rw [div_eq_iff hdq.ne']; linarith
      rw [hn, this, Nat.cast_add, add_sub_add_left_eq_sub]
      rcases Nat.mod_two_eq_zero_or_one (n / d) with h0 | h0 <;> rw [h0] <;> norm_num <;> omega

/-- The exponent brackets the fraction. -/
theorem binaryExponent_spec {n d : Nat} (hn : 0 < n) (hd : 0 < d) :
    (2 : Rat) ^ binaryExponent n d ≤ n / d ∧ (n : Rat) / d < 2 ^ (binaryExponent n d + 1) := by
  have hdq : (0 : Rat) < d := by exact_mod_cast hd
  have n1 : ((2 ^ n.log2 : Nat) : Rat) ≤ n := by exact_mod_cast Nat.log2_self_le hn.ne'
  have n2 : (n : Rat) < (2 ^ (n.log2 + 1) : Nat) := by exact_mod_cast Nat.lt_log2_self
  have d1 : ((2 ^ d.log2 : Nat) : Rat) ≤ d := by exact_mod_cast Nat.log2_self_le hd.ne'
  have d2 : (d : Rat) < (2 ^ (d.log2 + 1) : Nat) := by exact_mod_cast Nat.lt_log2_self
  push_cast at n1 n2 d1 d2
  have hp : ∀ z : Int, (0 : Rat) < 2 ^ z := fun z => zpow_pos (by norm_num) z
  set e : Int := (n.log2 : Int) - d.log2 with he
  have en : (2 : Rat) ^ n.log2 = 2 ^ e * 2 ^ d.log2 := by
    rw [← zpow_natCast, ← zpow_natCast, ← zpow_add₀ (by norm_num)]; congr 1; omega
  have hlow : (2 : Rat) ^ (e - 1) ≤ n / d := by
    rw [le_div_iff₀ hdq, zpow_sub_one₀ (by norm_num)]
    rw [pow_succ] at d2
    nlinarith [hp e]
  have hhigh : (n : Rat) / d < 2 ^ (e + 1) := by
    rw [div_lt_iff₀ hdq, zpow_add_one₀ (by norm_num)]
    rw [pow_succ] at n2
    nlinarith [hp e]
  have test : n * 2 ^ (-e).toNat < d * 2 ^ e.toNat ↔ (n : Rat) / d < 2 ^ e := by
    rw [← div_lt_one (hp e), ← scaled_div, div_lt_one (by positivity)]
    exact_mod_cast Iff.rfl
  unfold binaryExponent
  simp only [← he, test]
  split
  · next h => exact ⟨hlow, by rwa [sub_add_cancel]⟩
  · next h => exact ⟨not_lt.1 h, hhigh⟩

/-- R138: a rounded magnitude is the multiple of its last place nearest the fraction, the even one of two; and the last
place is the one that 53 bits leave, or the smallest there is. -/
theorem roundMagnitude_spec {n d : Nat} (hn : 0 < n) (hd : 0 < d) :
    ∃ (m : Nat) (u : Int), roundMagnitude n d = m * (2 : Rat) ^ u
      ∧ |(m : Rat) - n / d / 2 ^ u| ≤ 1 / 2 ∧ (|(m : Rat) - n / d / 2 ^ u| = 1 / 2 → m % 2 = 0)
      ∧ -1074 ≤ u ∧ (n : Rat) / d / 2 ^ u < 2 ^ 53 ∧ (-1074 < u → 2 ^ 52 ≤ (n : Rat) / d / 2 ^ u) := by
  obtain ⟨h1, h2⟩ := binaryExponent_spec hn hd
  have hp : ∀ z : Int, (0 : Rat) < 2 ^ z := fun z => zpow_pos (by norm_num) z
  set u := lastPlace n d with hu
  have hD : 0 < d * 2 ^ u.toNat := by positivity
  obtain ⟨r1, r2⟩ := roundHalfEven_spec (n * 2 ^ (-u).toNat) hD
  rw [scaled_div] at r1 r2
  refine ⟨_, u, ?_, r1, r2, le_max_right _ _, ?_, fun h => ?_⟩
  · rw [roundMagnitude]
    simp only [← hu]
    rw [Rat.mkRat_eq_div, two_zpow_eq u]
    push_cast
    ring
  · rw [div_lt_iff₀ (hp u), ← zpow_natCast, ← zpow_add₀ (by norm_num)]
    refine h2.trans_le (zpow_le_zpow_right₀ (by norm_num) ?_)
    have : binaryExponent n d - 52 ≤ u := le_max_left _ _
    push_cast
    omega
  · have : u = binaryExponent n d - 52 := by
      rw [hu, lastPlace] at h ⊢
      exact max_eq_left ((lt_max_iff.1 h).resolve_right (lt_irrefl _)).le
    rw [le_div_iff₀ (hp u), ← zpow_natCast, ← zpow_add₀ (by norm_num)]
    refine le_trans (le_of_eq ?_) h1
    rw [this]
    congr 1
    push_cast
    omega

theorem IsBinary64.neg {q : Rat} (h : IsBinary64 q) : IsBinary64 (-q) := by
  obtain ⟨m, e, hm, h1, h2, rfl⟩ := h
  exact ⟨-m, e, by rwa [abs_neg], h1, h2, by push_cast; ring⟩

theorem isBinary64_zero : IsBinary64 0 := ⟨0, 0, by norm_num, by norm_num, by norm_num, by norm_num⟩

/-- A rounded magnitude below `2^1024` is a binary64 number. -/
theorem roundMagnitude_isBinary64 {n d : Nat} (hn : 0 < n) (hd : 0 < d) (h : roundMagnitude n d < 2 ^ 1024) :
    IsBinary64 (roundMagnitude n d) := by
  obtain ⟨m, u, hr, hm, -, hu, hlt, hge⟩ := roundMagnitude_spec hn hd
  rw [abs_le] at hm
  have hm2 : m ≤ 2 ^ 53 := by
    have : (m : Rat) < (2 ^ 53 + 1 : Nat) := by push_cast; linarith
    exact Nat.lt_succ_iff.1 (by exact_mod_cast this)
  have hu2 : u ≤ 971 := by
    by_contra hc
    have h1 : (2 : Rat) ^ 52 - 1 / 2 ≤ m := by linarith [hge (by omega)]
    have h2 : (2 : Rat) ^ 972 ≤ 2 ^ u := by
      rw [← zpow_natCast]
      exact zpow_le_zpow_right₀ (by norm_num) (by push_cast; omega)
    have hm1 : (2 ^ 52 : Nat) ≤ m := by
      have : ((2 ^ 52 : Nat) : Rat) < m + 1 := by push_cast; linarith
      exact Nat.lt_succ_iff.1 (by exact_mod_cast this)
    have hm1q : (2 : Rat) ^ 52 ≤ m := by exact_mod_cast hm1
    have h3 : (2 : Rat) ^ 52 * 2 ^ 972 ≤ m * 2 ^ u := mul_le_mul hm1q h2 (by positivity) (by positivity)
    rw [← pow_add] at h3
    rw [hr] at h
    exact absurd h (not_lt.2 h3)
  rw [hr]
  rcases hm2.lt_or_eq with hl | rfl
  · exact ⟨m, u, by rw [Nat.abs_cast]; exact_mod_cast hl, hu, hu2, by norm_cast⟩
  · refine ⟨2 ^ 52, u + 1, by norm_num, by omega, ?_, ?_⟩
    · by_contra hc
      have : u = 971 := by omega
      rw [hr, this, Nat.cast_pow, Nat.cast_ofNat] at h
      have e : (2 : Rat) ^ 53 * 2 ^ (971 : Int) = 2 ^ 1024 := by
        rw [← zpow_natCast, ← zpow_natCast, ← zpow_add₀ (by norm_num)]; congr 1
      exact absurd h (not_lt.2 e.ge)
    · rw [zpow_add_one₀ (by norm_num)]; push_cast; ring

/-- R138: a finite rounding is a binary64 number. -/
theorem round64_isBinary64 {q r : Rat} (h : round64 q = .finite r) : IsBinary64 r := by
  unfold round64 at h
  simp only at h
  split at h
  · cases h; exact isBinary64_zero
  · next h0 =>
    have hn : 0 < q.num.natAbs := Int.natAbs_pos.2 (Rat.num_ne_zero.2 h0)
    split at h
    · split at h <;> cases h
    · next hb =>
      have := roundMagnitude_isBinary64 hn q.den_pos (by rw [not_le, Nat.cast_pow, Nat.cast_ofNat] at hb; exact hb)
      split at h <;> cases h
      · exact IsBinary64.neg this
      · exact this

theorem natCast_lt_two_pow {n k : Nat} (h : n < 2 ^ 53) (hk : 53 < k) : ¬ ((2 ^ k : Nat) : Rat) ≤ n :=
  not_le.2 (Nat.cast_lt.2 (h.trans (Nat.pow_lt_pow_right one_lt_two hk)))

/-- R121: an integer of 53 bits is converted exactly. -/
theorem round64_natCast {n : Nat} (h : n < 2 ^ 53) : round64 n = .finite n := by
  rcases Nat.eq_zero_or_pos n with rfl | hn
  · simp [round64]
  obtain ⟨m, u, hr, hm, -, -, -, hge⟩ := roundMagnitude_spec hn one_pos
  rw [Nat.cast_one, div_one] at hm hge
  have hu : u ≤ 0 := by
    by_contra hc
    have h1 := hge (by omega)
    have h2 : (2 : Rat) ≤ 2 ^ u := by
      calc (2 : Rat) = 2 ^ (1 : Int) := (zpow_one 2).symm
        _ ≤ 2 ^ u := zpow_le_zpow_right₀ (by norm_num) (by omega)
    have h3 : (n : Rat) < 2 ^ 53 := by exact_mod_cast h
    rw [le_div_iff₀ (by linarith)] at h1
    nlinarith
  obtain ⟨k, rfl⟩ : ∃ k : Nat, u = -k := ⟨(-u).toNat, by omega⟩
  have hk : (m : Rat) = n * 2 ^ k := by
    rw [zpow_neg, zpow_natCast, div_inv_eq_mul, ← Nat.cast_ofNat (R := Rat), ← Nat.cast_pow, ← Nat.cast_mul] at hm
    have : |(m : Int) - (n * 2 ^ k : Nat)| < 1 := by
      have : |((m : Int) - (n * 2 ^ k : Nat) : Rat)| < 1 := by push_cast at hm ⊢; linarith
      exact_mod_cast this
    have : (m : Int) = (n * 2 ^ k : Nat) := sub_eq_zero.1 (Int.abs_lt_one_iff.1 this)
    exact_mod_cast this
  have ha : roundMagnitude n 1 = n := by
    rw [hr, hk, zpow_neg, zpow_natCast, mul_assoc, mul_inv_cancel₀ (by positivity), mul_one]
  unfold round64
  have h0 : (n : Rat) ≠ 0 := by exact_mod_cast hn.ne'
  have hb := natCast_lt_two_pow h (by decide : 53 < 1024)
  have hp : ¬ ((n : Rat) < 0) := not_lt.2 (Nat.cast_nonneg n)
  simp only [Rat.num_natCast, Int.natAbs_natCast, Rat.den_natCast, ha, if_neg h0, if_neg hb, if_neg hp]

/-! ### The operations of R138 answer binary64 numbers -/

/-- A value that, when it is a number, is one binary64 can hold. -/
def Is64 (x : Binary64) : Prop := ∀ q, x.number = some q → IsBinary64 q

theorem round64_is64 (q : Rat) : Is64 (round64 q) := fun r h => by
  cases hq : round64 q <;> rw [hq] at h <;> cases h
  exact round64_isBinary64 hq

theorem infinity64_is64 (k : Int) : Is64 (infinity64 k) := fun q h => by
  unfold infinity64 at h
  split at h
  · cases h
  · split at h <;> cases h

theorem add64_is64 {a b : Binary64} : Is64 (add64 a b) := by
  cases a <;> cases b <;> first | exact round64_is64 _ | (intro q h; cases h)

theorem sub64_is64 {a b : Binary64} : Is64 (sub64 a b) := add64_is64

theorem mul64_is64 {a b : Binary64} : Is64 (mul64 a b) := by
  cases a <;> cases b <;>
    first | exact round64_is64 _ | exact infinity64_is64 _ | (intro q h; cases h)

theorem div64_is64 {a b : Binary64} : Is64 (div64 a b) := by
  cases a <;> cases b <;>
    first | exact round64_is64 _ | exact infinity64_is64 _ | (intro q h; cases h; exact isBinary64_zero) | (intro q h; cases h)

/-! ### The codes -/

theorem code_magnitude (a b : Nat) : mkRat (a * 2 ^ b : Nat) (2 ^ 1074) = ((a : Nat) : Rat) * 2 ^ ((b : Int) - 1074) := by
  generalize hk : 1074 = k
  rw [Rat.mkRat_eq_div, zpow_sub₀ (by norm_num)]
  have : ((1074 : Int)) = (k : Int) := by rw [← hk]; rfl
  rw [this, zpow_natCast, zpow_natCast, ← mul_div_assoc]
  push_cast
  rfl

theorem numberOfCode_isBinary64 (k : Nat) : IsBinary64 (numberOfCode k) := by
  have h : IsBinary64 (mkRat (k % 2 ^ 53 * 2 ^ (k / 2 ^ 53 % 2046) : Nat) (2 ^ 1074)) := by
    refine ⟨(k % 2 ^ 53 : Nat), (k / 2 ^ 53 % 2046 : Nat) - 1074, ?_, by omega, by omega, ?_⟩
    · rw [Nat.abs_cast]
      exact_mod_cast Nat.mod_lt k (by norm_num)
    · rw [Int.cast_natCast]; exact code_magnitude _ _
  unfold numberOfCode
  simp only
  split
  · exact h
  · exact IsBinary64.neg h

/-- Every binary64 number has a code. -/
theorem exists_code {q : Rat} (h : IsBinary64 q) : ∃ k < codes64, numberOfCode k = q := by
  obtain ⟨m, e, hm, h1, h2, rfl⟩ := h
  obtain ⟨j, hj⟩ : ∃ j : Nat, e = (j : Int) - 1074 := ⟨(e + 1074).toNat, by omega⟩
  subst hj
  have hjb : j < 2046 := by omega
  have hmb : m.natAbs < 2 ^ 53 := by rw [Int.abs_eq_natAbs] at hm; omega
  have key : ∀ s : Nat, numberOfCode (m.natAbs + 2 ^ 53 * (j + 2046 * s))
      = if s = 0 then (m.natAbs : Rat) * 2 ^ ((j : Int) - 1074) else -((m.natAbs : Rat) * 2 ^ ((j : Int) - 1074)) := by
    intro s
    have e1 : (m.natAbs + 2 ^ 53 * (j + 2046 * s)) % 2 ^ 53 = m.natAbs := by
      rw [Nat.add_mul_mod_self_left, Nat.mod_eq_of_lt hmb]
    have e2 : (m.natAbs + 2 ^ 53 * (j + 2046 * s)) / 2 ^ 53 = j + 2046 * s := by
      rw [Nat.add_mul_div_left _ _ (by norm_num), Nat.div_eq_of_lt hmb, Nat.zero_add]
    have e3 : (j + 2046 * s) % 2046 = j := by rw [Nat.add_mul_mod_self_left, Nat.mod_eq_of_lt hjb]
    have e4 : (j + 2046 * s) / 2046 = s := by
      rw [Nat.add_mul_div_left _ _ (by norm_num), Nat.div_eq_of_lt hjb, Nat.zero_add]
    have e5 : (mkRat (m.natAbs * 2 ^ j : Nat) (2 ^ 1074) : Rat) = (m.natAbs : Rat) * 2 ^ ((j : Int) - 1074) :=
      code_magnitude _ _
    unfold numberOfCode
    simp only [e1, ← Nat.div_div_eq_div_mul, e2, e3, e4, e5]
  rcases le_or_gt 0 m with h0 | h0
  · refine ⟨_, ?_, (key 0).trans ?_⟩
    · simp only [codes64]; omega
    · rw [if_pos rfl]; congr 1; rw [Nat.cast_natAbs, abs_of_nonneg h0]
  · refine ⟨_, ?_, (key 1).trans ?_⟩
    · simp only [codes64]; omega
    · rw [if_neg one_ne_zero, ← neg_mul]; congr 1
      rw [Nat.cast_natAbs, abs_of_neg h0, Int.cast_neg, neg_neg]

end Sys2Proof
end

