-- ==== Sys2Proof/Laws/Exec.lean ====
section
/-! SUPPORT. What an invocation can do, said once for each shape: a block operation, a session call, a setter. -/

namespace Sys2Proof.Machine

/-- An operand denotes a value, or the operation is a fault of the run. -/
theorem withOperand_cases {α : Type} (v : Except Fault α) (k : α → Host.Outcome State Fault Refusal) :
    (∃ a, v = .ok a ∧ withOperand v k = k a) ∨ (∃ f, v = .error f ∧ withOperand v k = .fault f) := by
  cases v with
  | ok a => exact .inl ⟨a, rfl, rfl⟩
  | error f => exact .inr ⟨f, rfl, rfl⟩

@[simp] theorem withOperand_ok {α : Type} (a : α) (k : α → Host.Outcome State Fault Refusal) :
    withOperand (.ok a) k = k a := rfl

@[simp] theorem withOperand_error {α : Type} (f : Fault) (k : α → Host.Outcome State Fault Refusal) :
    withOperand (.error f) k = .fault f := rfl

/-! ### Session calls -/

/-- The status with which a session operation that ran to its end reports. -/
def endStatus (r : Except Status (List (Name × Value) × Status) × State) : Status :=
  match r.1 with
  | .ok (_, st) => st
  | .error e => e

/-- R162: however an operation ends, its end is one delivery on the state its accesses left. -/
theorem finishCall_deliver (st : Name) (r : Except Status (List (Name × Value) × Status) × State) :
    ∃ as, finishCall st r = r.2.deliver as (endStatus r) := by
  obtain ⟨(_ | ⟨as, status⟩), s'⟩ := r
  · exact ⟨_, rfl⟩
  · exact ⟨_, rfl⟩

/-- R92, R114, R158: what a session call can answer. -/
theorem callSession_next {ta : Option Status} {st : Name} {run : Act (List (Name × Value) × Status)} {s t : State}
    (h : callSession ta st run s = .next t) :
    (∃ e, ta = some e ∧ t = s.deliver [(st, .status e)] e) ∨
    (ta = none ∧ s.hang = false ∧ t = finishCall st (run s)) := by
  unfold callSession at h
  split at h
  · next e => injection h with h; exact .inl ⟨e, rfl, h.symm⟩
  · split at h
    · cases h
    · next hh => injection h with h; exact .inr ⟨rfl, by simpa using hh, h.symm⟩

theorem callSession_runs {st : Name} {run : Act (List (Name × Value) × Status)} {s : State}
    (hh : s.hang = false) : callSession none st run s = .next (finishCall st (run s)) := by
  simp [callSession, hh]

theorem callSession_turned {e : Status} {st : Name} {run : Act (List (Name × Value) × Status)} {s : State} :
    callSession (some e) st run s = .next (s.deliver [(st, .status e)] e) := rfl

/-- A setter's call: its operand denotes a number, and the call is a session call of that number. -/
theorem callSetter_next {f : ConfigField} {st : Name} {o : Operand Nat} {s t : State}
    (h : callSetter f st o s = .next t) :
    ∃ v, evalOperand s Value.asField o = .ok v
      ∧ callSession (s.setterTurnsAway f v) st (statusOnly (doSet f v)) s = .next t := by
  unfold callSetter at h
  obtain ⟨v, hv, e⟩ | ⟨f', -, e⟩ := withOperand_cases (evalOperand s Value.asField o) (fun v =>
    callSession (s.setterTurnsAway f v) st (statusOnly (doSet f v)) s) <;> rw [e] at h
  · exact ⟨v, hv, h⟩
  · cases h

/-- `Ready` on a session is what the session operations want. -/
@[simp] theorem usable_of_ready {s : State} (h : s.session = .ready) : s.usable = true := by simp [State.usable, h]

theorem turnsAway_of_ready {s : State} (h : s.session = .ready) : s.turnsAway = none := by
  simp [State.turnsAway, h]

theorem writeTurnsAway_of_ready {s : State} {c : DeviceConfiguration} (h : s.session = .ready)
    (hc : s.cfgCache = some c) : s.writeTurnsAway = none := by
  simp [State.writeTurnsAway, h, hc]

theorem setterTurnsAway_of_ready {s : State} {c : DeviceConfiguration} {f : ConfigField} {v : Nat}
    (h : s.session = .ready) (hc : s.cfgCache = some c) (hv : v < 2 ^ f.width) : s.setterTurnsAway f v = none := by
  simp [State.setterTurnsAway, writeTurnsAway_of_ready h hc, ConfigField.fits, hv]

/-- R158: the only status with which a call is turned away, but for a setter's `OperandOutOfRange`. -/
theorem turnsAway_eq {s : State} {e : Status} (h : s.turnsAway = some e) : e = .notReady := by
  unfold State.turnsAway at h
  split at h
  · cases h
  · injection h with h; exact h.symm

theorem initTurnsAway_eq {s : State} {e : Status} (h : s.initTurnsAway = some e) : e = .notReady := by
  unfold State.initTurnsAway at h
  split at h
  · cases h
  · injection h with h; exact h.symm

theorem writeTurnsAway_eq {s : State} {e : Status} (h : s.writeTurnsAway = some e) : e = .notReady := by
  unfold State.writeTurnsAway at h
  split at h
  · cases h
  · injection h with h; exact h.symm

theorem setterTurnsAway_eq {s : State} {f : ConfigField} {v : Nat} {e : Status}
    (h : s.setterTurnsAway f v = some e) : e = .notReady ∨ e = .operandOutOfRange f v := by
  unfold State.setterTurnsAway at h
  split at h
  · next e' he => injection h with h; exact .inl (h ▸ writeTurnsAway_eq he)
  · split at h
    · cases h
    · injection h with h; exact .inr h.symm

/-! ### Block operations -/

/-- R64, R76, R139: a block operation that ends delivers on the state as it was, to its destination at most, with a status
R159 allows it. -/
theorem exec_block {i : Instr} (hi : isMacro i = false) (s : State) :
    (∃ as st, exec i s = .next (s.deliver as st) ∧ statusAllowed i st = true ∧ ∀ a ∈ as, a.1 ∈ destinations i) ∨ (∃ f, exec i s = .fault f) := by
  cases i with
  | packConfig d o =>
    rcases h : evalConfig s o with f | a
    · exact .inr ⟨f, by simp only [exec, execPackConfig, h, withOperand_error]⟩
    · obtain ⟨f, v⟩ | c := a
      · exact .inl ⟨_, _, by simp only [exec, execPackConfig, h, withOperand_ok]; rfl, rfl, by simp [destinations]⟩
      · exact .inl ⟨_, _, by simp only [exec, execPackConfig, h, withOperand_ok]; rfl, rfl, by simp [destinations]⟩
  | unpackConfig d o =>
    rcases h : evalOperand s Value.asWord o with f | a
    · exact .inr ⟨f, by simp only [exec, execUnpackConfig, h, withOperand_error]⟩
    · exact .inl ⟨_, _, by simp only [exec, execUnpackConfig, h, withOperand_ok]; rfl, rfl, by simp [destinations]⟩
  | unpackChannel d o =>
    rcases h : evalOperand s Value.asWord o with f | a
    · exact .inr ⟨f, by simp only [exec, execUnpackChannel, h, withOperand_error]⟩
    · exact .inl ⟨_, _, by simp only [exec, execUnpackChannel, h, withOperand_ok]; rfl, rfl, by simp [destinations]⟩
  | crcValid d o =>
    rcases h : evalOperand s Value.asChannel o with f | a
    · exact .inr ⟨f, by simp only [exec, execCrcValid, h, withOperand_error]⟩
    · exact .inl ⟨_, _, by simp only [exec, execCrcValid, h, withOperand_ok]; rfl, rfl, by simp [destinations]⟩
  | reconstruct d o =>
    rcases h : evalOperand s Value.asChannel o with f | a
    · exact .inr ⟨f, by simp only [exec, execReconstruct, h, withOperand_error]⟩
    · exact .inl ⟨_, _, by simp only [exec, execReconstruct, h, withOperand_ok]; rfl, rfl, by simp [destinations]⟩
  | rawToXYZ d o =>
    rcases h : evalSet s o with f | a
    · exact .inr ⟨f, by simp only [exec, execRawToXYZ, h, withOperand_error]⟩
    · refine .inl ⟨_, _, by simp only [exec, execRawToXYZ, h, withOperand_ok]; rfl, ?_, by simp [destinations]⟩
      unfold xyzStatus
      split <;> rfl
  | xyzToRGB d o =>
    rcases h : evalOperand s Value.asXYZ o with f | a
    · exact .inr ⟨f, by simp only [exec, execXyzToRGB, h, withOperand_error]⟩
    · simp only [exec, execXyzToRGB, h, withOperand_ok]
      split <;> exact .inl ⟨_, _, rfl, rfl, by simp [destinations]⟩
  | linearToSRGB d o =>
    rcases h : evalOperand s Value.asNum o with f | a
    · exact .inr ⟨f, by simp only [exec, execLinearToSRGB, h, withOperand_error]⟩
    · exact .inl ⟨_, _, by simp only [exec, execLinearToSRGB, h, withOperand_ok]; rfl, rfl, by simp [destinations]⟩
  | xyzToCCT d o =>
    rcases h : evalOperand s Value.asXYZ o with f | a
    · exact .inr ⟨f, by simp only [exec, execXyzToCCT, h, withOperand_error]⟩
    · simp only [exec, execXyzToCCT, h, withOperand_ok]
      split
      · exact .inl ⟨_, _, rfl, rfl, by simp [destinations]⟩
      · split <;> exact .inl ⟨_, _, rfl, rfl, by simp [destinations]⟩
  | _ => cases hi

/-! ### Session operations -/

/-- R101: a setter is the generic setter of its field. -/
theorem exec_setter {e : ConfigField × (Name → Operand Nat → Instr)} (he : e ∈ setters) (st : Name)
    (o : Operand Nat) (s : State) : exec (e.2 st o) s = callSetter e.1 st o s := by
  simp only [setters, List.mem_cons, List.not_mem_nil, or_false] at he
  rcases he with rfl | rfl | rfl | rfl | rfl | rfl | rfl | rfl | rfl | rfl <;> rfl

theorem setter_statusAllowed {e : ConfigField × (Name → Operand Nat → Instr)} (he : e ∈ setters) (st : Name)
    (o : Operand Nat) (r : Status) :
    statusAllowed (e.2 st o) r = (r.code == 0 || r.code == 2 || r.code == 7 || r.code == 8) := by
  simp only [setters, List.mem_cons, List.not_mem_nil, or_false] at he
  rcases he with rfl | rfl | rfl | rfl | rfl | rfl | rfl | rfl | rfl | rfl <;> rfl

theorem setter_destinations {e : ConfigField × (Name → Operand Nat → Instr)} (he : e ∈ setters) (st : Name)
    (o : Operand Nat) : destinations (e.2 st o) = [st] := by
  simp only [setters, List.mem_cons, List.not_mem_nil, or_false] at he
  rcases he with rfl | rfl | rfl | rfl | rfl | rfl | rfl | rfl | rfl | rfl <;> rfl

/-- R65: the fourteen macro operations. -/
theorem isMacro_cases {i : Instr} (h : isMacro i = true) :
    (∃ st, i = .init st) ∨ (∃ a b st, i = .read a b st) ∨ (∃ a st, i = .readConfig a st) ∨ (∃ st, i = .writeConfig st)
      ∨ (∃ e ∈ setters, ∃ st o, i = e.2 st o) := by
  cases i <;> simp only [isMacro, Bool.false_eq_true] at h <;> simp [setters]

theorem ready_of_turnsAway {s : State} (h : s.turnsAway = none) : s.session = .ready := by
  unfold State.turnsAway State.usable at h
  split at h
  · next hx => simpa using hx
  · cases h

theorem ready_of_writeTurnsAway {s : State} (h : s.writeTurnsAway = none) :
    s.session = .ready ∧ ∃ c, s.cfgCache = some c := by
  unfold State.writeTurnsAway State.usable at h
  split at h
  · next hx => simp at hx; exact ⟨hx.1, Option.isSome_iff_exists.1 hx.2⟩
  · cases h

/-- What a session operation that ends has done: at most seven accesses that led to a state `u`, ended by the first that
failed, and the delivery of a status R159 allows it on `u`, to its destinations only; the session is spoken of by `init`
alone, the cache by `init`, `readConfig` and the setters. -/
def Effect (i : Instr) (s t : State) : Prop :=
  ∃ u as r, Moved s u ∧ t = u.deliver as r ∧ (∀ a ∈ as, a.1 ∈ destinations i) ∧ statusAllowed i r = true ∧
    (∃ l, u.traffic = s.traffic ++ l ∧ l.length ≤ 7 ∧ EndsAtFirstFailure l r) ∧
    ((∃ st, i = .init st ∧ s.session = .uninitialized ∧ s.initFailed = false ∧
        ((r = .ok ∧ u.session = .ready ∧ u.initFailed = false ∧ u.cfgCache.isSome = true) ∨
         (u.session = s.session ∧ u.initFailed = true))) ∨
     (u.session = s.session ∧ u.initFailed = s.initFailed ∧
        (u.cfgCache = s.cfgCache ∨
         (s.session = .ready ∧ u.cfgCache.isSome = true ∧
            ((∃ c st, i = .readConfig c st) ∨ (∃ e ∈ setters, ∃ st o, i = e.2 st o))))))

theorem Effect.turnedAway {i : Instr} {s : State} {st : Name} {e : Status} (hd : st ∈ destinations i)
    (h : statusAllowed i e = true) (hc : e.code ≠ 2) : Effect i s (s.deliver [(st, .status e)] e) :=
  ⟨s, _, e, Moved.refl s, rfl, by simpa using hd, h, ⟨[], by simp, by simp, hc⟩, .inr ⟨rfl, rfl, .inl rfl⟩⟩

/-- R90 to R117: what a session operation that ends has done. -/
theorem exec_effect (i : Instr) (hi : isMacro i = true) (s t : State) (h : exec i s = .next t) : Effect i s t := by
  rcases isMacro_cases hi with ⟨st, rfl⟩ | ⟨a, b, st, rfl⟩ | ⟨a, st, rfl⟩ | ⟨st, rfl⟩ | ⟨e, he, st, o, rfl⟩
  · simp only [exec, execInit] at h
    obtain ⟨e, he, rfl⟩ | ⟨hn, hh, rfl⟩ := callSession_next h
    · rw [initTurnsAway_eq he]; exact Effect.turnedAway (by simp [destinations]) rfl (by simp [Status.code])
    · have hu : s.session = .uninitialized ∧ s.initFailed = false := by
        unfold State.initTurnsAway at hn; split at hn
        · next hx => simpa using hx
        · cases hn
      obtain ⟨l, hl, hlen, hc⟩ := doInit_trace.bound s
      obtain ⟨u, hd, hm, h1, h2, h3⟩ | ⟨e, u, hd, hm, h1, h2, h3⟩ := doInit_cases s <;> rw [hd] at hl hc
      · exact ⟨u, [(st, .status .ok)], .ok, hm, by simp [statusOnly, Act.andThen, hd, Act.done, finishCall], by simp [destinations], rfl, ⟨l, hl, hlen, hc⟩,
          .inl ⟨st, rfl, hu.1, hu.2, .inl ⟨rfl, h1, h2.trans hu.2, h3⟩⟩⟩
      · exact ⟨u, [(st, .status e)], e, hm, by simp [statusOnly, Act.andThen, hd, finishCall], by simp [destinations],
          by rcases h3 with h3 | h3 <;> simp [statusAllowed, h3], ⟨l, hl, hlen, hc⟩,
          .inl ⟨st, rfl, hu.1, hu.2, .inr ⟨h1, h2⟩⟩⟩
  · simp only [exec, execRead] at h
    obtain ⟨e, he, rfl⟩ | ⟨hn, hh, rfl⟩ := callSession_next h
    · rw [turnsAway_eq he]; exact Effect.turnedAway (by simp [destinations]) rfl (by simp [Status.code])
    · obtain ⟨l, hl, hlen, hc⟩ := (memRead_trace addrChannels 16).bound s
      unfold doRead Act.andThen
      obtain ⟨bs, hb, hr⟩ | ⟨hb, hr⟩ := memRead_eq addrChannels 16 s <;> rw [hr] at hl hc <;>
        simp only [hr, finishCall, Act.done]
      · refine ⟨_, _, _, accessed_moved s rfl hb.symm, rfl, by simp [destinations], ?_,
          ⟨l, hl, hlen.trans (by simp), hc.withStatus ?_⟩, .inr ⟨rfl, rfl, .inl rfl⟩⟩ <;>
          (unfold crcStatus; split <;> simp [statusAllowed, Status.code])
      · exact ⟨_, _, _, accessed_moved s rfl hb.symm, rfl, by simp [destinations], rfl,
          ⟨l, hl, hlen.trans (by simp), hc⟩, .inr ⟨rfl, rfl, .inl rfl⟩⟩
  · simp only [exec, execReadConfig] at h
    obtain ⟨e, he, rfl⟩ | ⟨hn, hh, rfl⟩ := callSession_next h
    · rw [turnsAway_eq he]; exact Effect.turnedAway (by simp [destinations]) rfl (by simp [Status.code])
    · have hs := doReadConfig_sound s
      obtain ⟨l, hl, hlen, hc⟩ := (doReadConfig_trace).bound s
      unfold Act.andThen
      obtain ⟨c, u, hd, hx⟩ | ⟨ad, u, hd, hx⟩ := doReadConfig_cache s <;> rw [hd] at hs hl hc <;>
        simp only [hd, finishCall, Act.done]
      · exact ⟨u, _, _, hs.1, rfl, by simp [destinations], rfl, ⟨l, hl, hlen.trans (by simp), hc⟩,
          .inr ⟨hs.2.1, hs.2.2, .inr ⟨ready_of_turnsAway hn, by simp [hx], .inl ⟨_, _, rfl⟩⟩⟩⟩
      · exact ⟨u, _, _, hs.1, rfl, by simp [destinations], rfl, ⟨l, hl, hlen.trans (by simp), hc⟩, .inr ⟨hs.2.1, hs.2.2, .inl hx⟩⟩
  · simp only [exec, execWriteConfig] at h
    obtain ⟨e, he, rfl⟩ | ⟨hn, hh, rfl⟩ := callSession_next h
    · rw [writeTurnsAway_eq he]; exact Effect.turnedAway (by simp [destinations]) rfl (by simp [Status.code])
    · have hs := doWriteConfig_sound s
      obtain ⟨l, hl, hlen, hc⟩ := (doWriteConfig_trace).bound s
      obtain ⟨hr, c, hcc⟩ := ready_of_writeTurnsAway hn
      unfold statusOnly Act.andThen
      have hd : doWriteConfig s = writeWord (packWord s.params.layout c) s := by simp [doWriteConfig, hcc]
      rw [hd] at hs hl hc
      obtain ⟨u, hw, hx⟩ | ⟨ad, u, hw, hx⟩ := writeWord_cache (packWord s.params.layout c) s <;>
        rw [hw] at hs hl hc <;> simp only [hd, hw, finishCall, Act.done]
      · exact ⟨u, _, _, hs.1, rfl, by simp [destinations], rfl, ⟨l, hl, hlen.trans (by simp), hc⟩, .inr ⟨hs.2.1, hs.2.2, .inl hx⟩⟩
      · exact ⟨u, _, _, hs.1, rfl, by simp [destinations], rfl, ⟨l, hl, hlen.trans (by simp), hc⟩, .inr ⟨hs.2.1, hs.2.2, .inl hx⟩⟩
  · rw [exec_setter he] at h
    obtain ⟨v, hv, h⟩ := callSetter_next h
    obtain ⟨r, hr, rfl⟩ | ⟨hn, hh, rfl⟩ := callSession_next h
    · have hcode : r.code = 8 ∨ r.code = 7 := by rcases setterTurnsAway_eq hr with rfl | rfl <;> simp [Status.code]
      refine Effect.turnedAway (by simp [setter_destinations he]) ?_ (by omega)
      rw [setter_statusAllowed he]
      rcases hcode with h | h <;> simp [h]
    · have hw : s.writeTurnsAway = none := by
        unfold State.setterTurnsAway at hn; split at hn
        · cases hn
        · assumption
      obtain ⟨hready, c, hcc⟩ := ready_of_writeTurnsAway hw
      have hs := doSet_sound e.1 v s
      obtain ⟨l, hl, hlen, hc⟩ := (doSet_trace e.1 v).bound s
      unfold statusOnly Act.andThen
      obtain ⟨u, hd, hx⟩ | ⟨ad, u, hd, hx⟩ := doSet_cache e.1 v hcc <;> rw [hd] at hs hl hc <;>
        simp only [hd, finishCall, Act.done]
      · exact ⟨u, _, _, hs.1, rfl, by simp [setter_destinations he], by rw [setter_statusAllowed he]; rfl, ⟨l, hl, hlen.trans (by simp), hc⟩,
          .inr ⟨hs.2.1, hs.2.2, .inr ⟨hready, by simp [hx], .inr ⟨e, he, st, o, rfl⟩⟩⟩⟩
      · exact ⟨u, _, _, hs.1, rfl, by simp [setter_destinations he], by rw [setter_statusAllowed he]; rfl, ⟨l, hl, hlen.trans (by simp), hc⟩,
          .inr ⟨hs.2.1, hs.2.2, .inl (by rw [hx, hcc])⟩⟩

end Sys2Proof.Machine
end

