-- ==== Sys2Proof/Laws/Lines.lean ====
section
/-! SUPPORT. The line encoding piece by piece: each reader gives back what its writer wrote, and leaves the bytes that
follow. -/

namespace Sys2Proof

@[simp] theorem Parsed.andThen_ok {α β : Type} (a : α) (rest : List Byte) (f : α → List Byte → Parsed β) :
    Parsed.andThen (.ok (a, rest)) f = f a rest := rfl

@[simp] theorem Parsed.andThen_error {α β : Type} (e : DecodeError) (f : α → List Byte → Parsed β) :
    Parsed.andThen (.error e) f = .error e := rfl

@[simp] theorem Parsed.mapTo_ok {α β : Type} (a : α) (rest : List Byte) (f : α → β) :
    Parsed.mapTo (.ok (a, rest)) f = .ok (f a, rest) := rfl

@[simp] theorem Parsed.mapTo_error {α β : Type} (e : DecodeError) (f : α → β) :
    Parsed.mapTo (.error e) f = .error e := rfl

theorem readName_nameBytes {n : Name} (h : nameOk n = true) (rest : List Byte) :
    readName (nameBytes n ++ rest) = .ok (n, rest) := by
  have hn : n < 256 := by simpa [nameOk] using h
  simp [readName, nameBytes, readByte, Parsed.mapTo, Nat.mod_eq_of_lt hn]

theorem readNat_natBytesFuel : ∀ (fuel n : Nat) (rest : List Byte), n < 128 ^ (fuel + 1) →
    readNat (natBytesFuel fuel n ++ rest) = .ok (n, rest)
  | 0, n, rest, h => by
    have hn : n < 128 := by simpa using h
    have hm : n % 256 = n := Nat.mod_eq_of_lt (by omega)
    simp [natBytesFuel, readNat, hm, hn]
  | fuel + 1, n, rest, h => by
    unfold natBytesFuel
    split
    · next hn =>
      have hm : n % 256 = n := Nat.mod_eq_of_lt (by omega)
      simp [readNat, hm, hn]
    · next hn =>
      have hd : n / 128 < 128 ^ (fuel + 1) := by
        rw [Nat.div_lt_iff_lt_mul (by norm_num)]
        rw [Nat.pow_succ] at h
        exact h
      have hm : (n % 128 + 128) % 256 = n % 128 + 128 := Nat.mod_eq_of_lt (by omega)
      have hr := readNat_natBytesFuel fuel (n / 128) rest hd
      simp only [List.cons_append, readNat, BitVec.toNat_ofNat]
      norm_num only [hm, hr]
      simp only [Parsed.mapTo_ok]
      rw [if_neg (by omega)]
      congr 2
      omega

/-- A natural of a line reads back, whatever its size. -/
theorem readNat_natBytes (n : Nat) (rest : List Byte) : readNat (natBytes n ++ rest) = .ok (n, rest) := by
  refine readNat_natBytesFuel _ n rest ?_
  have h : n < 2 ^ (Nat.log2 n + 1) := Nat.lt_log2_self
  exact lt_of_lt_of_le h (Nat.pow_le_pow_left (by norm_num) _)

/-- R35: the four bytes of a word read back as that word. -/
theorem be32_payload32 (w : Word) :
    Machine.be32 (w.extractLsb' 24 8) (w.extractLsb' 16 8) (w.extractLsb' 8 8) (w.extractLsb' 0 8) = w := by
  apply BitVec.eq_of_getLsbD_eq
  intro n hn
  rw [Machine.getLsbD_be32]
  interval_cases n <;> simp [-BitVec.getLsbD_eq_getElem]

theorem payload32_eq (w : Word) :
    Machine.payload32 w = [w.extractLsb' 24 8, w.extractLsb' 16 8, w.extractLsb' 8 8, w.extractLsb' 0 8] := by
  simp only [Machine.payload32, Machine.payload16, List.cons_append, List.nil_append, List.cons.injEq, and_true]
  refine ⟨?_, ?_, ?_, ?_⟩ <;>
    (apply BitVec.eq_of_getLsbD_eq; intro n hn
     interval_cases n <;> simp [Machine.hi16, Machine.lo16, -BitVec.getLsbD_eq_getElem])

theorem readWord_wordBytes (w : Word) (rest : List Byte) : readWord (wordBytes w ++ rest) = .ok (w, rest) := by
  simp only [wordBytes, payload32_eq, List.cons_append, List.nil_append, readWord, be32_payload32]

/-- A rational of a line reads back. -/
theorem readRat_ratBytes (q : Rat) (rest : List Byte) : readRat (ratBytes q ++ rest) = .ok (q, rest) := by
  have hd : q.den - 1 + 1 = q.den := Nat.succ_pred_eq_of_pos q.den_pos
  unfold readRat ratBytes
  split
  · next h =>
    have hn : -((q.num.natAbs : Nat) : Int) = q.num := by omega
    simp only [List.cons_append, List.append_assoc, readByte, Parsed.andThen_ok, readNat_natBytes, Parsed.mapTo_ok, hd,
      hn, Rat.mkRat_self]
    rfl
  · next h =>
    have hn : ((q.num.natAbs : Nat) : Int) = q.num := by omega
    simp only [List.cons_append, List.append_assoc, readByte, Parsed.andThen_ok, readNat_natBytes, Parsed.mapTo_ok, hd,
      hn, Rat.mkRat_self]
    rfl

/-- A record literal of a line reads back, each natural at any size. -/
theorem readRecord_recordBytes (r : ConfigRecord) (rest : List Byte) :
    readRecord (recordBytes r ++ rest) = .ok (r, rest) := by
  simp only [readRecord, recordBytes, List.append_assoc, readNat_natBytes, Parsed.andThen_ok, Parsed.mapTo_ok]

end Sys2Proof
end

