-- ==== Sys2Proof/Laws/Numbers.lean ====
section
/-! SUPPORT. What the number domains do, said once: a selection conforms when its reference does, the root is a root, the
tolerance test means the tolerance over the reals, every number of a domain other than `EXACT` meets it, and every number
of `BINARY64` is a binary64 number where one meets it. -/

namespace Sys2Proof

open Machine (IsBinary64 ChromaIsBinary64)

/-! ### Selection -/

/-- R137: whatever the domain computes and whatever the free value is, the selection conforms. -/
theorem conforming_conforms {α : Type} {ok : α → Bool} {own : Option α} {free reference : α}
    (h : ok reference = true) : ok (conforming ok own free reference) = true := by
  unfold conforming
  cases hf : (own.toList ++ [free]).find? ok with
  | none => exact h
  | some a => exact List.find?_some hf

/-- R118: what the domain computes is delivered when it conforms. -/
theorem conforming_own {α : Type} {ok : α → Bool} {a free reference : α} (h : ok a = true) :
    conforming ok (some a) free reference = a := by
  simp [conforming, h]

/-- The search finds a natural that passes, when there is one. -/
theorem searchBelow_spec (test : Nat → Bool) : ∀ n,
    (∃ k, searchBelow test n = some k ∧ test k = true) ∨
    (searchBelow test n = none ∧ ∀ k < n, test k = false)
  | 0 => .inr ⟨rfl, fun _ h => absurd h (Nat.not_lt_zero _)⟩
  | n + 1 => by
    unfold searchBelow
    cases h : test n with
    | true => exact .inl ⟨n, rfl, h⟩
    | false =>
      rcases searchBelow_spec test n with hs | ⟨hs, hn⟩
      · exact .inl hs
      · exact .inr ⟨hs, fun k hk => (Nat.lt_succ_iff_lt_or_eq.1 hk).elim (hn k) fun e => e ▸ h⟩

section conforming64
variable {α : Type} {rounded : α → Option α} {ofCode : Nat → α} {codes : Nat} {ok : α → Bool} {own : Option α}
  {free reference : α}

/-- R137, R138: the outcomes of the selection under `BINARY64`. -/
theorem conforming64_cases (a : α) (ha : a = conforming64 rounded ofCode codes ok own free reference) :
    (ok a = true ∧ (own = some a ∨ rounded free = some a ∨ rounded reference = some a ∨ ∃ k, ofCode k = a)) ∨
    (a = reference ∧ ∀ k < codes, ok (ofCode k) = false) := by
  subst ha
  unfold conforming64
  split
  · next a hf =>
    have hm := List.mem_of_find?_eq_some hf
    simp only [List.mem_append, Option.mem_toList, or_assoc] at hm
    exact .inl ⟨List.find?_some hf, by tauto⟩
  · rcases searchBelow_spec (fun k => ok (ofCode k)) codes with ⟨k, hk, hok⟩ | ⟨hk, hn⟩
    · rw [hk]; exact .inl ⟨hok, .inr (.inr (.inr ⟨k, rfl⟩))⟩
    · rw [hk]; exact .inr ⟨rfl, hn⟩

theorem conforming64_conforms (h : ok reference = true) :
    ok (conforming64 rounded ofCode codes ok own free reference) = true := by
  rcases conforming64_cases _ rfl with ⟨hk, -⟩ | ⟨he, -⟩
  · exact hk
  · rw [he]; exact h

/-- R138: what `BINARY64` computes is delivered when it conforms. -/
theorem conforming64_own {a : α} (h : ok a = true) :
    conforming64 rounded ofCode codes ok (some a) free reference = a := by
  simp [conforming64, h]

/-- R138: when what it computes, what it rounds and what a code stands for are values of `BINARY64`, and some coded value
conforms, what is delivered is a value of `BINARY64`. -/
theorem conforming64_mem {P : α → Prop} (hown : ∀ a, own = some a → P a) (hround : ∀ q a, rounded q = some a → P a)
    (hcode : ∀ k, P (ofCode k)) (hsome : ∃ k < codes, ok (ofCode k) = true) :
    P (conforming64 rounded ofCode codes ok own free reference) := by
  rcases conforming64_cases _ rfl with ⟨-, h | h | h | ⟨k, h⟩⟩ | ⟨-, hn⟩
  · exact hown _ h
  · exact hround _ _ h
  · exact hround _ _ h
  · rw [← h]; exact hcode k
  · obtain ⟨k, hk, hok⟩ := hsome
    rw [hn k hk] at hok; cases hok

end conforming64

/-- R137: the number any domain delivers conforms. -/
theorem oneNumber_conforms (p : ColourParams) {ok : Rat → Bool} {own : Option Rat} {free reference : Rat}
    (h : ok reference = true) : ok (p.oneNumber ok own free reference) = true := by
  unfold ColourParams.oneNumber
  split
  · exact h
  · exact conforming64_conforms h
  · exact conforming_conforms h

theorem oneChroma_conforms (p : ColourParams) {ok : Chroma → Bool} {own : Option Chroma} {free reference : Chroma}
    (h : ok reference = true) : ok (p.oneChroma ok own free reference) = true := by
  unfold ColourParams.oneChroma
  split
  · exact h
  · exact conforming64_conforms h
  · exact conforming_conforms h

/-- R138: what `BINARY64` computes is delivered when it conforms. -/
theorem oneNumber_own {p : ColourParams} (hp : p.num = .binary64) {ok : Rat → Bool} {a free reference : Rat}
    (h : ok a = true) : p.oneNumber ok (some a) free reference = a := by
  unfold ColourParams.oneNumber
  rw [hp]
  exact conforming64_own h

theorem oneChroma_own {p : ColourParams} (hp : p.num = .binary64) {ok : Chroma → Bool} {a free reference : Chroma}
    (h : ok a = true) : p.oneChroma ok (some a) free reference = a := by
  unfold ColourParams.oneChroma
  rw [hp]
  exact conforming64_own h

/-- R138: the number `BINARY64` delivers is a binary64 number, when one conforms. -/
theorem oneNumber_isBinary64 {p : ColourParams} (hp : p.num = .binary64) {ok : Rat → Bool} {own : Option Rat}
    {free reference : Rat} (hown : ∀ a, own = some a → IsBinary64 a)
    (h : ∃ b, IsBinary64 b ∧ ok b = true) : IsBinary64 (p.oneNumber ok own free reference) := by
  unfold ColourParams.oneNumber
  rw [hp]
  refine conforming64_mem hown (fun q a => round64_is64 q a) numberOfCode_isBinary64 ?_
  obtain ⟨b, hb, hok⟩ := h
  obtain ⟨k, hk, rfl⟩ := exists_code hb
  exact ⟨k, hk, hok⟩

theorem ofBinary64_is64 {x y z : Binary64} (hx : Is64 x) (hy : Is64 y) (hz : Is64 z) {t : Chroma}
    (h : Chroma.ofBinary64 x y z = some t) : ChromaIsBinary64 t := by
  unfold Chroma.ofBinary64 at h
  split at h
  · next ex ey ez => cases h; exact ⟨hx _ ex, hy _ ey, hz _ ez⟩
  · cases h

theorem chroma_exists_code {t : Chroma} (h : ChromaIsBinary64 t) : ∃ k < codes64 ^ 3, Chroma.ofCode k = t := by
  obtain ⟨a, ha, ea⟩ := exists_code h.1
  obtain ⟨b, hb, eb⟩ := exists_code h.2.1
  obtain ⟨c, hc, ec⟩ := exists_code h.2.2
  have hpos : 0 < codes64 := lt_of_le_of_lt (Nat.zero_le _) ha
  have e1 : (a + codes64 * (b + codes64 * c)) % codes64 = a := by rw [Nat.add_mul_mod_self_left, Nat.mod_eq_of_lt ha]
  have e2 : (a + codes64 * (b + codes64 * c)) / codes64 = b + codes64 * c := by
    rw [Nat.add_mul_div_left _ _ hpos, Nat.div_eq_of_lt ha, Nat.zero_add]
  have e3 : (b + codes64 * c) % codes64 = b := by rw [Nat.add_mul_mod_self_left, Nat.mod_eq_of_lt hb]
  have e4 : (b + codes64 * c) / codes64 = c := by
    rw [Nat.add_mul_div_left _ _ hpos, Nat.div_eq_of_lt hb, Nat.zero_add]
  refine ⟨a + codes64 * (b + codes64 * c), ?_, ?_⟩
  · generalize codes64 = n at *
    nlinarith [Nat.mul_le_mul_left n (Nat.mul_le_mul_left n (Nat.succ_le_of_lt hc)), Nat.mul_le_mul_left n (Nat.succ_le_of_lt hb)]
  · unfold Chroma.ofCode
    rw [e1, e2, e3, pow_two, ← Nat.div_div_eq_div_mul, e2, e4, ea, eb, ec]

/-- R138: the chromaticity `BINARY64` delivers is of binary64 numbers, when one of those conforms. -/
theorem oneChroma_isBinary64 {p : ColourParams} (hp : p.num = .binary64) {ok : Chroma → Bool} {own : Option Chroma}
    {free reference : Chroma} (hown : ∀ a, own = some a → ChromaIsBinary64 a) (h : ∃ b : Chroma, ChromaIsBinary64 b ∧ ok b = true) :
    ChromaIsBinary64 (p.oneChroma ok own free reference) := by
  unfold ColourParams.oneChroma
  rw [hp]
  refine conforming64_mem hown (fun q a ha => ofBinary64_is64 (round64_is64 _) (round64_is64 _) (round64_is64 _) ha)
    (fun k => ⟨numberOfCode_isBinary64 _, numberOfCode_isBinary64 _, numberOfCode_isBinary64 _⟩) ?_
  obtain ⟨b, hb, hok⟩ := h
  obtain ⟨k, hk, rfl⟩ := chroma_exists_code hb
  exact ⟨k, hk, hok⟩

theorem nearE2E_iff (e q : Rat) : nearE2E e q = true ↔ |q - e| ≤ |e| / 1000 := by
  rw [nearE2E, decide_eq_true_eq, tolE2E]
  constructor <;> intro h <;> linarith

@[simp] theorem nearE2E_self (e : Rat) : nearE2E e e = true := by
  rw [nearE2E_iff, sub_self, abs_zero]
  positivity

/-! ### The root -/

theorem rootBits_spec (n : Nat) : ∀ b m, m ^ 12 ≤ n → n < (m + 2 ^ b) ^ 12 →
    rootBits n b m ^ 12 ≤ n ∧ n < (rootBits n b m + 1) ^ 12
  | 0, _, h, h' => ⟨h, h'⟩
  | b + 1, m, h, h' => by
    unfold rootBits
    split
    · next hm => exact rootBits_spec n b _ hm (by rw [add_assoc, ← two_mul, ← pow_succ']; exact h')
    · next hm => exact rootBits_spec n b _ h (not_le.1 hm)

theorem floorRoot_spec (n : Nat) : floorRoot n ^ 12 ≤ n ∧ n < (floorRoot n + 1) ^ 12 := by
  refine rootBits_spec n _ 0 (by simp) ?_
  rw [zero_add, ← pow_mul]
  exact lt_of_lt_of_le Nat.lt_log2_self (Nat.pow_le_pow_right (by norm_num) (by omega))

/-- `powFloor` is the real power rounded down at 32 fractional bits. -/
theorem powFloor_spec {c : Rat} (hc : 0 < c) :
    0 ≤ powFloor c ∧ powFloor c ^ 12 ≤ c ^ 5 ∧ c ^ 5 < (powFloor c + 1 / 2 ^ 32) ^ 12 := by
  obtain ⟨h1, h2⟩ := floorRoot_spec (c.num.natAbs ^ 5 * 2 ^ 384 / c.den ^ 5)
  set k := floorRoot (c.num.natAbs ^ 5 * 2 ^ 384 / c.den ^ 5) with hk
  have hp : powFloor c = (k : Rat) / 2 ^ 32 := by
    rw [powFloor, ← hk, Rat.mkRat_eq_div]; norm_num
  have hd : 0 < c.den ^ 5 := Nat.pow_pos c.den_pos
  have hcq : c = (c.num.natAbs : Rat) / c.den := by
    conv_lhs => rw [← Rat.num_div_den c]
    congr 1
    rw [← Int.cast_natCast, Int.natAbs_of_nonneg (Rat.num_nonneg.2 hc.le)]
  have hdq : (0 : Rat) < (c.den : Rat) ^ 5 := by exact_mod_cast hd
  have e5 : c ^ 5 = (c.num.natAbs : Rat) ^ 5 / (c.den : Rat) ^ 5 := by
    conv_lhs => rw [hcq]
    rw [div_pow]
  rw [hp, e5]
  refine ⟨by positivity, ?_, ?_⟩
  · have h : k ^ 12 * c.den ^ 5 ≤ c.num.natAbs ^ 5 * 2 ^ 384 := (Nat.le_div_iff_mul_le hd).1 h1
    have hq : (k : Rat) ^ 12 * (c.den : Rat) ^ 5 ≤ (c.num.natAbs : Rat) ^ 5 * 2 ^ 384 := by exact_mod_cast h
    rw [div_pow, ← pow_mul, div_le_div_iff₀ (by positivity) hdq]
    exact hq
  · have h : c.num.natAbs ^ 5 * 2 ^ 384 < (k + 1) ^ 12 * c.den ^ 5 := (Nat.div_lt_iff_lt_mul hd).1 h2
    have hq : (c.num.natAbs : Rat) ^ 5 * 2 ^ 384 < ((k : Rat) + 1) ^ 12 * (c.den : Rat) ^ 5 := by exact_mod_cast h
    rw [← add_div, div_pow, ← pow_mul, div_lt_div_iff₀ hdq (by positivity)]
    exact hq

/-! ### The tolerance over the reals -/

theorem powAtMost_iff {c h : Rat} (hc : 0 < c) :
    powAtMost c h = true ↔ (c : ℝ) ^ ((5 : ℝ) / 12) ≤ (h : ℝ) := by
  have hcr : (0 : ℝ) < c := by exact_mod_cast hc
  have e : ((c : ℝ) ^ ((5 : ℝ) / 12)) ^ 12 = (c : ℝ) ^ 5 := by
    rw [← Real.rpow_natCast, ← Real.rpow_mul hcr.le, ← Real.rpow_natCast]; norm_num
  have hp : (0 : ℝ) < (c : ℝ) ^ ((5 : ℝ) / 12) := Real.rpow_pos_of_pos hcr _
  simp only [powAtMost, decide_eq_true_eq]
  constructor
  · rintro ⟨h0, h1⟩
    have h0r : (0 : ℝ) ≤ h := by exact_mod_cast h0
    refine le_of_pow_le_pow_left₀ (n := 12) (by norm_num) h0r ?_
    rw [e]; exact_mod_cast h1
  · intro hh
    refine ⟨by exact_mod_cast hp.le.trans hh, ?_⟩
    have := pow_le_pow_left₀ hp.le hh 12
    rw [e] at this; exact_mod_cast this

theorem powAtLeast_iff {c h : Rat} (hc : 0 < c) :
    powAtLeast c h = true ↔ (h : ℝ) ≤ (c : ℝ) ^ ((5 : ℝ) / 12) := by
  have hcr : (0 : ℝ) < c := by exact_mod_cast hc
  have e : ((c : ℝ) ^ ((5 : ℝ) / 12)) ^ 12 = (c : ℝ) ^ 5 := by
    rw [← Real.rpow_natCast, ← Real.rpow_mul hcr.le, ← Real.rpow_natCast]; norm_num
  have hp : (0 : ℝ) < (c : ℝ) ^ ((5 : ℝ) / 12) := Real.rpow_pos_of_pos hcr _
  simp only [powAtLeast, decide_eq_true_eq]
  constructor
  · rintro (h0 | h1)
    · exact le_trans (by exact_mod_cast h0) hp.le
    · refine le_of_pow_le_pow_left₀ (n := 12) (by norm_num) hp.le ?_
      rw [e]; exact_mod_cast h1
  · intro hh
    rcases le_or_gt h 0 with h0 | h0
    · exact .inl h0
    · have h0r : (0 : ℝ) ≤ h := by exact_mod_cast h0.le
      have := pow_le_pow_left₀ h0r hh 12
      rw [e] at this; exact .inr (by exact_mod_cast this)

/-- Above the threshold the real transfer function is positive. -/
theorem srgb_pos {c : Rat} (hc : gammaT < c) : 0.04 < 1.055 * (c : ℝ) ^ ((5 : ℝ) / 12) - 0.055 := by
  have hT : (0 : Rat) < gammaT := by norm_num [gammaT]
  have h : powAtLeast c (9009 / 100000) = true := by
    simp only [powAtLeast, decide_eq_true_eq]
    right
    refine le_trans ?_ (pow_le_pow_left₀ hT.le hc.le 5)
    norm_num [gammaT]
  have := (powAtLeast_iff (hT.trans hc)).1 h
  push_cast at this
  linarith

/-- The two bounds of `srgbNear` without the divisions. -/
theorem srgb_lower (q r : ℝ) : r ≤ (q / (1 - 1 / 1000) + 55 / 1000) / (1055 / 1000)
    ↔ (1055 / 1000 * r - 55 / 1000) * (1 - 1 / 1000) ≤ q := by
  rw [le_div_iff₀ (by norm_num), ← sub_le_iff_le_add, le_div_iff₀ (by norm_num), mul_comm r]

theorem srgb_upper (q r : ℝ) : (q / (1 + 1 / 1000) + 55 / 1000) / (1055 / 1000) ≤ r
    ↔ q ≤ (1055 / 1000 * r - 55 / 1000) * (1 + 1 / 1000) := by
  rw [div_le_iff₀ (by norm_num), ← le_sub_iff_add_le, div_le_iff₀ (by norm_num), mul_comm r]

/-- R137 with an exact `POW24`: the rational test says what it means over the reals. -/
theorem srgbNear_iff (f : Rat → ℝ) (hl : ∀ c : Rat, c ≤ 0.0031308 → f c = 12.92 * c)
    (hp : ∀ c : Rat, 0.0031308 < c → f c = 1.055 * (c : ℝ) ^ ((5 : ℝ) / 12) - 0.055) (c q : Rat) :
    srgbNear c q = true ↔ |(q : ℝ) - f c| ≤ |f c| / 1000 := by
  have eT : gammaT = 0.0031308 := by norm_num [gammaT]
  unfold srgbNear
  split
  · next hc =>
    rw [nearE2E_iff, hl c (eT ▸ hc)]
    have e : (12.92 : ℝ) * c = ((gammaA * c : Rat) : ℝ) := by norm_num [gammaA]
    rw [e]
    exact_mod_cast Iff.rfl
  · next hc =>
    have hc' := not_le.1 hc
    have h0 : 0 < c := lt_trans (by norm_num [gammaT]) hc'
    have hv := srgb_pos hc'
    rw [Bool.and_eq_true, powAtMost_iff h0, powAtLeast_iff h0, hp c (eT ▸ hc')]
    set r := (c : ℝ) ^ ((5 : ℝ) / 12) with hr
    rw [abs_of_pos (by linarith : (0 : ℝ) < 1.055 * r - 0.055), abs_le]
    simp only [tolE2E, gammaB, gammaC]
    push_cast
    rw [srgb_lower, srgb_upper]
    constructor <;> rintro ⟨h1, h2⟩ <;> constructor <;> linarith

theorem srgbNear_reference (c : Rat) : srgbNear c (srgbReference c) = true := by
  unfold srgbReference
  split
  · next h => simp [srgbNear, h]
  · next h =>
    have hc' := not_le.1 h
    have h0 : 0 < c := lt_trans (by norm_num [gammaT]) hc'
    obtain ⟨hz, h1, h2⟩ := powFloor_spec h0
    have hv := srgb_pos hc'
    have hlo := (powAtLeast_iff h0).1 (by simp only [powAtLeast, decide_eq_true_eq]; exact .inr h1)
    have hhi := (powAtMost_iff h0).1 (by
      simp only [powAtMost, decide_eq_true_eq]; exact ⟨by positivity, h2.le⟩ : powAtMost c (powFloor c + 1 / 2 ^ 32) = true)
    rw [srgbNear, if_neg h, Bool.and_eq_true, powAtMost_iff h0, powAtLeast_iff h0]
    set r := (c : ℝ) ^ ((5 : ℝ) / 12) with hr
    simp only [tolE2E, gammaB, gammaC]
    push_cast at hlo hhi ⊢
    rw [srgb_lower, srgb_upper]
    constructor <;> linarith

/-! ### What `BINARY64` computes is of binary64 numbers -/

theorem linearToSRGB64_is64 (p : ColourParams) (c : Binary64) : Is64 (linearToSRGB64 p c) := by
  unfold linearToSRGB64
  split
  · exact mul64_is64
  · exact sub64_is64

theorem xyzToCCT64_isBinary64 {c : Chroma} {q : Rat} (h : xyzToCCT64 c = some q) : IsBinary64 q := by
  unfold xyzToCCT64 at h
  split at h
  · cases h
  · exact add64_is64 q h

theorem column64_isBinary64 {m : Mat4} {v : Row4} {k : Nat} {q : Rat} (h : m.column64 v k = some q) : IsBinary64 q := by
  unfold Mat4.column64 at h
  split at h <;> exact add64_is64 q h

theorem quotients64_isBinary64 {X Y Z : Rat} {t : Chroma} (h : quotients64 X Y Z = some t) : ChromaIsBinary64 t :=
  ofBinary64_is64 div64_is64 div64_is64 div64_is64 h

/-! ### Every number of a domain other than `EXACT` -/

variable (p : ColourParams)

theorem linearToSRGB_near (h : p.num ≠ .exact) (c : Rat) : srgbNear c (p.linearToSRGB c) = true := by
  unfold ColourParams.linearToSRGB
  cases hn : p.num with
  | exact => exact absurd hn h
  | binary64 => exact oneNumber_conforms p (srgbNear_reference c)
  | fixed _ => exact oneNumber_conforms p (srgbNear_reference c)

theorem rgbConforming_near (own : Row3 → Option Rat) (c : Chroma) : p.rgbNear c (p.rgbConforming own c) = true := by
  simp only [ColourParams.rgbNear, ColourParams.rgbConforming, oneNumber_conforms p (srgbNear_reference _), Bool.and_self]

theorem xyzToRGB_near (h : p.num ≠ .exact) (c : Chroma) : p.rgbNear c (p.xyzToRGB c) = true := by
  unfold ColourParams.xyzToRGB
  cases hn : p.num with
  | exact => exact absurd hn h
  | binary64 => exact rgbConforming_near p _ c
  | fixed _ => exact rgbConforming_near p _ c

theorem xyzToCCT_near (h : p.num ≠ .exact) (c : Chroma) : cctNear c (p.xyzToCCT c) = true := by
  unfold ColourParams.xyzToCCT
  cases hn : p.num with
  | exact => exact absurd hn h
  | binary64 =>
    simp only
    split
    · next t e ht he => simp [cctNear, he, oneNumber_conforms]
    · simp [cctNear]
  | fixed _ =>
    simp only
    cases he : xyzToCCTExact c <;> simp [cctNear, he, oneNumber_conforms]

/-- Under `EXACT` the coordinates sum to one. -/
theorem chromaOf_sum {X Y Z : Rat} {g : Chroma} (h : chromaOf X Y Z = some g) : g.x + g.y + g.z = 1 := by
  unfold chromaOf at h
  split at h
  · cases h
  · next hs =>
    injection h with h
    subst h
    rw [← add_div, ← add_div, div_self hs]

/-- The reference of a chromaticity conforms: the exact one where there is one. -/
theorem chromaConforms_reference (h : p.num ≠ .exact) (v : Row4) (a b : Rat) :
    p.chromaConforms (rawToXYZExact p.mCal v).chroma ((rawToXYZExact p.mCal v).chroma.getD ⟨a, b, 1 - a - b⟩) = true := by
  cases hg : (rawToXYZExact p.mCal v).chroma with
  | none =>
    simp [ColourParams.chromaConforms, tolSum]
  | some g =>
    have hs : g.x + g.y + g.z = 1 := chromaOf_sum hg
    simp [ColourParams.chromaConforms, hs, tolSum, xyzToRGB_near p h, xyzToCCT_near p h]

/-- R126, R127, R137: what a `rawToXYZ` delivers in a domain other than `EXACT`. -/
theorem xyzConforming_spec (h : p.num ≠ .exact) (own : Nat → Option Rat) (zero : Rat → Rat → Rat → Bool)
    (quotients : Rat → Rat → Rat → Option Chroma) (v : Row4) (c e : XYZColor)
    (hc : c = p.xyzConforming own zero quotients v) (he : e = rawToXYZExact p.mCal v) :
    (nearE2E e.X c.X = true ∧ nearE2E e.Y c.Y = true ∧ nearE2E e.Z c.Z = true ∧ nearE2E e.l c.l = true)
      ∧ (c.chroma = none ↔ zero c.X c.Y c.Z = true) ∧ ∀ t, c.chroma = some t → p.chromaConforms e.chroma t = true := by
  subst hc he
  refine ⟨⟨?_, ?_, ?_, ?_⟩, ?_, ?_⟩
  · exact oneNumber_conforms p (nearE2E_self _)
  · exact oneNumber_conforms p (nearE2E_self _)
  · exact oneNumber_conforms p (nearE2E_self _)
  · exact oneNumber_conforms p (nearE2E_self _)
  · simp only [ColourParams.xyzConforming]
    split <;> simp_all
  · intro t ht
    simp only [ColourParams.xyzConforming] at ht
    split at ht
    · cases ht
    · injection ht with ht
      rw [← ht]
      exact oneChroma_conforms p (chromaConforms_reference p h v _ _)

/-- R127, R137: every number a `rawToXYZ` delivers conforms. -/
theorem rawToXYZ_near (h : p.num ≠ .exact) (cs : ChannelSet) (e : XYZColor) (he : e = rawToXYZExact p.mCal cs.values) :
    (nearE2E e.X (p.rawToXYZ cs).X = true ∧ nearE2E e.Y (p.rawToXYZ cs).Y = true ∧ nearE2E e.Z (p.rawToXYZ cs).Z = true
        ∧ nearE2E e.l (p.rawToXYZ cs).l = true)
      ∧ ∀ t, (p.rawToXYZ cs).chroma = some t → p.chromaConforms e.chroma t = true := by
  have spec := fun own zero quotients => xyzConforming_spec p h own zero quotients cs.values _ e rfl he
  unfold ColourParams.rawToXYZ
  cases hn : p.num with
  | exact => exact absurd hn h
  | binary64 => exact ⟨(spec _ _ _).1, (spec _ _ _).2.2⟩
  | fixed _ => exact ⟨(spec _ _ _).1, (spec _ _ _).2.2⟩

end Sys2Proof
end

