-- ==== Sys2Proof/Laws/PerInstr.lean ====
section
/-! SUPPORT. The family `Selector`: what the first byte of an instruction's line says of it (R62, R63; the macro codes are
log entry 3). -/

namespace Sys2Proof.Laws.Selector

/-- The line begins with the selector, which is an `OPSEL` of R62 exactly for the block operations and never one of the
reserved values of R63. -/
def Statement (i : Instr) : Prop :=
  (encode i).head? = some i.selector ∧ (i.selector.toNat ≤ 0x8 ↔ Machine.isMacro i = false)
    ∧ (i.selector.toNat < 0x9 ∨ 0xF < i.selector.toNat)

theorem packConfig (d : Name) (c : ConfigOperand) : Statement (.packConfig d c) := by
  simp [Statement, encode, Instr.selector, Machine.isMacro]

theorem unpackConfig (d : Name) (w : Operand Word) : Statement (.unpackConfig d w) := by
  simp [Statement, encode, Instr.selector, Machine.isMacro]

theorem unpackChannel (d : Name) (w : Operand Word) : Statement (.unpackChannel d w) := by
  simp [Statement, encode, Instr.selector, Machine.isMacro]

theorem crcValid (d : Name) (c : Operand RawChannel) : Statement (.crcValid d c) := by
  simp [Statement, encode, Instr.selector, Machine.isMacro]

theorem reconstruct (d : Name) (c : Operand RawChannel) : Statement (.reconstruct d c) := by
  simp [Statement, encode, Instr.selector, Machine.isMacro]

theorem rawToXYZ (d : Name) (c : SetOperand) : Statement (.rawToXYZ d c) := by
  simp [Statement, encode, Instr.selector, Machine.isMacro]

theorem xyzToRGB (d : Name) (c : Operand XYZColor) : Statement (.xyzToRGB d c) := by
  simp [Statement, encode, Instr.selector, Machine.isMacro]

theorem linearToSRGB (d : Name) (c : Operand Rat) : Statement (.linearToSRGB d c) := by
  simp [Statement, encode, Instr.selector, Machine.isMacro]

theorem xyzToCCT (d : Name) (c : Operand XYZColor) : Statement (.xyzToCCT d c) := by
  simp [Statement, encode, Instr.selector, Machine.isMacro]

theorem init (st : Name) : Statement (.init st) := by
  simp [Statement, encode, Instr.selector, Machine.isMacro]

theorem read (a b st : Name) : Statement (.read a b st) := by
  simp [Statement, encode, Instr.selector, Machine.isMacro]

theorem readConfig (c st : Name) : Statement (.readConfig c st) := by
  simp [Statement, encode, Instr.selector, Machine.isMacro]

theorem writeConfig (st : Name) : Statement (.writeConfig st) := by
  simp [Statement, encode, Instr.selector, Machine.isMacro]

theorem setRange (st : Name) (v : Operand Nat) : Statement (.setRange st v) := by
  simp [Statement, encode, Instr.selector, Machine.isMacro]

theorem setConversionTime (st : Name) (v : Operand Nat) : Statement (.setConversionTime st v) := by
  simp [Statement, encode, Instr.selector, Machine.isMacro]

theorem setOperatingMode (st : Name) (v : Operand Nat) : Statement (.setOperatingMode st v) := by
  simp [Statement, encode, Instr.selector, Machine.isMacro]

theorem setThresholdChannel (st : Name) (v : Operand Nat) : Statement (.setThresholdChannel st v) := by
  simp [Statement, encode, Instr.selector, Machine.isMacro]

theorem setFaultCount (st : Name) (v : Operand Nat) : Statement (.setFaultCount st v) := by
  simp [Statement, encode, Instr.selector, Machine.isMacro]

theorem setQuickWake (st : Name) (v : Operand Nat) : Statement (.setQuickWake st v) := by
  simp [Statement, encode, Instr.selector, Machine.isMacro]

theorem setIntConfig (st : Name) (v : Operand Nat) : Statement (.setIntConfig st v) := by
  simp [Statement, encode, Instr.selector, Machine.isMacro]

theorem setIntPolarity (st : Name) (v : Operand Nat) : Statement (.setIntPolarity st v) := by
  simp [Statement, encode, Instr.selector, Machine.isMacro]

theorem setIntDirection (st : Name) (v : Operand Nat) : Statement (.setIntDirection st v) := by
  simp [Statement, encode, Instr.selector, Machine.isMacro]

theorem setLatch (st : Name) (v : Operand Nat) : Statement (.setLatch st v) := by
  simp [Statement, encode, Instr.selector, Machine.isMacro]

end Sys2Proof.Laws.Selector
end

