-- ==== Sys2Proof/Tests/Slice0.lean ====
section
/-! SUPPORT. The model's own tests. Expected values come from the spec: the vectors `V-…` and programs of
`95_test_vectors.md`, the encodings of R51, R52, R54 and R62, and hand calculation from them. A `witness_…` shows that the
hypotheses of the statement it names can be met together. -/

namespace Sys2Proof.Tests

set_option Elab.async false

open Sys2Proof Sys2Proof.Machine

/-! ### Helpers -/

/-- A value read off the next state. -/
def after {α : Type} (o : Host.Outcome State Fault Refusal) (f : State → α) : Option α :=
  match o with
  | .next t => some (f t)
  | .fault _ => none
  | .refused _ => none

/-- Whether there is a next state. -/
def runs (o : Host.Outcome State Fault Refusal) : Bool := (after o fun _ => ()).isSome

theorem next_of_runs {o : Host.Outcome State Fault Refusal} (h : runs o = true) : ∃ t, o = .next t := by
  cases o with
  | next t => exact ⟨t, rfl⟩
  | fault _ => cases h
  | refused _ => cases h

/-- The fault an outcome is. -/
def faultOf : Host.Outcome State Fault Refusal → Option Fault
  | .fault f => some f
  | _ => none

/-- The refusal an outcome is. -/
def refusalOf : Host.Outcome State Fault Refusal → Option Refusal
  | .refused r => some r
  | _ => none

def decodeError (bs : List Byte) : Option DecodeError :=
  match decode bs with
  | .ok _ => none
  | .error e => some e

def decoded (bs : List Byte) : Option Instr :=
  match decode bs with
  | .ok i => some i
  | .error _ => none

/-- A configuration as the tuple of `95_test_vectors.md` section 2.1. -/
def cfg (q r c m l f p d i t b : Nat) : DeviceConfiguration := (ConfigRecord.mk q r c m l f p d i t b).typed

def vpk3 : DeviceConfiguration := cfg 0 12 8 0 1 0 0 1 0 0 1
def vpk4 : DeviceConfiguration := cfg 0 12 8 3 1 0 0 1 0 0 1
def vpk5 : DeviceConfiguration := cfg 1 5 11 2 0 3 1 0 3 2 0

def blockA : State := { State.reset with params := { paramsDefault with layout := .A } }

def matrixNeg : Mat4 := ⟨⟨1, -1, 0, 0⟩, ⟨0, 1, 0, 0⟩, ⟨0, 0, 1, 0⟩, ⟨0, 0, 0, 1⟩⟩

/-- The registers of `95_test_vectors.md` section 2.8. -/
def registers : List Host.Cell :=
  [(20, 0x32#8), (21, 0x08#8), (22, 0x80#8), (23, 0x11#8), (34, 0x08#8), (35, 0x21#8)]

def fresh : State := { State.reset with mode := .echo, device := registers }

def ready : State := { fresh with session := .ready, cfgCache := some vpk3 }

def readyA : State := { ready with params := { paramsDefault with layout := .A } }

def scripted (l : List Answer) : State := { ready with script := l }

def fixedState : State := { State.reset with params := { paramsDefault with num := .fixed ⟨0, 0, 0⟩ } }

def binaryState : State := { State.reset with params := { paramsDefault with num := .binary64 } }

def line0 (l : List Byte) : State := { State.reset with program := [l] }

def channel (e m : Nat) : RawChannel := ⟨BitVec.ofNat 4 e, BitVec.ofNat 20 m, 0, 0⟩

def setOf (a b c d : RawChannel) : SetOperand := .record (.lit a) (.lit b) (.lit c) (.lit d)

/-- The bytes the accesses of a run wrote. -/
def written (t : State) : List (RegAddr × List Byte × Bool) :=
  t.traffic.filterMap fun
    | .write a p ok => some (a, p, ok)
    | .read _ _ _ => none

/-! ### WellFormed -/

theorem test_wf_accepts : (Instr.read 1 2 255).wf = true := by decide
theorem test_wf_destination : (Instr.unpackConfig 256 (.lit 0)).wf = false := by decide
theorem test_wf_operandName : (Instr.reconstruct 1 (.var 256)).wf = false := by decide
theorem test_wf_configName : (Instr.packConfig 1 (.var 256)).wf = false := by decide
theorem test_wf_configRecord : (Instr.packConfig 1 (.record ⟨0, 16, 0, 0, 0, 0, 0, 0, 0, 0, 0⟩)).wf = true := by decide
theorem test_wf_setName : (Instr.rawToXYZ 1 (.var 256)).wf = false := by decide
theorem test_wf_setMember : (Instr.rawToXYZ 1 (.record (.var 1) (.var 2) (.var 3) (.var 256))).wf = false := by decide
theorem test_wf_secondName : (Instr.read 1 256 2).wf = false := by decide
theorem test_wf_statusName : (Instr.readConfig 1 256).wf = false := by decide
theorem test_wf_setterName : (Instr.setLatch 1 (.var 256)).wf = false := by decide

/-! ### Decode: the operation codes of R62, words written out from R51, R52 and R54 -/

/-- R51, bit by bit: quickWake 1, reserved 0, range 0101, conversionTime 1011, operatingMode 10, latch 0,
interruptPolarity 1, faultCount 11; fixed 1, reserved 00000000, threshold 10, direction 0, interruptConfig 11,
reserved 0, burst 0 (V-PK-5). -/
theorem test_decode_packConfig :
    decoded [0x00, 1, 0, 0b10010110#8, 0b11100111#8, 0b10000000#8, 0b01001100#8] = some (.packConfig 1 (.image vpk5)) := by
  decide +kernel
theorem test_decode_packConfig_record :
    decoded [0x00, 1, 2, 0, 16, 0, 0, 0, 0, 0, 0, 0, 0, 0]
      = some (.packConfig 1 (.record ⟨0, 16, 0, 0, 0, 0, 0, 0, 0, 0, 0⟩)) := by decide +kernel
theorem test_decode_unpackConfig :
    decoded [0x01, 2, 0, 0xDE, 0xAD, 0xBE, 0xEF] = some (.unpackConfig 2 (.lit 0xDEADBEEF)) := by decide +kernel
/-- R54, bit by bit: exponent 0011, mantissa 0000 0001 0011 1000 1000, counter 0101, crc 1001 (V-CH-12). -/
theorem test_decode_crcValid :
    decoded [0x03, 3, 0, 0b00110000#8, 0b00010011#8, 0b10001000#8, 0b01011001#8]
      = some (.crcValid 3 (.lit ⟨3, 5000, 5, 9⟩)) := by decide +kernel
theorem test_decode_unpackChannel :
    decoded [0x02, 3, 1, 7] = some (.unpackChannel 3 (.var 7)) := by decide +kernel
theorem test_decode_reconstruct :
    decoded [0x04, 3, 0, 0xF0, 0, 0, 0] = some (.reconstruct 3 (.lit ⟨15, 0, 0, 0⟩)) := by decide +kernel
theorem test_decode_rawToXYZ :
    decoded [0x05, 9, 0, 1, 0, 1, 1, 1, 2, 1, 3] = some (.rawToXYZ 9 (.record (.var 0) (.var 1) (.var 2) (.var 3))) := by
  decide +kernel
/-- The number 300/7 less one half, 593/14: sign 0, 593 = 0x51 + 4 × 128, denominator less one 13. -/
theorem test_decode_linearToSRGB :
    decoded [0x07, 1, 0, 0, 0xD1, 4, 13] = some (.linearToSRGB 1 (.lit (593 / 14))) := by decide +kernel
theorem test_decode_xyzToRGB :
    decoded [0x06, 1, 0, 0, 1, 0, 1, 2, 0, 0, 0, 0, 0, 9, 0, 0]
      = some (.xyzToRGB 1 (.lit ⟨1, -2, 0, 9, none⟩)) := by decide +kernel
theorem test_decode_xyzToCCT :
    decoded [0x08, 1, 0, 0, 0, 0, 0, 0, 0, 0, 0, 0, 0, 0, 0, 1, 0, 1, 1, 0, 1, 3, 0, 1, 3]
      = some (.xyzToCCT 1 (.lit ⟨0, 0, 0, 0, some ⟨1 / 2, 1 / 4, 1 / 4⟩⟩)) := by decide +kernel
theorem test_decode_session :
    [decoded [0x10, 5], decoded [0x11, 5, 6, 7], decoded [0x12, 5, 6], decoded [0x13, 5]]
      = [some (.init 5), some (.read 5 6 7), some (.readConfig 5 6), some (.writeConfig 5)] := by decide +kernel
theorem test_decode_setters :
    (List.range 10).map (fun k => decoded [BitVec.ofNat 8 (0x14 + k), 5, 0, 3])
      = (setters.map fun e => some (e.2 5 (.lit 3))) := by decide +kernel

theorem test_reject_opsel :
    (List.range 7).map (fun k => decodeError [BitVec.ofNat 8 (9 + k), 0]) =
      [9, 10, 11, 12, 13, 14, 15].map (some ∘ DecodeError.illegalOpsel) := by decide +kernel
theorem test_reject_selector : decodeError [0x1E] = some (.unknownSelector 0x1E) := by decide +kernel
theorem test_reject_empty : decodeError [] = some .emptyLine := by decide +kernel
theorem test_reject_truncated : decodeError [0x01, 1, 0, 0x12, 0x34] = some .truncated := by decide +kernel
theorem test_reject_form : decodeError [0x01, 1, 2] = some (.unknownForm 2) := by decide +kernel
/-- R59: a configuration image with bit 30 set is no image of a configuration. -/
theorem test_reject_reserved :
    decodeError [0x00, 1, 0, 0x40, 0, 0x80, 0] = some (.reservedBits 0x40008000) := by decide +kernel
theorem test_reject_trailing : decodeError [0x10, 1, 0, 2] = some .trailingBytes := by decide +kernel
theorem test_trailing_zeros : decoded [0x10, 1, 0, 0] = some (.init 1) := by decide +kernel
theorem test_encode_number : encode (.linearToSRGB 1 (.lit (593 / 14))) = [0x07, 1, 0, 0, 0xD1, 4, 13] := by
  decide +kernel
theorem test_tableWord : decodeTableWord 32 0x00008000 = some (.packConfig 0 (.image (cfg 0 0 0 0 0 0 0 0 0 0 0))) := by
  decide +kernel
theorem test_fetchWord : (after (step (State.reset.withFetchWord 32 0x00008000)) fun t => t.env)
    = some [(0, .word 0x00008000)] := by decide +kernel

/-! ### The Register Codec: one step each -/

/-- V-PK-5 under both layouts. -/
theorem test_packConfig :
    ((after (exec (.packConfig 0 (.image vpk5)) State.reset) (·.env)),
      (after (exec (.packConfig 0 (.image vpk5)) blockA) (·.env)))
    = (some [(0, .word 0x96E7804C)], some [(0, .word 0xADCB804C)]) := by decide +kernel
/-- V-PK-17. -/
theorem test_packConfig_refused :
    (after (exec (.packConfig 0 (.record ⟨0, 16, 0, 0, 0, 0, 0, 0, 0, 0, 0⟩)) State.reset)
      fun t => (t.env, t.statuses, t.stopped)) = some ([], [.operandOutOfRange .range 16], true) := by decide +kernel
/-- R161: R70's pseudocode reaches `interruptPolarity` before `faultCount`. -/
theorem test_packConfig_firstMisfit :
    (after (exec (.packConfig 0 (.record ⟨0, 0, 0, 0, 0, 4, 2, 0, 0, 0, 0⟩)) State.reset) (·.statuses))
      = some [.operandOutOfRange .interruptPolarity 2] := by decide +kernel
/-- V-UPK-7. -/
theorem test_unpackConfig_B : (after (exec (.unpackConfig 0 (.lit 0xDEADBEEF)) State.reset) (·.env))
    = some [(0, .config (cfg 1 7 10 2 1 1 1 0 3 3 1))] := by decide +kernel
/-- V-UPK-8. -/
theorem test_unpackConfig_A : (after (exec (.unpackConfig 0 (.lit 0xDEADBEEF)) blockA) (·.env))
    = some [(0, .config (cfg 1 11 13 1 0 1 1 0 3 3 1))] := by decide +kernel
/-- V-CH-10. -/
theorem test_unpackChannel : (after (exec (.unpackChannel 0 (.lit 0xA5C3E17B)) State.reset) (·.env))
    = some [(0, .channel ⟨10, 377825, 7, 11⟩)] := by decide +kernel
/-- V-CH-1: true under the stub, false under the general-knowledge formula. -/
theorem test_crcValid_stub : (after (exec (.crcValid 0 (.lit ⟨1, 144470, 7, 8⟩)) State.reset) (·.env))
    = some [(0, .bool true)] := by decide +kernel
/-- The value column of section 2.3 for `CRC_OPT4048_GK`. -/
theorem test_crcOpt4048 :
    [0x12345678#32, 0#32, 0xFFFFFFFF#32, 0x80000100#32, 0xF0000000#32, 0x0FFFFF00#32, 0xF0#32, 0xF#32, 0x100#32,
      0xA5C3E17B#32, 0x12345670#32, 0x30138859#32].map (fun w =>
        (crcOpt4048 (unpackChannelWord w).exponent (unpackChannelWord w).mantissa (unpackChannelWord w).counter).toNat)
      = [0, 0, 12, 6, 4, 12, 4, 0, 1, 7, 0, 9] := by decide +kernel

/-! ### The Colour Pipeline -/

/-- V-REC-6: 33 bits, nothing lost. -/
theorem test_reconstruct : (after (exec (.reconstruct 0 (.lit (channel 13 1048575))) State.reset) (·.env))
    = some [(0, .wide 8589926400)] := by decide +kernel
/-- V-XYZ-2. -/
theorem test_rawToXYZ : (after (exec (.rawToXYZ 0 (setOf (channel 3 5000) (channel 4 4000) (channel 2 3000)
      (channel 5 1000))) State.reset) fun t => (t.env, t.statuses))
    = some ([(0, .xyz ⟨13.1178545872, 11.7710279044, 7.55487704, 137.6,
        some ⟨32794636468 / 81109398829, 29427569761 / 81109398829, 18887192600 / 81109398829⟩⟩)], [.ok]) := by
  decide +kernel
/-- V-XYZ-9: the sum is zero although X and Y are not; the colour is delivered all the same. -/
theorem test_rawToXYZ_undefined :
    (after (exec (.rawToXYZ 0 (setOf (channel 0 5) (channel 0 0) (channel 0 0) (channel 0 7)))
      { State.reset with params := { paramsDefault with mCal := matrixNeg } }) fun t => (t.env, t.statuses, t.index))
    = some ([(0, .xyz ⟨5, -5, 0, 7, none⟩)], [.undefinedChromaticity], 0) := by decide +kernel
/-- V-RGB-7, its exact component: the linear branch keeps a negative number. -/
theorem test_xyzToRGB_blue :
    (mRgbGK.r2.dot ⟨1 / 2, 1 / 2, 0⟩, linearToSRGBExact paramsDefault.toColourParams (mRgbGK.r2.dot ⟨1 / 2, 1 / 2, 0⟩))
      = (-0.07415, -0.958018) := by decide +kernel
/-- V-RGB-8. -/
theorem test_xyzToRGB_undefined : (after (exec (.xyzToRGB 0 (.lit ⟨0, 0, 0, 9, none⟩)) State.reset)
      fun t => (t.env, t.statuses)) = some ([], [.undefinedChromaticity]) := by decide +kernel
/-- V-SRGB-5: the threshold takes the linear branch. -/
theorem test_linearToSRGB_threshold : (after (exec (.linearToSRGB 0 (.lit 0.0031308)) State.reset) (·.env))
    = some [(0, .num 0.040449936)] := by decide +kernel
/-- V-SRGB-11. -/
theorem test_linearToSRGB_one : (after (exec (.linearToSRGB 0 (.lit 1)) State.reset) (·.env))
    = some [(0, .num 1)] := by decide +kernel
/-- V-CCT-11. -/
theorem test_xyzToCCT : (after (exec (.xyzToCCT 0 (.lit ⟨0, 0, 0, 0, some ⟨0.4, 0.18580001, 0⟩⟩)) State.reset) (·.env))
    = some [(0, .num (-137406617489806654794483))] := by decide +kernel
/-- V-CCT-5. -/
theorem test_xyzToCCT_undefined :
    (after (exec (.xyzToCCT 0 (.lit ⟨0, 0, 0, 0, some ⟨0.3320, 0.1858, 0⟩⟩)) State.reset) fun t => (t.env, t.statuses))
    = some ([], [.undefinedCCT]) := by decide +kernel
/-- IEEE 754: the binary64 number nearest 0.1 is 3602879701896397 × 2^-55; a tie goes to the even neighbour; the largest
finite number's upper neighbour by half a place is infinite. -/
theorem test_round64 :
    (round64 0.1, round64 (3 / 2 ^ 1075), round64 (1 / 2 ^ 1075), round64 (2 ^ 1024 - 2 ^ 970))
      = (.finite (3602879701896397 / 2 ^ 55), .finite (2 / 2 ^ 1074), .finite 0, .posInf) := by decide +kernel
/-- IEEE 754: a number by an infinity is zero, an infinity by an infinity or times zero is no number. -/
theorem test_infinity64 :
    (div64 (round64 3) (round64 (2 ^ 1024)), div64 .negInf .posInf, mul64 (round64 0) .posInf, add64 .posInf .negInf,
      div64 .posInf (round64 (-2))) = (.finite 0, .nan, .nan, .nan, .negInf) := by decide +kernel
/-- R136: `y` beyond every binary64 number leaves `n` zero and `T` the constant of the polynomial; `x` beyond every one
leaves no number. -/
theorem test_xyzToCCT64 : (xyzToCCT64 ⟨0.25, 2 ^ 1025, 0⟩, xyzToCCT64 ⟨2 ^ 1025, 0.25, 0⟩) = (some 5517, none) := by
  decide +kernel
/-- `2^(1/2.4)` is 1.3348398541700344 to sixteen digits (V-SRGB-12, `1.055 c - 0.055`); it is rounded down here. -/
theorem test_powFloor : powFloor 2 ≤ 1.3348398542 ∧ 1.3348398538 ≤ powFloor 2 ∧ floorRoot 4096 = 2 ∧ floorRoot 4095 = 1 := by
  decide +kernel

/-! ### The Device Session -/

/-- V-DS-1. -/
theorem test_init : (after (exec (.init 0) fresh) fun t => (t.session, t.traffic)) = some (.ready,
    [.read 0x11 2 (some [0x08, 0x21]), .read 0x0A 2 (some [0x32, 0x08]), .read 0x0B 2 (some [0x80, 0x11]),
      .write 0x0A [0x32, 0x38] true, .write 0x0B [0x80, 0x11] true, .read 0x0A 2 (some [0x32, 0x38]),
      .read 0x0B 2 (some [0x80, 0x11])]) := by decide +kernel
/-- V-DS-2. -/
theorem test_init_mismatch : (after (exec (.init 0) { fresh with script := [.data [0x08, 0x20]] })
      fun t => (t.session, t.cfgCache, t.statuses, t.traffic))
    = some (.uninitialized, none, [.identityMismatch 0x0820], [.read 0x11 2 (some [0x08, 0x20])]) := by decide +kernel
def readBytes : List Byte :=
  [0x12, 0x34, 0x56, 0x78, 0x00, 0x00, 0x01, 0x00, 0xFF, 0xFF, 0xFF, 0xFF, 0x80, 0x00, 0x01, 0x00]
/-- V-DS-14. -/
theorem test_read : (after (exec (.read 0 1 2) (scripted [.data readBytes])) (·.env))
    = some [(0, .channelSet ⟨⟨1, 0x23456, 7, 8⟩, ⟨0, 1, 0, 0⟩, ⟨15, 0xFFFFF, 15, 15⟩, ⟨8, 1, 0, 0⟩⟩),
        (1, .crcFlags ⟨true, true, true, true⟩), (2, .status .ok)] := by decide +kernel
/-- V-DS-15. -/
theorem test_read_crc :
    (after (exec (.read 0 1 2) { scripted [.data readBytes] with params := { paramsDefault with crcFn := some .opt4048 } })
      (·.statuses)) = some [.crcMismatch ⟨false, false, false, false⟩] := by decide +kernel
/-- V-DS-19, its first line. -/
theorem test_readConfig :
    (after (exec (.readConfig 0 1) (scripted [.data [0x72, 0x08], .data [0xFF, 0x93]])) (·.cfgCache)) = some (some vpk3) := by
  decide +kernel
/-- V-DS-18. -/
theorem test_readConfig_failure :
    (after (exec (.readConfig 0 1) (scripted [.data [0x12, 0x34], .fail])) fun t => (t.cfgCache, t.statuses))
      = some (some vpk3, [.transportFailure 0x0B .read]) := by decide +kernel
theorem test_writeConfig : (after (exec (.writeConfig 0) ready) written)
    = some [(0x0A, [0x32, 0x08], true), (0x0B, [0x80, 0x11], true)] := by decide +kernel
/-- V-DS-3, for a session that was never initialised. -/
theorem test_writeConfig_notReady : (after (exec (.writeConfig 0) fresh) fun t => (t.statuses, t.traffic))
    = some ([.notReady], []) := by decide +kernel
/-- V-DS-4 to V-DS-13. -/
theorem test_setters_B :
    [after (exec (.setRange 0 (.lit 5)) ready) written, after (exec (.setConversionTime 0 (.lit 11)) ready) written,
      after (exec (.setOperatingMode 0 (.lit 3)) ready) written,
      after (exec (.setThresholdChannel 0 (.lit 2)) ready) written,
      after (exec (.setFaultCount 0 (.lit 3)) ready) written, after (exec (.setQuickWake 0 (.lit 1)) ready) written,
      after (exec (.setIntConfig 0 (.lit 3)) ready) written, after (exec (.setIntPolarity 0 (.lit 1)) ready) written,
      after (exec (.setIntDirection 0 (.lit 0)) ready) written, after (exec (.setLatch 0 (.lit 0)) ready) written]
    = [(0x16#8, 0x08#8, 0x80#8, 0x11#8), (0x32, 0xC8, 0x80, 0x11), (0x32, 0x38, 0x80, 0x11), (0x32, 0x08, 0x80, 0x51),
       (0x32, 0x0B, 0x80, 0x11), (0xB2, 0x08, 0x80, 0x11), (0x32, 0x08, 0x80, 0x1D), (0x32, 0x0C, 0x80, 0x11),
       (0x32, 0x08, 0x80, 0x01), (0x32, 0x00, 0x80, 0x11)].map fun b =>
        some [(0x0A, [b.1, b.2.1], true), (0x0B, [b.2.2.1, b.2.2.2], true)] := by decide +kernel
/-- The same setters under layout A. -/
theorem test_setters_A :
    [after (exec (.setRange 0 (.lit 5)) readyA) written, after (exec (.setConversionTime 0 (.lit 11)) readyA) written,
      after (exec (.setOperatingMode 0 (.lit 3)) readyA) written,
      after (exec (.setThresholdChannel 0 (.lit 2)) readyA) written,
      after (exec (.setFaultCount 0 (.lit 3)) readyA) written, after (exec (.setQuickWake 0 (.lit 1)) readyA) written,
      after (exec (.setIntConfig 0 (.lit 3)) readyA) written, after (exec (.setIntPolarity 0 (.lit 1)) readyA) written,
      after (exec (.setIntDirection 0 (.lit 0)) readyA) written, after (exec (.setLatch 0 (.lit 0)) readyA) written]
    = [(0x2C#8, 0x10#8, 0x80#8, 0x11#8), (0x65, 0x90, 0x80, 0x11), (0x64, 0x70, 0x80, 0x11), (0x64, 0x10, 0x80, 0x51),
       (0x64, 0x13, 0x80, 0x11), (0xE4, 0x10, 0x80, 0x11), (0x64, 0x10, 0x80, 0x1D), (0x64, 0x18, 0x80, 0x11),
       (0x64, 0x10, 0x80, 0x01), (0x64, 0x00, 0x80, 0x11)].map fun b =>
        some [(0x0A, [b.1, b.2.1], true), (0x0B, [b.2.2.1, b.2.2.2], true)] := by decide +kernel
/-- V-DS-17: the register written before the failure holds the new half, the failed one is unknown, the cache is the one
before the call. -/
theorem test_setter_failure : (after (exec (.setLatch 0 (.lit 0)) (scripted [.echo, .fail]))
      fun t => (t.cfgCache, t.statuses, t.device))
    = some (some vpk3, [.transportFailure 0x0B .write],
        [(20, 0x32#8), (21, 0x00#8), (34, 0x08#8), (35, 0x21#8)]) := by decide +kernel
/-- R43, R114: no step when the transport never returns. -/
theorem test_hang : faultOf (exec (.read 0 1 2) { ready with hang := true }) = some .transportHang := by decide +kernel

/-! ### The run -/

/-- V-OP-2. -/
theorem test_step_illegal : (after (step (line0 [0x0B])) fun t => (t.statuses, t.env, t.index, t.stopped))
    = some ([.illegalOperation 0xB], [], 0, true) := by decide +kernel
theorem test_step_malformed : refusalOf (step (line0 [0x20])) = some (.malformedLine (.unknownSelector 0x20)) := by
  decide +kernel
theorem test_step_end : faultOf (step State.reset) = some .endOfProgram := by decide +kernel
theorem test_step_stopped : faultOf (step { line0 [0x10, 0] with stopped := true }) = some .programStopped := by
  decide +kernel
theorem test_operandKind : faultOf (exec (.reconstruct 0 (.var 1)) { State.reset with env := [(1, .bool true)] })
    = some (.operandKind 1) := by decide +kernel
/-- R121: a reconstructed value converts to a number exactly. -/
theorem test_wide_is_number :
    (after (exec (.linearToSRGB 0 (.var 1)) { State.reset with env := [(1, .wide 1)] }) fun t => lookup t.env 0)
      = some (some (.num 1)) := by decide +kernel

/-! ### Witnesses: the hypotheses of every statement can be met -/

theorem witness_DecodeOfEncodeIsTheInstruction :
    (Instr.read 0 255 7).wf = true ∧ (Instr.packConfig 255 (.image vpk5)).wf = true
      ∧ (Instr.linearToSRGB 0 (.lit (-593 / 14))).wf = true ∧ (Instr.setRange 0 (.lit 1000)).wf = true := by decide +kernel

theorem witness_ReservedOpselIsIllegalOperation :
    (0x9 ≤ 0x9 ∧ 0x9 ≤ 0xF ∧ (line0 [0x09, 1]).stopped = false ∧ (line0 [0x09, 1]).program[0]? = some (BitVec.ofNat 8 0x9 :: [1]))
    ∧ (0x9 ≤ 0xF ∧ 0xF ≤ 0xF ∧ (line0 [0x0F]).stopped = false ∧ (line0 [0x0F]).program[0]? = some (BitVec.ofNat 8 0xF :: [])) := by
  decide +kernel

theorem witness_StepRunsTheDecodedLine :
    (line0 [0x10, 5]).stopped = false ∧ (line0 [0x10, 5]).program[(line0 [0x10, 5]).index]? = some [0x10, 5]
      ∧ decoded [0x10, 5] = some (.init 5) := by decide +kernel

/-- Every operand form denotes a configuration. -/
theorem witness_PackConfigProducesLayoutB :
    State.reset.params.layout = .B ∧ evalConfig State.reset (.image vpk5) = .ok (.ok vpk5)
      ∧ evalConfig State.reset (.record ⟨0, 12, 8, 0, 1, 0, 0, 1, 0, 0, 1⟩) = .ok (.ok vpk3)
      ∧ evalConfig { State.reset with env := [(4, .config vpk3)] } (.var 4) = .ok (.ok vpk3) :=
  ⟨rfl, rfl, rfl, rfl⟩

theorem witness_PackConfigProducesLayoutA :
    blockA.params.layout = .A ∧ evalConfig blockA (.image vpk5) = .ok (.ok vpk5) := ⟨rfl, rfl⟩

/-- At the boundary of the width of `range`: 15 fits, 16 does not. -/
theorem witness_RecordLiteralFitsOrIsOutOfRange :
    (∀ e ∈ (ConfigRecord.mk 1 15 15 3 1 3 1 1 3 3 1).entries, e.2 < 2 ^ e.1.width)
      ∧ (ConfigRecord.mk 1 16 0 0 0 0 0 0 0 0 2).entries = [(.quickWake, 1)] ++ (.range, 16) ::
          [(.conversionTime, 0), (.operatingMode, 0), (.latch, 0), (.interruptPolarity, 0), (.faultCount, 0),
           (.thresholdChannelSelect, 0), (.interruptDirection, 0), (.interruptConfig, 0), (.i2cBurst, 2)]
      ∧ (1 < 2 ^ ConfigField.quickWake.width ∧ 2 ^ ConfigField.range.width ≤ 16) := by decide +kernel

theorem witness_UnpackConfigReadsLayoutB :
    State.reset.params.layout = .B ∧ evalOperand State.reset Value.asWord (.lit 0xDEADBEEF) = .ok 0xDEADBEEF :=
  ⟨rfl, rfl⟩

theorem witness_UnpackConfigReadsLayoutA :
    blockA.params.layout = .A
      ∧ evalOperand { blockA with env := [(1, .word 7)] } Value.asWord (.var 1) = .ok 7 := ⟨rfl, rfl⟩

theorem witness_UnpackOfPackIsTheConfiguration :
    evalConfig State.reset (.image vpk5) = .ok (.ok vpk5) ∧ ∃ t, exec (.packConfig 3 (.image vpk5)) State.reset = .next t :=
  ⟨rfl, _, rfl⟩

/-- Under either layout, with two words that differ in every reserved bit and in the fixed one. -/
theorem witness_ReservedBitsPackFixedAndUnpackIgnored :
    (State.reset.params.layout = .B ∧ evalConfig State.reset (.image vpk5) = .ok (.ok vpk5)
      ∧ 0x40007F82#32 &&& ~~~0x4000FF82#32 = 0x00008000#32 &&& ~~~0x4000FF82#32)
    ∧ (blockA.params.layout = .A ∧ evalConfig blockA (.image vpk5) = .ok (.ok vpk5)
      ∧ 0x00047F82#32 &&& ~~~0x0004FF82#32 = 0x00008000#32 &&& ~~~0x0004FF82#32) :=
  ⟨⟨rfl, rfl, by decide⟩, rfl, rfl, by decide⟩

theorem witness_UnpackChannelReadsTheFourFields :
    evalOperand State.reset Value.asWord (.lit 0x12345678) = .ok 0x12345678 := rfl

theorem witness_CrcValidComparesOrAccepts :
    evalOperand State.reset Value.asChannel (.lit (channel 0 1)) = .ok (channel 0 1) ∧ State.reset.params.crcFn = none
      ∧ { paramsDefault with crcFn := some .opt4048 }.crcFn = some .opt4048
      ∧ { paramsDefault with crcFn := some .uninterpreted }.crcFn = some .uninterpreted
      ∧ (∃ E R C, E = (channel 0 1).exponent.getLsbD ∧ R = (channel 0 1).mantissa.getLsbD
          ∧ C = (channel 0 1).counter.getLsbD) := ⟨rfl, rfl, rfl, rfl, _, _, _, rfl, rfl, rfl⟩

theorem witness_ReconstructNeverOverflows :
    evalOperand State.reset Value.asChannel (.lit (channel 15 1048575)) = .ok (channel 15 1048575) := rfl

/-- A set with a sum that is not zero and one with a sum that is. -/
theorem witness_RawToXYZExactNumbers :
    State.reset.params.num = .exact
      ∧ evalSet State.reset (setOf (channel 0 1) (channel 0 0) (channel 0 0) (channel 0 0))
        = .ok ⟨channel 0 1, channel 0 0, channel 0 0, channel 0 0⟩
      ∧ (RawChannelNumber (channel 0 1) = 1 ∧ RawChannelNumber (channel 0 0) = 0)
      ∧ (1 : Rat) * mCalGK.r0.c0 + 1 * mCalGK.r0.c1 + 1 * mCalGK.r0.c2 ≠ 0
      ∧ (0 : Rat) * mCalGK.r0.c0 + 0 * mCalGK.r0.c1 + 0 * mCalGK.r0.c2 = 0 := by
  refine ⟨rfl, rfl, ?_, ?_⟩ <;> decide +kernel

def xyzAfter (t : State) (d : Name) : Option XYZColor := (lookup t.env d).bind Value.asXYZ

/-- One count in channel 0. -/
def oneCount : ChannelSet := ⟨channel 0 1, channel 0 0, channel 0 0, channel 0 0⟩

theorem oneCount_values : oneCount.values = ⟨1, 0, 0, 0⟩ := by decide +kernel

/-- Whatever the `FIXED` datapath chooses, one count in channel 0 has a chromaticity. -/
theorem fixed_chroma : (fixedState.params.rawToXYZ oneCount).chroma.isSome = true := by
  have hn : fixedState.params.num ≠ .exact := by decide
  obtain ⟨⟨hX, hY, hZ, -⟩, hz, -⟩ := xyzConforming_spec fixedState.params.toColourParams hn (fun _ => none)
    (fun X Y Z => X + Y + Z == 0) (fun _ _ _ => none) oneCount.values _ _ rfl rfl
  have eX : (rawToXYZExact fixedState.params.mCal oneCount.values).X = 2348929920 / 10 ^ 13 := by decide +kernel
  have eY : (rawToXYZExact fixedState.params.mCal oneCount.values).Y = -189652390 / 10 ^ 13 := by decide +kernel
  have eZ : (rawToXYZExact fixedState.params.mCal oneCount.values).Z = 120811684 / 10 ^ 13 := by decide +kernel
  rw [nearE2E_iff, eX, abs_le, abs_of_pos (by norm_num)] at hX
  rw [nearE2E_iff, eY, abs_le, abs_of_neg (by norm_num)] at hY
  rw [nearE2E_iff, eZ, abs_le, abs_of_pos (by norm_num)] at hZ
  show (fixedState.params.xyzConforming _ _ _ _).chroma.isSome = true
  rw [Option.isSome_iff_ne_none, Ne, hz, beq_iff_eq]
  intro h
  norm_num at hX hY hZ
  linarith [hX.1, hY.1, hZ.1]

/-- Under every number domain a name comes to hold a colour with a chromaticity. -/
theorem witness_ChromaticitySumsToOne :
    (State.reset.params.num = .exact ∧ ∃ t c h, exec (.rawToXYZ 0 (setOf (channel 0 1) (channel 0 0) (channel 0 0)
        (channel 0 0))) State.reset = .next t ∧ lookup t.env 0 = some (.xyz c) ∧ c.chroma = some h)
    ∧ (binaryState.params.num ≠ .exact ∧ ∃ t c h, exec (.rawToXYZ 0 (setOf (channel 0 1) (channel 0 0) (channel 0 0)
        (channel 0 0))) binaryState = .next t ∧ lookup t.env 0 = some (.xyz c) ∧ c.chroma = some h)
    ∧ (fixedState.params.num ≠ .exact ∧ ∃ t c h, exec (.rawToXYZ 0 (setOf (channel 0 1) (channel 0 0) (channel 0 0)
        (channel 0 0))) fixedState = .next t ∧ lookup t.env 0 = some (.xyz c) ∧ c.chroma = some h) := by
  have he : (State.reset.params.rawToXYZ oneCount).chroma.isSome = true := by decide +kernel
  have hb : (binaryState.params.rawToXYZ oneCount).chroma.isSome = true := by decide +kernel
  obtain ⟨g, hg⟩ := Option.isSome_iff_exists.1 he
  obtain ⟨b, hb⟩ := Option.isSome_iff_exists.1 hb
  obtain ⟨k, hk⟩ := Option.isSome_iff_exists.1 fixed_chroma
  exact ⟨⟨rfl, _, _, g, rfl, rfl, hg⟩, ⟨by decide, _, _, b, rfl, rfl, hb⟩, by decide, _, _, k, rfl, rfl, hk⟩

theorem witness_CalibrationMatrixGKSums :
    ((0 : Rat) ≤ 0 ∧ (0 : Rat) ≤ 0 ∧ (0 : Rat) ≤ 0) ∧ ((0 : Rat) ≤ 40000 ∧ (0 : Rat) ≤ 64000 ∧ (0 : Rat) ≤ 12000) := by
  decide +kernel

def vrgb1 : XYZColor := ⟨1, 1, 2, 9, some ⟨1 / 4, 1 / 4, 1 / 2⟩⟩

theorem witness_XyzToRGBExactNumbers :
    State.reset.params.num = .exact ∧ evalOperand State.reset Value.asXYZ (.lit vrgb1) = .ok vrgb1
      ∧ vrgb1.chroma = some ⟨1 / 4, 1 / 4, 1 / 2⟩
      ∧ ∃ f : Rat → Rat, (∀ q : Rat, q ≤ 0.0031308 → f q = 12.92 * q)
          ∧ ∀ q : Rat, 0.0031308 < q → f q = 1.055 * paramsDefault.pow24 q - 0.055 := by
  refine ⟨rfl, rfl, rfl, fun q => if q ≤ 0.0031308 then 12.92 * q else 1.055 * paramsDefault.pow24 q - 0.055, ?_, ?_⟩
  · intro q h; exact if_pos h
  · intro q h; exact if_neg (not_le.2 h)

/-- The threshold itself and the number just above it. -/
theorem witness_LinearToSRGBTakesItsTwoBranches :
    State.reset.params.num = .exact
      ∧ evalOperand State.reset Value.asNum (.lit (0.0031308 : Rat)) = .ok 0.0031308 ∧ (0.0031308 : Rat) ≤ 0.0031308
      ∧ evalOperand { State.reset with env := [(1, .num 0.0031309)] } Value.asNum (.var 1) = .ok 0.0031309
      ∧ (0.0031308 : Rat) < 0.0031309 := by
  refine ⟨rfl, rfl, ?_, rfl, ?_⟩ <;> decide +kernel

/-- A negative argument, one, and an argument above one. -/
theorem witness_TransferFunctionDoesNotClamp :
    State.reset.params.num = .exact
      ∧ (PowAtOne paramsDefault ∧ PowNondecreasing paramsDefault 1 (-1) ∧ (-1 : Rat) < 0)
      ∧ (PowAtOne paramsDefault ∧ PowNondecreasing paramsDefault 1 1 ∧ (1 : Rat) = 1)
      ∧ (PowAtOne { paramsDefault with powPoints := [(1, 1), (2, 1.3348)] }
          ∧ PowNondecreasing { paramsDefault with powPoints := [(1, 1), (2, 1.3348)] } 1 2 ∧ (1 : Rat) < 2) := by
  have h1 : PowAtOne paramsDefault := by unfold PowAtOne; decide +kernel
  refine ⟨rfl, ⟨h1, fun _ h => absurd h (by decide +kernel), by decide +kernel⟩, ⟨h1, fun _ _ => le_refl _, rfl⟩,
    ?_, fun _ _ => ?_, by decide +kernel⟩
  · unfold PowAtOne; decide +kernel
  · decide +kernel

theorem witness_TransferFunctionIsAccurate :
    State.reset.params.num = .exact ∧ (0.0031308 : Rat) < 1 ∧ PowAccurate State.reset.params 1 := by
  refine ⟨rfl, by decide +kernel, fun _ => ?_⟩
  have h : State.reset.params.pow24 1 = 1 := by decide +kernel
  have e : (0 : ℝ) ≤ ((State.reset.params.epsPow : Rat) : ℝ) := by
    have : (0 : Rat) ≤ State.reset.params.epsPow := by decide +kernel
    exact_mod_cast this
  simpa [h] using e

def vcct2 : XYZColor := ⟨0, 0, 0, 0, some ⟨0.3127, 0.3290, 0.3583⟩⟩

theorem witness_XyzToCCTExactPolynomial :
    State.reset.params.num = .exact ∧ evalOperand State.reset Value.asXYZ (.lit vcct2) = .ok vcct2
      ∧ vcct2.chroma = some ⟨0.3127, 0.3290, 0.3583⟩ ∧ (0.3290 : Rat) ≠ 0.1858
      ∧ (193 / 1432 : Rat) = (0.3127 - 0.3320) / (0.1858 - 0.3290)
      ∧ evalOperand fixedState Value.asXYZ (.lit vcct2) = .ok vcct2
      ∧ evalOperand fixedState Value.asXYZ (.lit ⟨1, 1, 1, 1, some ⟨0.3127, 0.3290, 9⟩⟩)
        = .ok ⟨1, 1, 1, 1, some ⟨0.3127, 0.3290, 9⟩⟩ := by
  refine ⟨rfl, rfl, rfl, ?_, ?_, rfl, rfl⟩ <;> decide +kernel

/-- On the line; under `BINARY64` a binary64 number nearer to it than the last place; and a quotient that overflows. -/
theorem witness_CCTUndefinedOnTheLine :
    evalOperand State.reset Value.asXYZ (.lit ⟨0, 0, 0, 0, some ⟨0.5, 0.1858, 0⟩⟩)
      = .ok ⟨0, 0, 0, 0, some ⟨0.5, 0.1858, 0⟩⟩
    ∧ (binaryState.params.num = .binary64
      ∧ evalOperand binaryState Value.asXYZ (.lit ⟨0, 0, 0, 0, some ⟨0.5, 0.1858 + 1 / 2 ^ 100, 0⟩⟩)
        = .ok ⟨0, 0, 0, 0, some ⟨0.5, 0.1858 + 1 / 2 ^ 100, 0⟩⟩
      ∧ CCTDen64 ⟨0.5, 0.1858 + 1 / 2 ^ 100, 0⟩ = .finite 0)
    ∧ (evalOperand binaryState Value.asXYZ (.lit ⟨0, 0, 0, 0, some ⟨2 ^ 400, 0.25, 0⟩⟩)
        = .ok ⟨0, 0, 0, 0, some ⟨2 ^ 400, 0.25, 0⟩⟩
      ∧ CCT64 ⟨2 ^ 400, 0.25, 0⟩ = .negInf) :=
  ⟨rfl, ⟨rfl, rfl, by decide +kernel⟩, rfl, by decide +kernel⟩

/-- A channel set for each domain, and a colour without chromaticity. -/
theorem witness_NoChromaticityNoNumber :
    evalSet State.reset (setOf (channel 0 1) (channel 0 0) (channel 0 0) (channel 0 0)) = .ok oneCount
      ∧ State.reset.params.num ≠ .binary64 ∧ fixedState.params.num ≠ .binary64 ∧ binaryState.params.num = .binary64
      ∧ evalOperand State.reset Value.asXYZ (.lit ⟨0, 0, 0, 9, none⟩) = .ok ⟨0, 0, 0, 9, none⟩ :=
  ⟨rfl, by decide, by decide, rfl, rfl⟩

theorem witness_UndefinedChromaticityPropagates :
    ∃ t, exec (.rawToXYZ 0 (setOf (channel 0 0) (channel 0 0) (channel 0 0) (channel 0 0))) State.reset = .next t
      ∧ t.statuses = State.reset.statuses ++ [.undefinedChromaticity] := by
  have h : (after (exec (.rawToXYZ 0 (setOf (channel 0 0) (channel 0 0) (channel 0 0) (channel 0 0))) State.reset)
      (·.statuses)) = some [.undefinedChromaticity] := by decide +kernel
  refine ⟨_, rfl, ?_⟩
  injection h

/-- The transfer function over the reals. -/
noncomputable def srgb (c : Rat) : ℝ := if c ≤ 0.0031308 then 12.92 * c else 1.055 * (c : ℝ) ^ ((5 : ℝ) / 12) - 0.055

theorem srgb_isSRGB : IsSRGB srgb := ⟨fun _ h => if_pos h, fun _ h => if_neg (not_le.2 h)⟩

/-- Matrices whose numbers stay on the linear branch: `M_CAL` the identity, `M_RGB` the identity over 1024. -/
def linearState : State :=
  { State.reset with params := { paramsDefault with
      num := .binary64
      mCal := ⟨⟨1, 0, 0, 0⟩, ⟨0, 1, 0, 0⟩, ⟨0, 0, 1, 0⟩, ⟨0, 0, 0, 1⟩⟩
      mRgb := ⟨⟨1 / 1024, 0, 0⟩, ⟨0, 1 / 1024, 0⟩, ⟨0, 0, 1 / 1024⟩⟩ } }

def finite64 (x : Binary64) : Bool := x.number.isSome

theorem finite_of_finite64 {x : Binary64} (h : finite64 x = true) : ∃ q, x = .finite q := by
  cases x <;> first | exact ⟨_, rfl⟩ | cases h

/-- Under both domains, with operands of each kind; the channel set has a chromaticity under `FIXED` and under
`EXACT`. -/
theorem witness_NonExactNumbersStayWithinTolerance :
    (fixedState.params.num ≠ .exact ∧ binaryState.params.num ≠ .exact ∧ IsSRGB srgb)
      ∧ evalOperand fixedState Value.asNum (.lit (1 / 2 : Rat)) = .ok (1 / 2)
      ∧ (evalOperand fixedState Value.asXYZ (.lit vrgb1) = .ok vrgb1 ∧ vrgb1.chroma = some ⟨1 / 4, 1 / 4, 1 / 2⟩)
      ∧ evalSet fixedState (setOf (channel 0 1) (channel 0 0) (channel 0 0) (channel 0 0)) = .ok oneCount
      ∧ (fixedState.params.rawToXYZ oneCount).chroma.isSome = true
      ∧ (rawToXYZExact fixedState.params.mCal oneCount.values).chroma.isSome = true :=
  ⟨⟨by decide, by decide, srgb_isSRGB⟩, rfl, ⟨rfl, rfl⟩, rfl, fixed_chroma, by decide +kernel⟩

/-- Chromaticities with a temperature and without one, in each domain; the last of each is a delivered one. -/
theorem witness_NonExactNumbersStayWithinTolerance_cct :
    HasCCT fixedState.params.num ⟨1 / 4, 1 / 4, 1 / 2⟩ ∧ ¬ HasCCT fixedState.params.num ⟨0.5, 0.1858, 0⟩
      ∧ ¬ HasCCT binaryState.params.num ⟨0.5, 0.1858 + 1 / 2 ^ 100, 0⟩ ∧ ¬ HasCCT binaryState.params.num ⟨2 ^ 400, 0.25, 0⟩
      ∧ ((linearState.params.rawToXYZ ⟨channel 0 1, channel 0 1, channel 0 2, channel 0 9⟩).chroma
            = some ⟨1 / 4, 1 / 4, 1 / 2⟩
          ∧ HasCCT linearState.params.num ⟨1 / 4, 1 / 4, 1 / 2⟩)
      ∧ ∃ h, (linearState.params.rawToXYZ ⟨channel 0 2000, channel 0 929, channel 0 2071, channel 0 0⟩).chroma = some h
          ∧ ¬ HasCCT linearState.params.num h := by
  have h1 : CCTDen64 ⟨0.5, 0.1858 + 1 / 2 ^ 100, 0⟩ = .finite 0 := by decide +kernel
  have h2 : CCT64 ⟨2 ^ 400, 0.25, 0⟩ = .negInf := by decide +kernel
  have h3 : ((linearState.params.rawToXYZ ⟨channel 0 2000, channel 0 929, channel 0 2071, channel 0 0⟩).chroma.map CCTDen64)
      = some (.finite 0) := by decide +kernel
  obtain ⟨h, hh, hd⟩ := Option.map_eq_some_iff.1 h3
  refine ⟨.inr ⟨by decide, by decide +kernel⟩, ?_, ?_, ?_, ⟨by decide +kernel, .inl ⟨rfl, by decide +kernel,
    finite_of_finite64 (by decide +kernel)⟩⟩, h, hh, ?_⟩
  · rintro (⟨h, -⟩ | ⟨-, h⟩)
    · cases h
    · exact h rfl
  · rintro (⟨-, h, -⟩ | ⟨h, -⟩)
    · exact h h1
    · exact h rfl
  · rintro (⟨-, -, q, h⟩ | ⟨h, -⟩)
    · rw [h2] at h; cases h
    · exact h rfl
  · rintro (⟨-, h, -⟩ | ⟨h, -⟩)
    · exact h hd
    · exact h rfl

/-- One tenth; half way between two neighbours, of which the even one is chosen; the least number that rounds to an
infinity; and the same below zero. -/
theorem witness_BinaryRoundingIsNearest :
    (|(1 / 10 : Rat)| < 2 ^ 1024 - 2 ^ 970 ∧ round64 (1 / 10) = .finite (3602879701896397 / 2 ^ 55))
      ∧ (round64 (2 ^ 53 + 1) = .finite (2 ^ 53) ∧ IsBinary64 (2 ^ 53 + 2) ∧ (2 ^ 53 + 2 : Rat) ≠ 2 ^ 53
          ∧ |(2 ^ 53 + 2 : Rat) - (2 ^ 53 + 1)| = |(2 ^ 53 : Rat) - (2 ^ 53 + 1)|)
      ∧ round64 (2 ^ 1024 - 2 ^ 970) = .posInf ∧ round64 (-(2 ^ 1024 - 2 ^ 970)) = .negInf := by
  refine ⟨⟨?_, ?_⟩, ⟨?_, ⟨2 ^ 52 + 1, 1, ?_, ?_, ?_, ?_⟩, ?_, ?_⟩, ?_, ?_⟩
  all_goals decide +kernel

/-- The transfer function as R138 computes it on a number, under `linearState`. -/
def transfer64 (x : Rat) : Binary64 := linearToSRGB64 linearState.params.toColourParams (.finite x)

theorem within_of_srgbNear {c q : Rat} (h : srgbNear c q = true) : WithinE2E q (srgb c) :=
  (srgbNear_iff srgb srgb_isSRGB.1 srgb_isSRGB.2 c q).1 h

/-- `linearToSRGB(0.001)`, whose binary64 product is not the exact one. -/
theorem witness_BinaryOperationsDeliverWhatTheyCompute_transfer :
    linearState.params.num = .binary64 ∧ IsSRGB srgb
      ∧ (∀ x T, round64 0.0031308 = .finite T → transfer64 x = if x ≤ T then mul64 (round64 12.92) (.finite x)
          else sub64 (mul64 (round64 1.055) (round64 (linearState.params.pow24 x))) (round64 0.055))
      ∧ evalOperand linearState Value.asNum (.lit (0.001 : Rat)) = .ok 0.001
      ∧ ∃ x q, round64 0.001 = .finite x ∧ transfer64 x = .finite q ∧ WithinE2E q (srgb 0.001) := by
  refine ⟨rfl, srgb_isSRGB, fun x T hT => ?_, rfl, 1152921504606847 / 2 ^ 60, 930984114970029 / 2 ^ 56, ?_, ?_, ?_⟩
  · have e : round64 gammaT = .finite T := by rw [← hT]; congr 1; norm_num [gammaT]
    have eA : round64 gammaA = round64 12.92 := by congr 1; norm_num [gammaA]
    have eB : round64 gammaB = round64 1.055 := by congr 1; norm_num [gammaB]
    have eC : round64 gammaC = round64 0.055 := by congr 1; norm_num [gammaC]
    simp only [transfer64, linearToSRGB64, le64, ColourParams.pow64, e, eA, eB, eC, decide_eq_true_eq]
  · decide +kernel
  · decide +kernel
  · exact within_of_srgbNear (by decide +kernel)

/-- Three numbers on the linear branch. -/
theorem witness_BinaryOperationsDeliverWhatTheyCompute_rgb :
    RowDot64 linearState.params.mRgb.r0 ⟨1 / 4, 1 / 4, 1 / 2⟩ = .finite (1 / 4096)
      ∧ RowDot64 linearState.params.mRgb.r1 ⟨1 / 4, 1 / 4, 1 / 2⟩ = .finite (1 / 4096)
      ∧ RowDot64 linearState.params.mRgb.r2 ⟨1 / 4, 1 / 4, 1 / 2⟩ = .finite (1 / 2048)
      ∧ ∃ q1 q2 q3, transfer64 (1 / 4096) = .finite q1 ∧ transfer64 (1 / 4096) = .finite q2
        ∧ transfer64 (1 / 2048) = .finite q3
        ∧ RGBWithin srgb linearState.params.mRgb ⟨1 / 4, 1 / 4, 1 / 2⟩ ⟨q1, q2, q3⟩ := by
  have h1 : transfer64 (1 / 4096) = .finite (7273313398203351 / 2 ^ 61) := by decide +kernel
  have h2 : transfer64 (1 / 2048) = .finite (7273313398203351 / 2 ^ 60) := by decide +kernel
  refine ⟨by decide +kernel, by decide +kernel, by decide +kernel, _, _, _, h1, h1, h2, ?_, ?_, ?_⟩
  · exact within_of_srgbNear (by decide +kernel)
  · exact within_of_srgbNear (by decide +kernel)
  · exact within_of_srgbNear (by decide +kernel)

/-- `n = 1`: the sum of the four coefficients. -/
theorem witness_BinaryOperationsDeliverWhatTheyCompute_cct :
    CCTDen64 ⟨0.25, 0.125, 0⟩ ≠ .finite 0
      ∧ ∃ q : Rat, CCT64 ⟨0.25, 0.125, 0⟩ = .finite q ∧ WithinE2E q (CCTNumber ⟨0.25, 0.125, 0⟩) := by
  refine ⟨by decide +kernel, ?_⟩
  have h : (match CCT64 ⟨0.25, 0.125, 0⟩ with
      | .finite q => nearE2E (CCTNumber ⟨0.25, 0.125, 0⟩) q
      | _ => false) = true := by decide +kernel
  split at h
  · next q hq =>
    refine ⟨q, hq, ?_⟩
    have := (nearE2E_iff _ _).1 h
    unfold WithinE2E
    exact_mod_cast this
  · cases h

/-- A sum that is not zero and quotients that conform with all that follows from them, and four dark channels. -/
theorem witness_BinaryOperationsDeliverWhatTheyCompute_xyz :
    (evalSet linearState (setOf (channel 0 1) (channel 0 1) (channel 0 2) (channel 0 9))
        = .ok ⟨channel 0 1, channel 0 1, channel 0 2, channel 0 9⟩
      ∧ VectorDot64 ⟨1, 1, 2, 9⟩ ⟨1, 0, 0, 0⟩ = .finite 1 ∧ VectorDot64 ⟨1, 1, 2, 9⟩ ⟨0, 1, 0, 0⟩ = .finite 1
      ∧ VectorDot64 ⟨1, 1, 2, 9⟩ ⟨0, 0, 1, 0⟩ = .finite 2 ∧ VectorDot64 ⟨1, 1, 2, 9⟩ ⟨0, 0, 0, 1⟩ = .finite 9
      ∧ ChannelSet.values ⟨channel 0 1, channel 0 1, channel 0 2, channel 0 9⟩ = ⟨1, 1, 2, 9⟩
      ∧ add64 (add64 (round64 1) (round64 1)) (round64 2) = .finite 4 ∧ div64 (round64 1) (.finite 4) = .finite (1 / 4)
      ∧ div64 (round64 2) (.finite 4) = .finite (1 / 2)
      ∧ linearState.params.chromaConforms (rawToXYZExact linearState.params.mCal ⟨1, 1, 2, 9⟩).chroma
          ⟨1 / 4, 1 / 4, 1 / 2⟩ = true)
    ∧ (VectorDot64 ⟨0, 0, 0, 0⟩ ⟨1, 0, 0, 0⟩ = .finite 0 ∧ add64 (add64 (round64 0) (round64 0)) (round64 0) = .finite 0) := by
  refine ⟨⟨rfl, ?_, ?_, ?_, ?_, ?_, ?_, ?_, ?_, ?_⟩, ?_, ?_⟩ <;> decide +kernel

/-- Numbers within the tolerance that binary64 holds, a temperature that is delivered, and a chromaticity of binary64
numbers that conforms. -/
theorem witness_BinaryOperationsDeliverWhatTheyCompute_held :
    (∃ b : Rat, IsBinary64 b ∧ WithinE2E b (srgb (25 / 8192)))
      ∧ exec (.xyzToCCT 0 (.lit ⟨0, 0, 0, 0, some ⟨0.3320, 0.25, 0⟩⟩)) linearState
        = .next (linearState.deliver [(0, .num 5517)] .ok)
      ∧ (∃ b : Rat, IsBinary64 b ∧ WithinE2E b (CCTNumber ⟨0.3320, 0.25, 0⟩))
      ∧ (∃ b : Rat, IsBinary64 b ∧ WithinE2E b (rawToXYZExact linearState.params.mCal ⟨1, 1, 2, 9⟩).X)
      ∧ (linearState.params.rawToXYZ ⟨channel 0 1, channel 0 1, channel 0 2, channel 0 9⟩).chroma
        = some ⟨1 / 4, 1 / 4, 1 / 2⟩
      ∧ ∃ b, ChromaIsBinary64 b
        ∧ linearState.params.chromaConforms (rawToXYZExact linearState.params.mCal ⟨1, 1, 2, 9⟩).chroma b = true := by
  have near : ∀ e q : Rat, nearE2E e q = true → WithinE2E q e := fun e q h => by
    have := (nearE2E_iff e q).1 h
    unfold WithinE2E
    exact_mod_cast this
  refine ⟨⟨323 / 8192, ⟨323, -13, by norm_num, by norm_num, by norm_num, by norm_num⟩, within_of_srgbNear (by decide +kernel)⟩,
    ?_, ⟨5517, ⟨5517, 0, by norm_num, by norm_num, by norm_num, by norm_num⟩, near _ _ (by decide +kernel)⟩,
    ⟨1, ⟨1, 0, by norm_num, by norm_num, by norm_num, by norm_num⟩, near _ _ (by decide +kernel)⟩, by decide +kernel,
    ⟨1 / 4, 1 / 4, 1 / 2⟩, ⟨⟨1, -2, by norm_num, by norm_num, by norm_num, by norm_num⟩,
      ⟨1, -2, by norm_num, by norm_num, by norm_num, by norm_num⟩,
      ⟨1, -1, by norm_num, by norm_num, by norm_num, by norm_num⟩⟩, by decide +kernel⟩
  have h : linearState.params.xyzToCCT ⟨0.3320, 0.25, 0⟩ = some 5517 := by decide +kernel
  show (match linearState.params.xyzToCCT ⟨0.3320, 0.25, 0⟩ with
    | none => Host.Outcome.next (linearState.deliver [] .undefinedCCT)
    | some t => .next (linearState.deliver [(0, .num t)] .ok)) = _
  rw [h]

theorem witness_ColourOperationsCompleteInEveryDomain :
    evalOperand State.reset Value.asChannel (.lit (channel 0 1)) = .ok (channel 0 1)
      ∧ evalSet State.reset (setOf (channel 0 1) (channel 0 0) (channel 0 0) (channel 0 0))
        = .ok ⟨channel 0 1, channel 0 0, channel 0 0, channel 0 0⟩
      ∧ evalOperand State.reset Value.asXYZ (.lit vrgb1) = .ok vrgb1 ∧ vrgb1.chroma.isSome = true
      ∧ evalOperand State.reset Value.asNum (.lit (1 : Rat)) = .ok 1 := ⟨rfl, rfl, rfl, rfl, rfl⟩

theorem witness_NotReadyOperationsAreTurnedAway :
    (fresh.session ≠ .ready ∧ evalOperand fresh Value.asField (.lit 3) = .ok 3
        ∧ (ConfigField.range, Instr.setRange) ∈ setters)
      ∧ ready.session = .ready ∧ { fresh with initFailed := true }.initFailed = true := by
  refine ⟨⟨by decide, rfl, ?_⟩, rfl, rfl⟩
  simp [setters]

def initScript : List Answer :=
  [.data [0x08, 0x21], .data [0x72, 0x08], .data [0xFF, 0x93], .echo, .data [], .data [0x32, 0x38], .data [0x80, 0x11]]

/-- The hypotheses of `InitBringsTheSessionUp` on a state and the bytes of its five reads. -/
def InitAnswered (s : State) (i0 i1 h0 h1 l0 l1 h2 h3 l2 l3 : Byte) : Prop :=
  ∃ (s1 s2 s3 s4 s5 s6 : State) (c : DeviceConfiguration) (w : Word) (dev : List Host.Cell),
    s.session = .uninitialized ∧ s.initFailed = false ∧ s.hang = false
      ∧ s1 = s.oneAnswerUsed ∧ s2 = s1.oneAnswerUsed ∧ s3 = s2.oneAnswerUsed ∧ s4 = s3.oneAnswerUsed
      ∧ dev = Memory.writeHalf (Memory.writeHalf s.device 0x0A#8 (hi16 w)) 0x0B#8 (lo16 w)
      ∧ s5 = { s4.oneAnswerUsed with device := dev } ∧ s6 = s5.oneAnswerUsed
      ∧ c = { unpackWord s.params.layout (be32 h0 h1 l0 l1) with operatingMode := s.params.enumMap.continuous }
      ∧ w = packWord s.params.layout c
      ∧ s.readAnswer 0x11#8 2 = some [i0, i1] ∧ s1.readAnswer 0x0A#8 2 = some [h0, h1]
      ∧ s2.readAnswer 0x0B#8 2 = some [l0, l1] ∧ s3.writeAnswer = true ∧ s4.writeAnswer = true
      ∧ s5.readAnswer 0x0A#8 2 = some [h2, h3] ∧ s6.readAnswer 0x0B#8 2 = some [l2, l3]
      ∧ be16 i0 i1 = s.params.deviceId

/-- V-DS-1, answered by the device's registers; and a script that answers every access. -/
theorem witness_InitBringsTheSessionUp :
    InitAnswered fresh 0x08 0x21 0x32 0x08 0x80 0x11 0x32 0x38 0x80 0x11
      ∧ InitAnswered { fresh with script := initScript } 0x08 0x21 0x72 0x08 0xFF 0x93 0x32 0x38 0x80 0x11 := by
  constructor
  · refine ⟨_, _, _, _, _, _, _, _, _, rfl, rfl, rfl, rfl, rfl, rfl, rfl, rfl, rfl, rfl, rfl, rfl, ?_⟩
    decide +kernel
  · refine ⟨_, _, _, _, _, _, _, _, _, rfl, rfl, rfl, rfl, rfl, rfl, rfl, rfl, rfl, rfl, rfl, rfl, ?_⟩
    decide +kernel

theorem witness_IdentityMismatchEndsInit :
    fresh.session = .uninitialized ∧ fresh.initFailed = false ∧ fresh.hang = false
      ∧ { fresh with script := [.data [0x08, 0x20]] }.readAnswer 0x11#8 2 = some [0x08, 0x20]
      ∧ be16 0x08 0x20 ≠ fresh.params.deviceId := by decide +kernel

/-- The hypotheses, and an `init` of which the last access fails: it has read a configuration and written it. -/
theorem witness_InitEndsReadyOrUnusable :
    fresh.session = .uninitialized ∧ fresh.initFailed = false ∧ fresh.hang = false
      ∧ (ConfigField.range, Instr.setRange) ∈ setters ∧ evalOperand fresh Value.asField (.lit 3) = .ok 3
      ∧ (after (exec (.init 9) { fresh with script := initScript.dropLast ++ [.fail] }) fun t => (t.statuses, t.traffic))
        = some ([.transportFailure 0x0B .read], [.read 0x11 2 (some [0x08, 0x21]), .read 0x0A 2 (some [0x72, 0x08]),
            .read 0x0B 2 (some [0xFF, 0x93]), .write 0x0A [0x32, 0x38] true, .write 0x0B [0x80, 0x11] true,
            .read 0x0A 2 (some [0x32, 0x38]), .read 0x0B 2 none]) :=
  ⟨rfl, rfl, rfl, by simp [setters], rfl, by decide +kernel⟩

theorem witness_ReadDeliversChannelsAndFlags :
    (scripted [.data readBytes]).session = .ready ∧ (scripted [.data readBytes]).hang = false
      ∧ (scripted [.data readBytes]).readAnswer 0x00#8 16 = some [0x12, 0x34, 0x56, 0x78, 0x00, 0x00, 0x01, 0x00, 0xFF, 0xFF,
          0xFF, 0xFF, 0x80, 0x00, 0x01, 0x00] := by decide +kernel

/-- A failure and a short read. -/
theorem witness_FailedReadDeliversNoChannels :
    ready.session = .ready ∧ ready.hang = false ∧ (scripted [.fail]).readAnswer 0x00#8 16 = none
      ∧ (scripted [.data [0x12, 0x34]]).readAnswer 0x00#8 16 = none := by decide +kernel

theorem witness_TransportAnswers :
    (scripted [.fail]).script = .fail :: [] ∧ (scripted [.data [1, 2], .fail]).script = .data [1, 2] :: [.fail]
      ∧ [(1 : Byte), 2].length = 2 ∧ [(1 : Byte), 2].length ≠ 16 ∧ ready.script = [] ∧ ready.mode = .echo := by
  decide +kernel

theorem witness_ReadConfigReplacesTheCache :
    ready.session = .ready ∧ ready.hang = false
      ∧ (scripted [.data [0x72, 0x08], .data [0xFF, 0x93]]).readAnswer 0x0A#8 2 = some [0x72, 0x08]
      ∧ (scripted [.data [0x72, 0x08], .data [0xFF, 0x93]]).oneAnswerUsed.readAnswer 0x0B#8 2 = some [0xFF, 0x93]
      ∧ vpk3 = unpackWord .B (be32 0x72 0x08 0xFF 0x93) := by decide +kernel

theorem witness_FailedReadConfigKeepsTheCache :
    ready.session = .ready ∧ ready.hang = false ∧ (scripted [.fail]).readAnswer 0x0A#8 2 = none
      ∧ (scripted [.data [0x12, 0x34], .fail]).readAnswer 0x0A#8 2 = some [0x12, 0x34]
      ∧ (scripted [.data [0x12, 0x34], .fail]).oneAnswerUsed.readAnswer 0x0B#8 2 = none := by decide +kernel

theorem witness_WriteConfigWritesBothHalves :
    ready.session = .ready ∧ ready.cfgCache = some vpk3 ∧ ready.hang = false ∧ ready.writeAnswer = true
      ∧ ready.oneAnswerUsed.writeAnswer = true ∧ 0x32088011 = packWord ready.params.layout vpk3 := by decide +kernel

/-- Each setter at the largest value of its field. -/
theorem witness_SetterChangesOneFieldAndWritesBack :
    (∀ e ∈ setters, evalOperand ready Value.asField (.lit (2 ^ e.1.width - 1)) = .ok (2 ^ e.1.width - 1)
        ∧ 2 ^ e.1.width - 1 < 2 ^ e.1.width)
      ∧ ready.session = .ready ∧ ready.cfgCache = some vpk3 ∧ ready.hang = false ∧ ready.writeAnswer = true
      ∧ ready.oneAnswerUsed.writeAnswer = true := by
  refine ⟨fun e _ => ⟨rfl, Nat.sub_lt (Nat.two_pow_pos _) Nat.one_pos⟩, ?_⟩
  decide +kernel

theorem witness_FailedSetterRestoresTheCache :
    (ConfigField.latch, Instr.setLatch) ∈ setters ∧ evalOperand ready Value.asField (.lit 0) = .ok 0
      ∧ 0 < 2 ^ ConfigField.latch.width
      ∧ (ready.session = .ready ∧ ready.cfgCache = some vpk3 ∧ ready.hang = false
        ∧ Memory.wf ready.device = true ∧ (scripted [.fail]).writeAnswer = false
        ∧ (scripted [.echo, .fail]).writeAnswer = true ∧ (scripted [.echo, .fail]).oneAnswerUsed.writeAnswer = false) := by
  refine ⟨by simp [setters], rfl, by decide, ?_⟩
  decide +kernel

/-- Each setter at the smallest value that does not fit. -/
theorem witness_SetterRefusesAValueTooWide :
    ready.session = .ready ∧ ready.cfgCache.isSome = true
      ∧ ∀ e ∈ setters, evalOperand ready Value.asField (.lit (2 ^ e.1.width)) = .ok (2 ^ e.1.width)
          ∧ 2 ^ e.1.width ≤ 2 ^ e.1.width := ⟨rfl, rfl, fun _ _ => ⟨rfl, le_refl _⟩⟩

theorem witness_EchoWriteBack :
    (ConfigField.range, Instr.setRange) ∈ setters ∧ ready.session = .ready ∧ ready.cfgCache = some vpk3
      ∧ ready.hang = false ∧ ready.mode = .echo ∧ ready.script = []
      ∧ evalOperand ready Value.asField (.lit 15) = .ok 15 ∧ 15 < 2 ^ ConfigField.range.width ∧ (0 : Name) ≠ 1 :=
  ⟨by simp [setters], rfl, rfl, rfl, rfl, rfl, rfl, by decide, by decide⟩

/-- A device that holds every reserved bit and not the fixed one. -/
theorem witness_SetterClearsReservedDeviceBits :
    ∃ t u, (ConfigField.range, Instr.setRange) ∈ setters ∧ ready.session = .ready ∧ ready.hang = false
      ∧ ready.mode = .echo ∧ ready.script = [] ∧ ready.params.layout = .B
      ∧ exec (.readConfig 0 1) { ready with device := [(20, 0x72), (21, 0x08), (22, 0x7F), (23, 0x93)] } = .next t
      ∧ evalOperand t Value.asField (.lit 15) = .ok 15 ∧ 15 < 2 ^ ConfigField.range.width
      ∧ exec (.setRange 2 (.lit 15)) t = .next u :=
  ⟨_, _, by simp [setters], rfl, rfl, rfl, rfl, rfl, rfl, rfl, by decide, rfl⟩

theorem witness_OneHalfFieldLeavesTheOtherHalf :
    ConfigField.faultCount ∈ highFields ∧ ConfigField.i2cBurst ∈ lowFields := by decide

theorem witness_HungTransportHasNoStep :
    { fresh with hang := true }.hang = true ∧ fresh.session = .uninitialized ∧ fresh.initFailed = false
      ∧ ready.session = .ready ∧ ready.cfgCache.isSome = true ∧ (ConfigField.latch, Instr.setLatch) ∈ setters
      ∧ evalOperand ready Value.asField (.lit 1) = .ok 1 ∧ 1 < 2 ^ ConfigField.latch.width :=
  ⟨rfl, rfl, rfl, rfl, rfl, by simp [setters], rfl, by decide⟩

/-- A ready session that meets the invariant, and a step of it. -/
theorem witness_StepKeepsTheInvariant :
    { ready with program := [[0x14, 9, 0, 5]] }.Inv ∧ ∃ t, step { ready with program := [[0x14, 9, 0, 5]] } = .next t := by
  refine ⟨⟨by decide +kernel, by decide +kernel, fun _ => ⟨rfl, rfl⟩, fun h => absurd h (by decide), by decide +kernel⟩, ?_⟩
  exact next_of_runs (by decide +kernel)

theorem witness_StepNeverWritesTheParameters : ∃ t, step (line0 [0x02, 2, 0, 0x12, 0x34, 0x56, 0x78]) = .next t :=
  next_of_runs (by decide +kernel)

/-- A step on a ready session, and the `init` that leads from one state to the other. -/
theorem witness_ReadyOnlyThroughInit :
    (ready.session = .ready ∧ ∃ t, step { ready with program := [[0x14, 9, 0, 5]] } = .next t)
    ∧ (fresh.session = .uninitialized
      ∧ ∃ t, step { fresh with program := [[0x10, 9]] } = .next t ∧ t.session = .ready) := by
  refine ⟨⟨rfl, next_of_runs (by decide +kernel)⟩, rfl, ?_⟩
  have h : (after (step { fresh with program := [[0x10, 9]] }) (·.session)) = some .ready := by decide +kernel
  obtain ⟨t, ht⟩ := next_of_runs (o := step { fresh with program := [[0x10, 9]] }) (by decide +kernel)
  rw [ht] at h
  injection h with h
  exact ⟨t, ht, h⟩

theorem witness_CacheWrittenOnlyByItsOperations :
    ∃ t, exec (.setRange 9 (.lit 5)) ready = .next t ∧ t.cfgCache ≠ ready.cfgCache := by
  have h : (after (exec (.setRange 9 (.lit 5)) ready) fun t => decide (t.cfgCache ≠ ready.cfgCache)) = some true := by
    decide +kernel
  obtain ⟨t, ht⟩ := next_of_runs (o := exec (.setRange 9 (.lit 5)) ready) (by decide +kernel)
  rw [ht] at h
  injection h with h
  exact ⟨t, ht, of_decide_eq_true h⟩

/-- A block operation and a name it does not assign; one that ends with a failure; a session operation. -/
theorem witness_OperationsLeaveAllElse :
    (isMacro (.unpackChannel 0 (.lit 0x12345678)) = false
      ∧ ∃ t, exec (.unpackChannel 0 (.lit 0x12345678)) ready = .next t)
    ∧ (1 : Name) ∉ destinations (.unpackChannel 0 (.lit 0x12345678))
    ∧ (isMacro (.xyzToRGB 0 (.lit ⟨0, 0, 0, 9, none⟩)) = false
      ∧ exec (.xyzToRGB 0 (.lit ⟨0, 0, 0, 9, none⟩)) ready = .next (ready.deliver [] .undefinedChromaticity))
    ∧ ((1 : Name) ∉ destinations (.setRange 9 (.lit 5)) ∧ ∃ t, exec (.setRange 9 (.lit 5)) ready = .next t) :=
  ⟨⟨rfl, _, rfl⟩, by decide, ⟨rfl, rfl⟩, by decide, next_of_runs (by decide +kernel)⟩

/-- Two states that differ in session, cache, transport and device, and in a parameter the operation does not read. -/
theorem witness_BlockOperationsDependOnOperandsOnly :
    (isMacro (.unpackChannel 0 (.lit 0x12345678)) = false ∧ isColour (.unpackChannel 0 (.lit 0x12345678)) = false
      ∧ ready.params.layout = State.reset.params.layout ∧ ready.params.crcFn = State.reset.params.crcFn
      ∧ ready.env = State.reset.env ∧ ready.session ≠ State.reset.session)
    ∧ (isColour (.linearToSRGB 0 (.lit 1)) = true ∧ readyA.params.toColourParams = State.reset.params.toColourParams
      ∧ readyA.params.layout ≠ State.reset.params.layout) :=
  ⟨⟨rfl, rfl, rfl, rfl, rfl, by decide⟩, rfl, rfl, by decide⟩

theorem witness_OnlyConfigurationRegistersAreWritten :
    ∃ t, exec (.setRange 9 (.lit 5)) ready = .next t := next_of_runs (by decide +kernel)

theorem witness_AccessesAreOfTheList : ∃ t, exec (.init 9) fresh = .next t := next_of_runs (by decide +kernel)

theorem witness_StatusesFollowTheMatrix : ∃ t, exec (.init 9) fresh = .next t := next_of_runs (by decide +kernel)

/-- An `OK`, a failure with each policy. -/
theorem witness_ListAdvancesOnOKAndStopsOtherwise :
    (∃ t, step (line0 [0x02, 2, 0, 0x12, 0x34, 0x56, 0x78]) = .next t)
    ∧ (∃ t, step (line0 [0x09]) = .next t) ∧ (line0 [0x09]).policy = .stop
    ∧ (∃ t, step { line0 [0x09] with policy := .goOn } = .next t) :=
  ⟨next_of_runs (by decide +kernel), next_of_runs (by decide +kernel), rfl, next_of_runs (by decide +kernel)⟩

theorem witness_UnassignedNameIsAFault : lookup State.reset.env 5 = none ∧ (ConfigField.range, Instr.setRange) ∈ setters
    ∧ (evalOperand State.reset Value.asChannel (.lit (channel 0 1))).isOk = true :=
  ⟨rfl, by simp [setters], rfl⟩

end Sys2Proof.Tests
end

section
/-! PROOFS. The statements of 00_scope.md: a step is `exec` of the decoded line (R5), and what an operation that ends has
done to the transport and to the run's record of statuses (R9, R32, R93, R159). -/

namespace Sys2Proof.Machine

/-! ### One step -/

/-- R5, R11: in a list that has not stopped, the line at the index is what the step decodes and runs. -/
theorem step_of_decode {s : State} {line : List Byte} {i : Instr} (hs : s.stopped = false)
    (hl : s.program[s.index]? = some line) (hd : decode line = .ok i) : step s = exec i s := by
  simp [step, hs, hl, hd]

/-- Settles O4: the branch of `step` for a line that decodes. -/
theorem stepRunsTheDecodedLine : Obligations.StepRunsTheDecodedLine :=
  fun _ _ _ hs hl hd => step_of_decode hs hl hd

/-! ### What an operation that ends has done -/

/-- R159: no block operation ends with `TransportFailure`. -/
theorem code_ne_two_of_block {i : Instr} (hi : isMacro i = false) {r : Status} (h : statusAllowed i r = true) :
    r.code ≠ 2 := by
  intro hr
  cases i <;> simp [isMacro, statusAllowed, hr] at hi h

/-- R9, R152, R159: an operation that ends has made at most seven accesses, ended by the first that failed, and then
delivers one status, which the matrix allows it. -/
theorem exec_delivers {i : Instr} {s t : State} (h : exec i s = .next t) :
    ∃ u as r l, t = u.deliver as r ∧ statusAllowed i r = true ∧ Moved s u ∧ u.traffic = s.traffic ++ l
      ∧ l.length ≤ 7 ∧ EndsAtFirstFailure l r := by
  cases hi : isMacro i with
  | true =>
    obtain ⟨u, as, r, hm, ht, -, hr, ⟨l, hl, hlen, hend⟩, -⟩ := exec_effect i hi s t h
    exact ⟨u, as, r, l, ht, hr, hm, hl, hlen, hend⟩
  | false =>
    obtain ⟨as, r, he, hr, -⟩ | ⟨f, he⟩ := exec_block hi s
    · cases he.symm.trans h
      exact ⟨s, as, r, [], rfl, hr, Moved.refl s, (List.append_nil _).symm, Nat.zero_le _, code_ne_two_of_block hi hr⟩
    · cases he.symm.trans h

/-- R32 to R34: whatever a sequence of accesses added to the record is of the list, counted and truthfully answered, and
leaves the transport as it is found afterwards. -/
theorem Moved.record {s t : State} (h : Moved s t) {l : List Access} (ht : t.traffic = s.traffic ++ l) :
    l.all Access.allowed = true ∧ t.draws = s.draws + l.length ∧ Answered s l
      ∧ (l.foldl State.afterAccess s).sameTransport t := by
  obtain ⟨k, hallowed, hanswered, hsame⟩ := h.accesses
  have ⟨_, _, hdraws, _, htraffic⟩ := hsame
  obtain ⟨ek, edraws⟩ := foldl_afterAccess_traffic k s
  obtain rfl : l = k := List.append_cancel_left (ht.symm.trans (htraffic.trans ek))
  exact ⟨hallowed, hdraws.trans edraws, hanswered, hsame⟩

/-- Settles O56: what the operation's delivery (`exec_delivers`) and its accesses (`Moved.record`) say together. -/
theorem accessesAreOfTheList : Obligations.AccessesAreOfTheList := by
  intro i s t h
  obtain ⟨u, as, r, l, rfl, -, hm, htraffic, hlen, hend⟩ := exec_delivers h
  obtain ⟨hallowed, hdraws, hanswered, hsame⟩ := hm.record htraffic
  exact ⟨l, r, htraffic, hallowed, hlen, hdraws, hanswered, hsame, by rw [deliver_statuses, hm.statuses], hend⟩

/-- Settles O57: an operation ends by one delivery, and its accesses add no status. -/
theorem statusesFollowTheMatrix : Obligations.StatusesFollowTheMatrix := by
  intro i s t h
  obtain ⟨u, as, r, l, rfl, hr, hm, -⟩ := exec_delivers h
  exact ⟨r, by rw [deliver_statuses, hm.statuses], hr⟩

/-! ### Which words `init` writes (R96, R100) -/

/-- R100: what the actions from `s` to `t` have written, or tried to write, are halves of the configuration word `w`. -/
def WritesOnly (w : Word) (s t : State) : Prop :=
  ∃ l, t.traffic = s.traffic ++ l ∧ ∀ addr p ok, .write addr p ok ∈ l → .write addr p true ∈ configWrites w

theorem WritesOnly.refl (w : Word) (s : State) : WritesOnly w s s := ⟨[], (List.append_nil _).symm, by simp⟩

theorem WritesOnly.trans {w : Word} {s t u : State} (h : WritesOnly w s t) (g : WritesOnly w t u) :
    WritesOnly w s u := by
  obtain ⟨l, hl, hw⟩ := h
  obtain ⟨k, hk, gw⟩ := g
  refine ⟨l ++ k, by rw [hk, hl, List.append_assoc], fun addr p ok hmem => ?_⟩
  exact (List.mem_append.1 hmem).elim (hw addr p ok) (gw addr p ok)

/-- An action writes to no register that its list of accesses does not write to. -/
theorem Trace.write_mem {α : Type} {ts : List (RegAddr × Direction)} {m : Act α} (h : Trace ts m) (s : State) :
    ∃ l, (m s).2.traffic = s.traffic ++ l ∧ ∀ addr p ok, .write addr p ok ∈ l → (addr, Direction.write) ∈ ts := by
  obtain ⟨l, hl, hr⟩ := h s
  have hpre : l.map Access.target <+: ts := by
    cases e : (m s).1 with
    | ok a => rw [e] at hr; rw [hr.2]
    | error e' => rw [e] at hr; exact hr.2
  exact ⟨l, hl, fun addr p ok hmem => hpre.subset (List.mem_map_of_mem (f := Access.target) hmem)⟩

/-- R99: `readConfig` writes nothing. -/
theorem doReadConfig_noWrite (s : State) :
    ∃ l, (doReadConfig s).2.traffic = s.traffic ++ l ∧ ∀ addr p ok, .write addr p ok ∉ l := by
  obtain ⟨l, hl, hw⟩ := doReadConfig_trace.write_mem s
  exact ⟨l, hl, fun addr p ok hmem => by simpa using hw addr p ok hmem⟩

theorem doReadConfig_writesOnly (w : Word) (s : State) : WritesOnly w s (doReadConfig s).2 := by
  obtain ⟨l, hl, hw⟩ := doReadConfig_noWrite s
  exact ⟨l, hl, fun addr p ok hmem => absurd hmem (hw addr p ok)⟩

/-- R34, R38: a write of one half of the word. -/
theorem memWrite_writesOnly {w : Word} {addr : RegAddr} {v : Half}
    (h : .write addr (payload16 v) true ∈ configWrites w) (s : State) : WritesOnly w s (memWrite addr v s).2 := by
  obtain ⟨-, e⟩ | ⟨-, e⟩ := memWrite_eq addr v s <;> rw [e] <;> exact ⟨[_], rfl, by simpa using h⟩

theorem writeWord_writesOnly (w : Word) (s : State) : WritesOnly w s (writeWord w s).2 := by
  have hhi := memWrite_writesOnly (w := w) (addr := addrConfigHi) (v := hi16 w)
    (by simp [configWrites, payload16_hi16, addrConfigHi]) s
  unfold writeWord Act.andThen
  split
  · next a t e =>
    rw [e] at hhi
    exact hhi.trans (memWrite_writesOnly (by simp [configWrites, payload16_lo16, addrConfigLo]) t)
  · next e' t e => rwa [e] at hhi

/-- R101: a setter writes the cached configuration with its one field changed. -/
theorem doSet_writesOnly (f : ConfigField) (v : Nat) {s : State} {old : DeviceConfiguration}
    (hc : s.cfgCache = some old) : WritesOnly (packWord s.params.layout (old.set f v)) s (doSet f v s).2 := by
  have h := writeWord_writesOnly (packWord s.params.layout (old.set f v)) { s with cfgCache := some (old.set f v) }
  simp only [doSet, hc, doWriteConfig]
  split <;> next e => rw [e] at h; exact h

/-- R99: a `readConfig` that ends well has read the two registers whose bytes its configuration is made of. -/
theorem doReadConfig_reads {s t : State} {c : DeviceConfiguration} (h : doReadConfig s = (.ok c, t)) :
    ∃ bh bl, c = unpackWord s.params.layout (join32 (halfOf bh) (halfOf bl))
      ∧ t.traffic = s.traffic ++ [.read addrConfigHi 2 (some bh), .read addrConfigLo 2 (some bl)] := by
  unfold doReadConfig Act.andThen at h
  obtain ⟨bh, -, hh⟩ | ⟨-, hh⟩ := memRead_eq addrConfigHi 2 s <;> rw [hh] at h
  · obtain ⟨bl, -, hl⟩ | ⟨-, hl⟩ := memRead_eq addrConfigLo 2 (s.accessed (.read addrConfigHi 2 (some bh))) <;>
      simp only [hl] at h
    · cases h; exact ⟨bh, bl, rfl, by simp⟩
    · cases h
  · cases h

/-- R96, R97: the last two parts of `init`: the mode `m` is written back and the configuration read again. -/
def writeModeBack (m : Nat) : Act Unit :=
  (doSet .operatingMode m).andThen fun _ => doReadConfig.andThen fun _ => Act.done ()

/-- R93: the parts of `init` behind its identity check. -/
def initConfig (m : Nat) : Act Unit := doReadConfig.andThen fun _ => writeModeBack m

theorem initSteps_eq : initSteps = (memRead addrDeviceId 2).andThen fun b s =>
    if halfOf b = s.params.deviceId then initConfig s.params.enumMap.continuous.toNat s
    else Act.fail (.identityMismatch (halfOf b)) s := rfl

/-- R96, R152: on a session with a cached configuration, the write-back fails with `TransportFailure` only, and writes the
cached configuration with the mode `m`. -/
theorem writeModeBack_outcome (m : Nat) {s : State} {c : DeviceConfiguration} (hc : s.cfgCache = some c) :
    WritesOnly (packWord s.params.layout (c.set .operatingMode m)) s (writeModeBack m s).2
      ∧ ∀ e, (writeModeBack m s).1 = .error e → e.code = 2 := by
  have hset := doSet_writesOnly .operatingMode m hc
  unfold writeModeBack Act.andThen
  obtain ⟨t, e, -⟩ | ⟨addr, t, e, -⟩ := doSet_cache .operatingMode m hc <;> rw [e] at hset ⊢
  · have hread := hset.trans (doReadConfig_writesOnly _ t)
    obtain ⟨c', u, e', -⟩ | ⟨addr, u, e', -⟩ := doReadConfig_cache t <;> simp only [e'] at hread ⊢
    · exact ⟨hread, nofun⟩
    · exact ⟨hread, by rintro _ ⟨⟩; rfl⟩
  · exact ⟨hset, by rintro _ ⟨⟩; rfl⟩

/-- R96: when the record `l` has the two reads of the configuration at `k` and after, the words written are those of the
configuration read, with the mode `m`. -/
def ModeWrittenBack (L : CfgHiLayout) (m : Nat) (k : Nat) (l : List Access) : Prop :=
  ∀ h0 h1 l0 l1, l[k]? = some (.read addrConfigHi 2 (some [h0, h1])) →
    l[k + 1]? = some (.read addrConfigLo 2 (some [l0, l1])) →
    ∀ addr p ok, .write addr p ok ∈ l → .write addr p true ∈ configWrites
      (packWord L ((unpackWord L (be32 h0 h1 l0 l1)).set .operatingMode m))

/-- A read in front of a record. -/
theorem ModeWrittenBack.cons_read {L : CfgHiLayout} {m k : Nat} {l : List Access} (h : ModeWrittenBack L m k l)
    (a : RegAddr) (n : Nat) (r : Option (List Byte)) : ModeWrittenBack L m (k + 1) (.read a n r :: l) :=
  fun h0 h1 l0 l1 hh hl addr p ok hmem => h h0 h1 l0 l1 hh hl addr p ok (by simpa using hmem)

/-- R96, R99, R152: behind the identity check `init` fails with `TransportFailure` only, and what it writes is what it read
with the mode changed. -/
theorem initConfig_outcome (m : Nat) (s : State) :
    (∃ l, (initConfig m s).2.traffic = s.traffic ++ l ∧ ModeWrittenBack s.params.layout m 0 l)
      ∧ ∀ e, (initConfig m s).1 = .error e → e.code = 2 := by
  have hparams := (doReadConfig_sound s).1.params
  obtain ⟨k, hk, hnoWrite⟩ := doReadConfig_noWrite s
  unfold initConfig Act.andThen
  obtain ⟨c, t, e, hc⟩ | ⟨addr, t, e, -⟩ := doReadConfig_cache s
  · obtain ⟨bh, bl, rfl, hreads⟩ := doReadConfig_reads e
    obtain ⟨⟨l, hl, hwrites⟩, hcode⟩ := writeModeBack_outcome m hc
    simp only [e] at hparams ⊢
    refine ⟨⟨_, by rw [hl, hreads, List.append_assoc], fun h0 h1 l0 l1 hhi hlo addr p ok hmem => ?_⟩, hcode⟩
    simp only [List.cons_append, List.getElem?_cons_zero, List.getElem?_cons_succ, Option.some.injEq,
      Access.read.injEq, true_and] at hhi hlo
    subst hhi hlo
    have := hwrites addr p ok (by simpa using hmem)
    rwa [hparams, show halfOf [h0, h1] = be16 h0 h1 from rfl, show halfOf [l0, l1] = be16 l0 l1 from rfl,
      join32_be16] at this
  · simp only [e] at hk ⊢
    exact ⟨⟨k, hk, fun _ _ _ _ _ _ addr p ok hmem => absurd hmem (hnoWrite addr p ok)⟩, by rintro _ ⟨⟩; rfl⟩

/-- R93 to R96: an `init` that ends with `IdentityMismatch` made one access, and one that writes writes back what it read
with the mode `continuous`. -/
theorem initSteps_outcome (s : State) :
    ∃ l, (initSteps s).2.traffic = s.traffic ++ l
      ∧ ModeWrittenBack s.params.layout s.params.enumMap.continuous.toNat 1 l
      ∧ ∀ e, (initSteps s).1 = .error e → e.code = 1 → l.length = 1 := by
  have honlyRead : ∀ r, ModeWrittenBack s.params.layout s.params.enumMap.continuous.toNat 1 [.read addrDeviceId 2 r] :=
    fun r _ _ _ _ hh => by simp at hh
  rw [initSteps_eq]
  unfold Act.andThen
  obtain ⟨b, -, e⟩ | ⟨-, e⟩ := memRead_eq addrDeviceId 2 s <;> simp only [e]
  · split
    · obtain ⟨⟨l, hl, hmode⟩, hcode⟩ := initConfig_outcome s.params.enumMap.continuous.toNat
        (s.accessed (.read addrDeviceId 2 (some b)))
      refine ⟨.read addrDeviceId 2 (some b) :: l, ?_, hmode.cons_read _ _ _, fun e' he hone => ?_⟩
      · exact hl.trans (by simp)
      · have := hcode e' he; omega
    · exact ⟨_, rfl, honlyRead _, fun _ _ _ => rfl⟩
  · exact ⟨_, rfl, honlyRead _, fun _ _ _ => rfl⟩

/-- `init` makes the accesses of its steps and ends as they do; only the session's two flags are its own. -/
theorem doInit_initSteps (s : State) :
    (doInit s).1 = (initSteps s).1 ∧ (doInit s).2.traffic = (initSteps s).2.traffic := by
  unfold doInit
  split <;> next e => rw [e]; exact ⟨rfl, rfl⟩

/-! ### An operation that delivers its status only -/

/-- R150: the status with which an action ends. -/
def Act.status (m : Act Unit) (s : State) : Status :=
  match (m s).1 with
  | .ok _ => .ok
  | .error e => e

theorem Act.error_of_status_ne {m : Act Unit} {s : State} (h : m.status s ≠ .ok) : (m s).1 = .error (m.status s) := by
  unfold Act.status at h ⊢
  cases e : (m s).1 with
  | ok a => rw [e] at h; exact absurd rfl h
  | error e' => rfl

/-- R162: such an operation delivers its status on the state its action left. -/
theorem finishCall_statusOnly (st : Name) (m : Act Unit) (s : State) :
    finishCall st (statusOnly m s) = (m s).2.deliver [(st, .status (m.status s))] (m.status s) := by
  unfold statusOnly Act.andThen Act.status
  rcases m s with ⟨_ | _, t⟩ <;> rfl

/-- `Trace`, read off the status. -/
theorem Trace.status {ts : List (RegAddr × Direction)} {m : Act Unit} (h : Trace ts m) (s : State) :
    ∃ l, (m s).2.traffic = s.traffic ++ l ∧ EndsAtFirstFailure l (m.status s) ∧ l.map Access.target <+: ts
      ∧ ((m s).1 = .ok () → l.length = ts.length) := by
  obtain ⟨l, hl, hr⟩ := h s
  unfold Act.status
  cases e : (m s).1 with
  | ok a =>
    rw [e] at hr
    exact ⟨l, hl, hr.1, ⟨[], by rw [List.append_nil, hr.2]⟩, fun _ => by rw [← hr.2, List.length_map]⟩
  | error e' => rw [e] at hr; exact ⟨l, hl, hr.1, hr.2, nofun⟩

/-! ### `init` as a whole -/

/-- R97: how `init` ends on a session it has not been called on. -/
theorem doInit_end {s : State} (hs : s.session = .uninitialized) (hf : s.initFailed = false) :
    (doInit.status s = .ok ∧ (doInit s).1 = .ok () ∧ (doInit s).2.session = .ready ∧ (doInit s).2.initFailed = false
      ∧ (doInit s).2.cfgCache.isSome = true) ∨
    ((doInit.status s).code = 1 ∨ (doInit.status s).code = 2) ∧ (doInit s).2.session = .uninitialized
      ∧ (doInit s).2.initFailed = true := by
  unfold Act.status
  obtain ⟨u, e, -, hready, hfailed, hcache⟩ | ⟨r, u, e, -, hsession, hfailed, hcode⟩ := doInit_cases s <;> rw [e]
  · exact .inl ⟨rfl, rfl, hready, hfailed.trans hf, hcache⟩
  · exact .inr ⟨hcode, hsession.trans hs, hfailed⟩

theorem doInit_moved (s : State) : Moved s (doInit s).2 := by
  obtain ⟨u, e, hm, -⟩ | ⟨r, u, e, hm, -⟩ := doInit_cases s <;> rw [e] <;> exact hm

/-- R9, R93, R96, R152: the accesses of an `init`. -/
theorem doInit_record (s : State) :
    ∃ l, (doInit s).2.traffic = s.traffic ++ l ∧ Answered s l ∧ EndsAtFirstFailure l (doInit.status s)
      ∧ l.map Access.target <+: [(addrDeviceId, .read), (addrConfigHi, .read), (addrConfigLo, .read),
          (addrConfigHi, .write), (addrConfigLo, .write), (addrConfigHi, .read), (addrConfigLo, .read)]
      ∧ ((doInit s).1 = .ok () → l.length = 7) ∧ ((doInit.status s).code = 1 → l.length = 1)
      ∧ ModeWrittenBack s.params.layout s.params.enumMap.continuous.toNat 1 l := by
  obtain ⟨hresult, htraffic⟩ := doInit_initSteps s
  obtain ⟨l, hl, hmode, hmismatch⟩ := initSteps_outcome s
  obtain ⟨k, hk, hend, hpre, hall⟩ := doInit_trace.status s
  obtain rfl : l = k := List.append_cancel_left (hl.symm.trans (htraffic.symm.trans hk))
  obtain ⟨-, -, hanswered, -⟩ := (doInit_moved s).record hk
  refine ⟨l, hk, hanswered, hend, hpre, hall, fun hone => hmismatch _ (hresult ▸ Act.error_of_status_ne ?_) hone, hmode⟩
  intro hok
  rw [hok] at hone
  cases hone

/-! ### A session that is not usable turns its caller away (R92, R158) -/

theorem turnsAway_of_not_ready {s : State} (h : s.session ≠ .ready) : s.turnsAway = some .notReady := by
  simp [State.turnsAway, State.usable, h]

theorem writeTurnsAway_of_not_ready {s : State} (h : s.session ≠ .ready) : s.writeTurnsAway = some .notReady := by
  simp [State.writeTurnsAway, State.usable, h]

theorem setterTurnsAway_of_not_ready {s : State} (h : s.session ≠ .ready) (f : ConfigField) (v : Nat) :
    s.setterTurnsAway f v = some .notReady := by
  simp [State.setterTurnsAway, writeTurnsAway_of_not_ready h]

theorem initTurnsAway_of_failed {s : State} (h : s.initFailed = true) : s.initTurnsAway = some .notReady := by
  simp [State.initTurnsAway, h]

theorem initTurnsAway_of_fresh {s : State} (h : s.session = .uninitialized) (hf : s.initFailed = false) :
    s.initTurnsAway = none := by
  simp [State.initTurnsAway, h, hf]

/-- R101, R158: a setter whose operand denotes a number. -/
theorem callSetter_not_ready {s : State} (h : s.session ≠ .ready) {f : ConfigField} {st : Name} {o : Operand Nat}
    {v : Nat} (hv : evalOperand s Value.asField o = .ok v) :
    callSetter f st o s = .next (s.deliver [(st, .status .notReady)] .notReady) := by
  rw [callSetter, hv, withOperand_ok, setterTurnsAway_of_not_ready h, callSession_turned]

/-- R93, R114: an `init` that is not turned away and does not hang runs to its end. -/
theorem exec_init_runs (st : Name) {s : State} (hs : s.session = .uninitialized) (hf : s.initFailed = false)
    (hh : s.hang = false) :
    exec (.init st) s = .next ((doInit s).2.deliver [(st, .status (doInit.status s))] (doInit.status s)) := by
  simp only [exec, execInit, initTurnsAway_of_fresh hs hf]
  rw [callSession_runs hh, finishCall_statusOnly]

/-- R97, R163, R177: after a failed `init` the session accepts nothing. -/
theorem failed_init_accepts_nothing {t : State} (hs : t.session = .uninitialized) (hf : t.initFailed = true)
    (a b n : Name) :
    exec (.init n) t = .next (t.deliver [(n, .status .notReady)] .notReady)
      ∧ exec (.read a b n) t = .next (t.deliver [(n, .status .notReady)] .notReady)
      ∧ exec (.readConfig a n) t = .next (t.deliver [(n, .status .notReady)] .notReady)
      ∧ exec (.writeConfig n) t = .next (t.deliver [(n, .status .notReady)] .notReady)
      ∧ ∀ e ∈ setters, ∀ o v, evalOperand t Value.asField o = .ok v →
        exec (e.2 n o) t = .next (t.deliver [(n, .status .notReady)] .notReady) := by
  have hn : t.session ≠ .ready := by simp [hs]
  refine ⟨?_, ?_, ?_, ?_, fun e he o v hv => ?_⟩
  · simp only [exec, execInit, initTurnsAway_of_failed hf, callSession_turned]
  · simp only [exec, execRead, turnsAway_of_not_ready hn, callSession_turned]
  · simp only [exec, execReadConfig, turnsAway_of_not_ready hn, callSession_turned]
  · simp only [exec, execWriteConfig, writeTurnsAway_of_not_ready hn, callSession_turned]
  · rw [exec_setter he, callSetter_not_ready hn hv]

/-- Settles O34: `init` runs to its end (`exec_init_runs`), which is one of two (`doInit_end`), with the accesses of
`doInit_record`. -/
theorem initEndsReadyOrUnusable : Obligations.InitEndsReadyOrUnusable := by
  intro s st hs hf hh
  obtain ⟨l, htraffic, hanswered, hend, hpre, hall, hone, hmode⟩ := doInit_record s
  have hcases := doInit_end hs hf
  refine ⟨_, doInit.status s, l, exec_init_runs st hs hf hh, ?_, ?_, htraffic, hanswered, hend, hpre, ?_, hone, ?_, ?_⟩
  · rw [deliver_statuses, (doInit_moved s).statuses]
  · simp [lookup_insertAt_same]
  · intro hok
    obtain ⟨-, hresult, -⟩ | ⟨hcode, -⟩ := hcases
    · exact hall hresult
    · simp [hok, Status.code] at hcode
  · rintro h0 h1 l0 l1 w hh hl rfl
    simpa [DeviceConfiguration.set] using hmode h0 h1 l0 l1 hh hl
  · obtain ⟨hok, -, hready, hfailed, hcache⟩ | ⟨hcode, hsession, hfailed⟩ := hcases
    · exact .inl ⟨hok, hready, hfailed, hcache⟩
    · exact .inr ⟨hcode, hsession, hfailed, failed_init_accepts_nothing hsession hfailed⟩

end Sys2Proof.Machine
end

section
/-! PROOFS. The statements of 10_state.md: what a step does to the run and to the parameters, that it keeps the invariant, and
what an operation leaves unchanged (R10, R20, R22, R23, R76, R139). -/

namespace Sys2Proof.Machine

/-! ### What a step has done -/

/-- R5, R11, R63: a step that ends ran the decoded line, or delivered the status of a reserved `OPSEL`. -/
theorem step_next {s t : State} (h : step s = .next t) :
    (∃ i, exec i s = .next t) ∨ ∃ k, t = s.deliver [] (.illegalOperation k) := by
  unfold step at h
  split at h
  · cases h
  · split at h
    · cases h
    · split at h
      · exact .inl ⟨_, h⟩
      · cases h; exact .inr ⟨_, rfl⟩
      · cases h

/-- R9, R11: a step that ends made accesses of R32's list, if any, and then one delivery. -/
theorem step_delivers {s t : State} (h : step s = .next t) : ∃ u as r, Moved s u ∧ t = u.deliver as r := by
  obtain ⟨i, hi⟩ | ⟨k, rfl⟩ := step_next h
  · obtain ⟨u, as, r, -, ht, -, hm, -⟩ := exec_delivers hi
    exact ⟨u, as, r, hm, ht⟩
  · exact ⟨s, [], _, Moved.refl s, rfl⟩

/-- R10, R64: a block operation that ends delivers on the state as it was, to its destinations at most. -/
theorem exec_block_next {i : Instr} {s t : State} (hi : isMacro i = false) (h : exec i s = .next t) :
    ∃ as r, t = s.deliver as r ∧ ∀ a ∈ as, a.1 ∈ destinations i := by
  obtain ⟨as, r, he, -, hdst⟩ | ⟨f, he⟩ := exec_block hi s <;> cases he.symm.trans h
  exact ⟨as, r, rfl, hdst⟩

/-! ### The invariant -/

/-- R23, R28: what the invariant says of the session and its cache. -/
def SessionInv (s : State) : Prop :=
  (s.session = .ready → s.cfgCache.isSome = true ∧ s.initFailed = false)
    ∧ (s.session = .uninitialized → s.initFailed = false → s.cfgCache = none)

theorem State.Inv.sessionInv {s : State} (h : s.Inv) : SessionInv s :=
  have ⟨_, _, hready, hfresh, _⟩ := h
  ⟨hready, hfresh⟩

/-- R32: accesses of the list keep all of the invariant but what it says of the session. -/
theorem State.Inv.moved {s u : State} (h : s.Inv) (hm : Moved s u) (hu : SessionInv u) : u.Inv := by
  obtain ⟨hdevice, hnames, -, -, htraffic⟩ := h
  obtain ⟨l, hl, hallowed, -⟩ := hm.traffic
  refine ⟨hm.wf hdevice, hm.env ▸ hnames, hu.1, hu.2, ?_⟩
  rw [hl, List.all_append, htraffic, hallowed, Bool.and_self]

/-- R9, R64: a delivery keeps the invariant. -/
theorem State.Inv.deliver {s : State} (h : s.Inv) (as : List (Name × Value)) (r : Status) : (s.deliver as r).Inv :=
  have ⟨hdevice, hnames, hready, hfresh, htraffic⟩ := h
  ⟨hdevice, deliver_rising as r hnames, hready, hfresh, htraffic⟩

/-- R91, R97: a session operation keeps what the invariant says of the session: `init` makes it `Ready` with a cached
configuration or unusable, and the others write the cache of a `Ready` session only. -/
theorem Effect.keeps_inv {i : Instr} {s t : State} (he : Effect i s t) (h : s.Inv) : t.Inv := by
  obtain ⟨u, as, r, hm, rfl, -, -, -, hsession⟩ := he
  refine (h.moved hm ?_).deliver as r
  obtain ⟨hready, hfresh⟩ := h.sessionInv
  obtain ⟨-, -, huninit, -, hinit⟩ | ⟨hsame, hfailed, hcache⟩ := hsession
  · obtain ⟨-, hr, hok, hsome⟩ | ⟨hsame, hfailed⟩ := hinit
    · exact ⟨fun _ => ⟨hsome, hok⟩, by simp [hr]⟩
    · exact ⟨by simp [hsame, huninit], by simp [hfailed]⟩
  · obtain hcache | ⟨hr, hsome, -⟩ := hcache
    · exact ⟨by rwa [hsame, hfailed, hcache], by rwa [hsame, hfailed, hcache]⟩
    · exact ⟨fun _ => ⟨hsome, hfailed.trans (hready hr).2⟩, by simp [hsame, hr]⟩

theorem exec_keeps_inv {i : Instr} {s t : State} (h : s.Inv) (ht : exec i s = .next t) : t.Inv := by
  cases hi : isMacro i with
  | true => exact (exec_effect i hi s t ht).keeps_inv h
  | false =>
    obtain ⟨as, r, rfl, -⟩ := exec_block_next hi ht
    exact h.deliver as r

/-- Settles O49: the decoded operation keeps the invariant (`exec_keeps_inv`), and so does the delivery of a reserved
`OPSEL`. -/
theorem stepKeepsTheInvariant : Obligations.StepKeepsTheInvariant := by
  intro s t h ht
  obtain ⟨i, hi⟩ | ⟨k, rfl⟩ := step_next ht
  · exact exec_keeps_inv h hi
  · exact h.deliver [] _

/-- Settles O48: every field is read off `State.reset`, whose session is not `Ready`. -/
theorem resetStateOfTheSession : Obligations.ResetStateOfTheSession :=
  ⟨rfl, rfl, rfl, rfl, rfl, rfl, nofun, fun _ _ => rfl, rfl⟩

/-! ### The parameters and the run -/

/-- Settles O50: neither the accesses of a step nor its delivery write any of the five. -/
theorem stepNeverWritesTheParameters : Obligations.StepNeverWritesTheParameters := by
  intro s t h
  obtain ⟨u, as, r, hm, rfl⟩ := step_delivers h
  exact ⟨hm.params, hm.mode, hm.hang, hm.program, hm.policy⟩

/-- R11, R163: the caller goes on after `OK`, and after any status when that is its policy. -/
theorem goesOn_iff (p : CallerPolicy) (r : Status) : p.goesOn r = true ↔ r = .ok ∨ p = .goOn := by
  cases p <;> simp

/-- Settles O58: the step's one delivery adds the status and moves the list by the caller's policy (`goesOn_iff`). -/
theorem listAdvancesOnOKAndStopsOtherwise : Obligations.ListAdvancesOnOKAndStopsOtherwise := by
  intro s t h
  obtain ⟨u, as, r, hm, rfl⟩ := step_delivers h
  refine ⟨r, by rw [deliver_statuses, hm.statuses], fun hgo => ?_, fun hne hstop => ?_⟩
  · have hgoes : s.policy.goesOn r = true := (goesOn_iff _ _).2 hgo
    simp [hm.policy, hm.index, hgoes]
  · have hstays : ¬ s.policy.goesOn r = true := mt (goesOn_iff _ _).1 (by simp [hne, hstop])
    simp [hm.policy, hm.index, hstays]

/-! ### What an operation leaves unchanged -/

/-- Settles O52: a block operation delivers on the state as it was, and of the session operations `exec_effect` says which
write the cache. -/
theorem cacheWrittenOnlyByItsOperations : Obligations.CacheWrittenOnlyByItsOperations := by
  intro i s t h hne
  cases hi : isMacro i with
  | true =>
    obtain ⟨u, as, r, -, rfl, -, -, -, hsession⟩ := exec_effect i hi s t h
    obtain ⟨st, hinit, -⟩ | ⟨-, -, hsame | ⟨-, -, hwriter⟩⟩ := hsession
    · exact .inl ⟨st, hinit⟩
    · exact absurd hsame hne
    · exact .inr hwriter
  | false =>
    obtain ⟨as, r, rfl, -⟩ := exec_block_next hi h
    exact absurd rfl hne

/-- Settles O55: what the operation's accesses leave of the device (`Moved.others`), and a delivery leaves all of it. -/
theorem onlyConfigurationRegistersAreWritten : Obligations.OnlyConfigurationRegistersAreWritten := by
  intro i s t h a ha
  obtain ⟨u, as, r, -, rfl, -, hm, -⟩ := exec_delivers h
  refine hm.others a ?_
  simp only [List.mem_cons, List.not_mem_nil, or_false] at ha
  omega

/-- R10, R76, R139: a block operation changes nothing of the system. -/
theorem exec_block_sameSystem {i : Instr} {s t : State} (hi : isMacro i = false) (h : exec i s = .next t) :
    s.sameSystem t := by
  obtain ⟨as, r, rfl, -⟩ := exec_block_next hi h
  exact ⟨rfl, rfl, rfl, rfl, rfl, rfl, rfl, rfl, rfl, rfl⟩

/-- R64: an operation that ends has assigned its destinations at most. -/
theorem exec_env {i : Instr} {s t : State} (h : exec i s = .next t) :
    ∃ as, t.env = assignAll s.env as ∧ ∀ a ∈ as, a.1 ∈ destinations i := by
  cases hi : isMacro i with
  | true =>
    obtain ⟨u, as, r, hm, rfl, hdst, -⟩ := exec_effect i hi s t h
    exact ⟨as, by rw [deliver_env, hm.env], hdst⟩
  | false =>
    obtain ⟨as, r, rfl, hdst⟩ := exec_block_next hi h
    exact ⟨as, rfl, hdst⟩

/-- R9, R162: an outcome that, where it is a delivery on `s` of a failure, is a delivery of no value. -/
def FailureDeliversNothing (s : State) (o : Host.Outcome State Fault Refusal) : Prop :=
  ∀ t, o = .next t → ∃ as r, t = s.deliver as r ∧ (r ≠ .ok → as = [])

theorem failureDeliversNothing_ok (s : State) (as : List (Name × Value)) :
    FailureDeliversNothing s (.next (s.deliver as .ok)) := by
  rintro _ ⟨⟩
  exact ⟨as, .ok, rfl, fun h => absurd rfl h⟩

theorem failureDeliversNothing_nil (s : State) (r : Status) : FailureDeliversNothing s (.next (s.deliver [] r)) := by
  rintro _ ⟨⟩
  exact ⟨[], r, rfl, fun _ => rfl⟩

theorem FailureDeliversNothing.withOperand {s : State} {α : Type} {k : α → Host.Outcome State Fault Refusal}
    (hk : ∀ a, FailureDeliversNothing s (k a)) (v : Except Fault α) : FailureDeliversNothing s (withOperand v k) := by
  cases v with
  | ok a => exact hk a
  | error f => intro t h; cases h

/-- R154, R155, R157: a block operation other than `rawToXYZ` delivers a value or fails, never both. -/
theorem exec_block_failureDeliversNothing {i : Instr} (hi : isMacro i = false) (hx : ∀ d o, i ≠ .rawToXYZ d o)
    (s : State) : FailureDeliversNothing s (exec i s) := by
  cases i with
  | packConfig d o =>
    refine .withOperand (fun a => ?_) _
    cases a with
    | ok c => exact failureDeliversNothing_ok s _
    | error m => exact failureDeliversNothing_nil s _
  | unpackConfig d o => exact .withOperand (fun _ => failureDeliversNothing_ok s _) _
  | unpackChannel d o => exact .withOperand (fun _ => failureDeliversNothing_ok s _) _
  | crcValid d o => exact .withOperand (fun _ => failureDeliversNothing_ok s _) _
  | reconstruct d o => exact .withOperand (fun _ => failureDeliversNothing_ok s _) _
  | rawToXYZ d o => exact absurd rfl (hx d o)
  | xyzToRGB d o =>
    refine .withOperand (fun c => ?_) _
    split
    · exact failureDeliversNothing_nil s _
    · exact failureDeliversNothing_ok s _
  | linearToSRGB d o => exact .withOperand (fun _ => failureDeliversNothing_ok s _) _
  | xyzToCCT d o =>
    refine .withOperand (fun c => ?_) _
    split
    · exact failureDeliversNothing_nil s _
    · split
      · exact failureDeliversNothing_nil s _
      · exact failureDeliversNothing_ok s _
  | _ => cases hi

/-- Settles O53: one lemma for each of the first three clauses; a delivery of no value assigns nothing. -/
theorem operationsLeaveAllElse : Obligations.OperationsLeaveAllElse := by
  refine ⟨fun i s t hi h => ?_, fun i s t h n hn => ?_, fun i s t r hi hx h hr hne => ?_, fun s r => rfl⟩
  · have hsame := exec_block_sameSystem hi h
    have ⟨_, _, _, _, hdevice, _⟩ := hsame
    exact ⟨hsame, fun a => by rw [hdevice]⟩
  · obtain ⟨as, henv, hdst⟩ := exec_env h
    rw [henv]
    exact lookup_assignAll_other (n := n) as (fun a ha e => hn (e ▸ hdst a ha)) _
  · obtain ⟨as, r', rfl, hempty⟩ := exec_block_failureDeliversNothing hi hx s t h
    obtain rfl : r' = r := by simpa using hr
    rw [hempty hne, deliver_env, assignAll_nil]

/-! ### What a block operation depends on -/

section operands
variable {s s' : State} (he : s.env = s'.env)
include he

theorem named_congr {α : Type} (as : Value → Option α) (n : Name) : s.named as n = s'.named as n := by
  unfold State.named
  rw [he]

theorem evalOperand_congr {α : Type} (as : Value → Option α) (o : Operand α) :
    evalOperand s as o = evalOperand s' as o := by
  cases o with
  | lit a => rfl
  | var n => exact named_congr he as n

theorem evalSet_congr (o : SetOperand) : evalSet s o = evalSet s' o := by
  cases o with
  | record a b c d => simp only [evalSet, evalOperand_congr he]
  | var n => exact named_congr he _ n

theorem evalConfig_congr (o : ConfigOperand) : evalConfig s o = evalConfig s' o := by
  cases o with
  | image c => rfl
  | var n => simp only [evalConfig, named_congr he]
  | record r => rfl

end operands

/-- R10: two invocations, on `s` and on `s'`, deliver the same assignments and status, or are the same fault. -/
def SameResult (s s' : State) (o o' : Host.Outcome State Fault Refusal) : Prop :=
  (∃ as st, o = .next (s.deliver as st) ∧ o' = .next (s'.deliver as st)) ∨ (∃ f, o = .fault f ∧ o' = .fault f)

theorem sameResult_deliver (s s' : State) (as : List (Name × Value)) (r : Status) :
    SameResult s s' (.next (s.deliver as r)) (.next (s'.deliver as r)) := .inl ⟨as, r, rfl, rfl⟩

theorem SameResult.withOperand {s s' : State} {α : Type} {k k' : α → Host.Outcome State Fault Refusal}
    (hk : ∀ a, SameResult s s' (k a) (k' a)) {v v' : Except Fault α} (hv : v = v') :
    SameResult s s' (withOperand v k) (withOperand v' k') := by
  subst hv
  cases v with
  | ok a => exact hk a
  | error f => exact .inr ⟨f, rfl, rfl⟩

/-- R73, R76: `crcValid` reads `CRC_FN` only. -/
theorem crcOk_congr {p p' : Params} (h : p.crcFn = p'.crcFn) (ch : RawChannel) : p.crcOk ch = p'.crcOk ch := by
  unfold Params.crcOk
  rw [h]

/-- Settles O54: equal names give equal operands (`SameResult.withOperand`), and on equal operands each operation reads the
parameters named only. -/
theorem blockOperationsDependOnOperandsOnly : Obligations.BlockOperationsDependOnOperandsOnly := by
  intro i s s' hi hcodec hcolour he
  show SameResult s s' (exec i s) (exec i s')
  cases i with
  | packConfig d o =>
    refine .withOperand (fun a => ?_) (evalConfig_congr he o)
    rw [(hcodec rfl).1]
    cases a <;> exact sameResult_deliver s s' _ _
  | unpackConfig d o =>
    refine .withOperand (fun w => ?_) (evalOperand_congr he _ o)
    rw [(hcodec rfl).1]
    exact sameResult_deliver s s' _ _
  | unpackChannel d o => exact .withOperand (fun _ => sameResult_deliver s s' _ _) (evalOperand_congr he _ o)
  | crcValid d o =>
    refine .withOperand (fun ch => ?_) (evalOperand_congr he _ o)
    rw [crcOk_congr (hcodec rfl).2]
    exact sameResult_deliver s s' _ _
  | reconstruct d o => exact .withOperand (fun _ => sameResult_deliver s s' _ _) (evalOperand_congr he _ o)
  | rawToXYZ d o =>
    refine .withOperand (fun cs => ?_) (evalSet_congr he o)
    rw [hcolour rfl]
    exact sameResult_deliver s s' _ _
  | xyzToRGB d o =>
    refine .withOperand (fun c => ?_) (evalOperand_congr he _ o)
    rw [hcolour rfl]
    split <;> exact sameResult_deliver s s' _ _
  | linearToSRGB d o =>
    refine .withOperand (fun c => ?_) (evalOperand_congr he _ o)
    rw [hcolour rfl]
    exact sameResult_deliver s s' _ _
  | xyzToCCT d o =>
    refine .withOperand (fun c => ?_) (evalOperand_congr he _ o)
    rw [hcolour rfl]
    split
    · exact sameResult_deliver s s' _ _
    · split <;> exact sameResult_deliver s s' _ _
  | _ => cases hi

/-! ### A name no line has assigned -/

section unassigned
variable {s : State} {n : Name} (h : lookup s.env n = none)
include h

theorem named_unassigned {α : Type} (as : Value → Option α) : s.named as n = .error (.unassignedName n) := by
  simp only [State.named, h]

theorem evalOperand_unassigned {α : Type} (as : Value → Option α) :
    evalOperand s as (.var n) = .error (.unassignedName n) := named_unassigned h as

end unassigned

/-- R64, log entry 29: the members of a record are evaluated in order, and the first that denotes no channel gives the
fault. -/
theorem evalSet_record (s : State) (a b c x : Operand RawChannel) :
    evalSet s (.record a b c x) = (evalOperand s Value.asChannel a).bind fun c0 =>
      (evalOperand s Value.asChannel b).bind fun c1 => (evalOperand s Value.asChannel c).bind fun c2 =>
        (evalOperand s Value.asChannel x).bind fun c3 => .ok ⟨c0, c1, c2, c3⟩ := by
  simp only [evalSet]
  cases evalOperand s Value.asChannel a with
  | error f => rfl
  | ok c0 =>
    cases evalOperand s Value.asChannel b with
    | error f => rfl
    | ok c1 =>
      cases evalOperand s Value.asChannel c with
      | error f => rfl
      | ok c2 => cases evalOperand s Value.asChannel x <;> rfl

theorem exists_of_isOk {α : Type} {v : Except Fault α} (h : v.isOk = true) : ∃ a, v = .ok a := by
  cases v with
  | ok a => exact ⟨a, rfl⟩
  | error f => cases h

/-- Settles O59: the operand is evaluated first, and to the fault (`named_unassigned`). -/
theorem unassignedNameIsAFault : Obligations.UnassignedNameIsAFault := by
  intro d n s h
  have hraw : ∀ o, evalSet s o = .error (.unassignedName n) → exec (.rawToXYZ d o) s = .fault (.unassignedName n) :=
    fun o ho => by simp only [exec, execRawToXYZ, ho, withOperand_error]
  refine ⟨?_, ?_, ?_, ?_, ?_, hraw _ (named_unassigned h _), ?_, ?_, ?_, fun e he => ?_, fun a b c x => ?_⟩
  · simp only [exec, execPackConfig, evalConfig, named_unassigned h, withOperand_error]
  · simp only [exec, execUnpackConfig, evalOperand_unassigned h, withOperand_error]
  · simp only [exec, execUnpackChannel, evalOperand_unassigned h, withOperand_error]
  · simp only [exec, execCrcValid, evalOperand_unassigned h, withOperand_error]
  · simp only [exec, execReconstruct, evalOperand_unassigned h, withOperand_error]
  · simp only [exec, execXyzToRGB, evalOperand_unassigned h, withOperand_error]
  · simp only [exec, execLinearToSRGB, evalOperand_unassigned h, withOperand_error]
  · simp only [exec, execXyzToCCT, evalOperand_unassigned h, withOperand_error]
  · simp only [exec_setter he, callSetter, evalOperand_unassigned h, withOperand_error]
  · have hn := evalOperand_unassigned h Value.asChannel
    refine ⟨hraw _ (by rw [evalSet_record, hn]; rfl), fun ha => ?_⟩
    obtain ⟨_, ha⟩ := exists_of_isOk ha
    refine ⟨hraw _ (by rw [evalSet_record, ha, hn]; rfl), fun hb => ?_⟩
    obtain ⟨_, hb⟩ := exists_of_isOk hb
    refine ⟨hraw _ (by rw [evalSet_record, ha, hb, hn]; rfl), fun hc => ?_⟩
    obtain ⟨_, hc⟩ := exists_of_isOk hc
    exact hraw _ (by rw [evalSet_record, ha, hb, hc, hn]; rfl)

end Sys2Proof.Machine

namespace Sys2Proof

/-! ### `reconstruct` -/

/-- R120, R121: a channel's value is at most `(2^20 - 1) × 2^15`. -/
theorem RawChannel.scaled_le (ch : RawChannel) : ch.mantissa.toNat * 2 ^ ch.exponent.toNat ≤ (2 ^ 20 - 1) * 2 ^ 15 :=
  Nat.mul_le_mul (Nat.le_pred_of_lt ch.mantissa.isLt)
    (Nat.pow_le_pow_right two_pos (Nat.le_pred_of_lt ch.exponent.isLt))

/-- R120, R121: the shift in 36 bits loses nothing. -/
theorem RawChannel.toNat_value (ch : RawChannel) : ch.value.toNat = ch.mantissa.toNat * 2 ^ ch.exponent.toNat := by
  have hm : ch.mantissa.toNat < 2 ^ 36 := ch.mantissa.isLt.trans (by norm_num)
  have hle := ch.scaled_le
  unfold RawChannel.value
  rw [BitVec.toNat_shiftLeft, BitVec.toNat_setWidth, Nat.mod_eq_of_lt hm, Nat.shiftLeft_eq, Nat.mod_eq_of_lt]
  omega

end Sys2Proof

namespace Sys2Proof.Machine

/-- Settles O16: the value is the product (`toNat_value`), which is small enough (`scaled_le`) that binary64 holds it. -/
theorem reconstructNeverOverflows : Obligations.ReconstructNeverOverflows := by
  intro d o ch s h
  have hv := ch.toNat_value
  have hle := ch.scaled_le
  refine ⟨ch.value, by simp only [exec, execReconstruct, h, withOperand_ok], hv, by omega, by omega, ?_⟩
  exact round64_natCast (by omega)

/-! ### The halves of the packed word -/

theorem lo16_or (a b : Word) : lo16 (a ||| b) = lo16 a ||| lo16 b := BitVec.extractLsb'_or

theorem hi16_or (a b : Word) : hi16 (a ||| b) = hi16 a ||| hi16 b := BitVec.extractLsb'_or

/-- A field that stands above bit 15 has no bit in the low half. -/
theorem lo16_insertField {n lo : Nat} (v : BitVec n) (h : 16 ≤ lo) : lo16 (insertField v lo) = 0#16 := by
  apply BitVec.eq_of_getLsbD_eq
  intro i hi
  rw [getLsbD_lo16, getLsbD_insertField]
  simp [show i < lo by omega]

/-- A field that ends below bit 16 has no bit in the high half. -/
theorem hi16_insertField {n lo : Nat} (v : BitVec n) (h : lo + n ≤ 16) : hi16 (insertField v lo) = 0#16 := by
  apply BitVec.eq_of_getLsbD_eq
  intro i hi
  rw [getLsbD_hi16, getLsbD_insertField, BitVec.getLsbD_of_ge v (16 + i - lo) (by omega)]
  simp

/-- R51, R52: under either layout the high-half fields stand above bit 15. -/
theorem le_lo_of_mem_highFields (L : CfgHiLayout) : ∀ f ∈ highFields, 16 ≤ L.lo f := by
  cases L <;> decide

/-- R51, R52: under either layout the low-half fields end below bit 16. -/
theorem lo_add_width_le_of_mem_lowFields (L : CfgHiLayout) : ∀ f ∈ lowFields, L.lo f + f.width ≤ 16 := by
  cases L <;> decide

theorem lo16_insertField_of_highField {n : Nat} {f : ConfigField} (hf : f ∈ highFields) (L : CfgHiLayout)
    (v : BitVec n) : lo16 (insertField v (L.lo f)) = 0#16 :=
  lo16_insertField v (le_lo_of_mem_highFields L f hf)

theorem hi16_insertField_of_lowField {n : Nat} {f : ConfigField} (hf : f ∈ lowFields) (hn : n ≤ f.width)
    (L : CfgHiLayout) (v : BitVec n) : hi16 (insertField v (L.lo f)) = 0#16 :=
  hi16_insertField v (by have := lo_add_width_le_of_mem_lowFields L f hf; omega)

/-- R70: the low half of the packed word holds the fixed bit and the four low-half fields. -/
theorem lo16_packWord (L : CfgHiLayout) (c : DeviceConfiguration) :
    lo16 (packWord L c) = lo16 fixedBit ||| lo16 (insertField c.thresholdChannelSelect (L.lo .thresholdChannelSelect))
      ||| lo16 (insertField c.interruptDirection (L.lo .interruptDirection))
      ||| lo16 (insertField c.interruptConfig (L.lo .interruptConfig)) ||| lo16 (insertField c.i2cBurst (L.lo .i2cBurst)) := by
  simp (disch := decide) only [packWord, lo16_or, lo16_insertField_of_highField, BitVec.or_zero]

/-- R70: the high half of the packed word holds the seven high-half fields. -/
theorem hi16_packWord (L : CfgHiLayout) (c : DeviceConfiguration) :
    hi16 (packWord L c) = hi16 fixedBit ||| hi16 (insertField c.quickWake (L.lo .quickWake))
      ||| hi16 (insertField c.range (L.lo .range)) ||| hi16 (insertField c.conversionTime (L.lo .conversionTime))
      ||| hi16 (insertField c.operatingMode (L.lo .operatingMode)) ||| hi16 (insertField c.latch (L.lo .latch))
      ||| hi16 (insertField c.interruptPolarity (L.lo .interruptPolarity))
      ||| hi16 (insertField c.faultCount (L.lo .faultCount)) := by
  simp (disch := decide) only [packWord, hi16_or, hi16_insertField_of_lowField, BitVec.or_zero]

/-- Settles O46: each half of the word is a function of its own fields (`lo16_packWord`, `hi16_packWord`), which a set of a
field of the other half leaves. -/
theorem oneHalfFieldLeavesTheOtherHalf : Obligations.OneHalfFieldLeavesTheOtherHalf := by
  intro L c f v
  refine ⟨fun hf => ?_, fun hf => ?_⟩
  · rw [lo16_packWord, lo16_packWord]
    simp only [highFields, List.mem_cons, List.not_mem_nil, or_false] at hf
    rcases hf with rfl | rfl | rfl | rfl | rfl | rfl | rfl <;> rfl
  · rw [hi16_packWord, hi16_packWord]
    simp only [lowFields, List.mem_cons, List.not_mem_nil, or_false] at hf
    rcases hf with rfl | rfl | rfl | rfl <;> rfl

end Sys2Proof.Machine
end

section
/-! PROOFS. The statements of 20_memory.md: what the transport answers, what `read` and `readConfig` deliver, what
`writeConfig` and the setters leave in the device, whether their writes succeed or fail, and the write-back under `ECHO`
(R33, R34, R48, R98 to R103, R115). -/

namespace Sys2Proof.Machine

/-! ### The transport's answers (R33, R34, R48) -/

/-- R48: a script answers first. -/
theorem nextAnswer_of_script {s : State} {a : Answer} {rest : List Answer} (h : s.script = a :: rest) :
    s.nextAnswer = a := by
  simp [State.nextAnswer, h]

section echo
variable {s : State} (hmode : s.mode = .echo) (hscript : s.script = [])
include hmode hscript

theorem nextAnswer_of_echo : s.nextAnswer = .echo := by
  simp [State.nextAnswer, hscript, hmode]

theorem readAnswer_of_echo (addr : RegAddr) (n : Nat) :
    s.readAnswer addr n = some (echoedBytes s.device s.draws addr n) := by
  simp [State.readAnswer, nextAnswer_of_echo hmode hscript]

theorem writeAnswer_of_echo : s.writeAnswer = true := by
  simp [State.writeAnswer, nextAnswer_of_echo hmode hscript]

end echo

/-- R48: under `ECHO` a register whose two bytes are known answers them. -/
theorem echoedBytes_register {m : List Host.Cell} {addr : RegAddr} {b0 b1 : Byte}
    (h0 : Memory.readByte m (byteAddr addr 0) = some b0) (h1 : Memory.readByte m (byteAddr addr 1) = some b1) (k : Nat) :
    echoedBytes m k addr 2 = [b0, b1] := by
  simp [echoedBytes, List.range_succ, h0, h1]

/-- Settles O37: each clause names the next answer, which decides the access. -/
theorem transportAnswers : Obligations.TransportAnswers := by
  intro s addr n bs rest
  refine ⟨fun h => ?_, fun h hlen => ?_, fun h hlen => ?_, fun hscript hmode => ?_⟩
  · simp [State.readAnswer, State.writeAnswer, nextAnswer_of_script h]
  · simp [State.readAnswer, nextAnswer_of_script h, hlen]
  · simp [State.readAnswer, nextAnswer_of_script h, hlen]
  · simp [readAnswer_of_echo hmode hscript, writeAnswer_of_echo hmode hscript]

/-! ### Actions, once the outcome of their first part is known -/

theorem Act.andThen_ok {α β : Type} {m : Act α} {s t : State} {a : α} (h : m s = (.ok a, t)) (f : α → Act β) :
    m.andThen f s = f a t := by
  simp [Act.andThen, h]

theorem Act.andThen_error {α β : Type} {m : Act α} {s t : State} {e : Status} (h : m s = (.error e, t))
    (f : α → Act β) : m.andThen f s = (.error e, t) := by
  simp [Act.andThen, h]

theorem finishCall_statusOnly_ok {m : Act Unit} {s t : State} (h : m s = (.ok (), t)) (st : Name) :
    finishCall st (statusOnly m s) = t.deliver [(st, .status .ok)] .ok := by
  rw [finishCall_statusOnly, Act.status, h]

theorem finishCall_statusOnly_error {m : Act Unit} {s t : State} {e : Status} (h : m s = (.error e, t)) (st : Name) :
    finishCall st (statusOnly m s) = t.deliver [(st, .status e)] e := by
  rw [finishCall_statusOnly, Act.status, h]

theorem memRead_ok {s : State} {addr : RegAddr} {n : Nat} {bs : List Byte} (h : s.readAnswer addr n = some bs) :
    memRead addr n s = (.ok bs, s.accessed (.read addr n (some bs))) := by
  simp [memRead, h]

theorem memRead_error {s : State} {addr : RegAddr} {n : Nat} (h : s.readAnswer addr n = none) :
    memRead addr n s = (.error (.transportFailure addr .read), s.accessed (.read addr n none)) := by
  simp [memRead, h]

theorem memWrite_ok {s : State} (h : s.writeAnswer = true) (addr : RegAddr) (v : Half) :
    memWrite addr v s = (.ok (),
      { s.accessed (.write addr (payload16 v) true) with device := Memory.writeHalf s.device addr v }) := by
  simp [memWrite, h]

theorem memWrite_error {s : State} (h : s.writeAnswer = false) (addr : RegAddr) (v : Half) :
    memWrite addr v s = (.error (.transportFailure addr .write),
      { s.accessed (.write addr (payload16 v) false) with device := Memory.forgetHalf s.device addr }) := by
  simp [memWrite, h]

/-! ### A session operation that is not turned away runs to its end -/

section runs
variable {s : State} (hready : s.session = .ready) (hhang : s.hang = false)
include hready hhang

theorem exec_read_runs (a b st : Name) : exec (.read a b st) s = .next (finishCall st ((doRead.andThen fun cs =>
    Act.done ([(a, .channelSet cs), (b, .crcFlags (s.params.crcFlags cs))], crcStatus (s.params.crcFlags cs))) s)) := by
  simp only [exec, execRead, turnsAway_of_ready hready, callSession_runs hhang]

theorem exec_readConfig_runs (d st : Name) : exec (.readConfig d st) s =
    .next (finishCall st ((doReadConfig.andThen fun c => Act.done ([(d, .config c)], .ok)) s)) := by
  simp only [exec, execReadConfig, turnsAway_of_ready hready, callSession_runs hhang]

variable {old : DeviceConfiguration} (hcache : s.cfgCache = some old)
include hcache

theorem exec_writeConfig_runs (st : Name) :
    exec (.writeConfig st) s = .next (finishCall st (statusOnly doWriteConfig s)) := by
  simp only [exec, execWriteConfig, writeTurnsAway_of_ready hready hcache, callSession_runs hhang]

theorem exec_setter_runs {e : ConfigField × (Name → Operand Nat → Instr)} (he : e ∈ setters) (st : Name)
    {o : Operand Nat} {v : Nat} (hv : evalOperand s Value.asField o = .ok v) (hfits : v < 2 ^ e.1.width) :
    exec (e.2 st o) s = .next (finishCall st (statusOnly (doSet e.1 v) s)) := by
  rw [exec_setter he, callSetter, hv, withOperand_ok, setterTurnsAway_of_ready hready hcache hfits,
    callSession_runs hhang]

end runs

/-! ### `read` (R98) -/

theorem crcFlags_all_iff (f : CrcFlags) : f.all = true ↔ f = ⟨true, true, true, true⟩ := by
  obtain ⟨ok0, ok1, ok2, ok3⟩ := f
  simp [CrcFlags.all, and_assoc]

theorem crcStatus_eq (f : CrcFlags) : crcStatus f = if f = ⟨true, true, true, true⟩ then .ok else .crcMismatch f := by
  simp only [crcStatus, crcFlags_all_iff]

theorem doRead_ok {s : State} {bs : List Byte} (h : s.readAnswer addrChannels 16 = some bs) :
    doRead s = (.ok (channelsOf bs), s.accessed (.read addrChannels 16 (some bs))) := Act.andThen_ok (memRead_ok h) _

theorem doRead_error {s : State} (h : s.readAnswer addrChannels 16 = none) :
    doRead s = (.error (.transportFailure addrChannels .read), s.accessed (.read addrChannels 16 none)) :=
  Act.andThen_error (memRead_error h) _

/-- Settles O35: the one read of `doRead` succeeds, and its 16 bytes are the four channels' words. -/
theorem readDeliversChannelsAndFlags : Obligations.ReadDeliversChannelsAndFlags := by
  rintro s a b st b0 b1 b2 b3 b4 b5 b6 b7 b8 b9 b10 b11 b12 b13 b14 b15 cs f r hready hhang hread rfl rfl rfl
  rw [exec_read_runs hready hhang, ← crcStatus_eq, Act.andThen_ok (doRead_ok hread)]
  rfl

/-- Settles O36: the one read of `doRead` fails, which ends the operation. -/
theorem failedReadDeliversNoChannels : Obligations.FailedReadDeliversNoChannels := by
  intro s a b st hready hhang hread
  rw [exec_read_runs hready hhang, Act.andThen_error (doRead_error hread)]
  rfl

/-! ### `readConfig` (R99) -/

/-- R36, R99: two reads that succeed give the word of their four bytes. -/
theorem doReadConfig_ok {s : State} {h0 h1 l0 l1 : Byte} (hhi : s.readAnswer addrConfigHi 2 = some [h0, h1])
    (hlo : s.oneAnswerUsed.readAnswer addrConfigLo 2 = some [l0, l1]) :
    doReadConfig s = (.ok (unpackWord s.params.layout (be32 h0 h1 l0 l1)),
      { s with cfgCache := some (unpackWord s.params.layout (be32 h0 h1 l0 l1)), script := s.script.drop 2
               draws := s.draws + 2
               traffic := s.traffic
                 ++ [.read addrConfigHi 2 (some [h0, h1]), .read addrConfigLo 2 (some [l0, l1])] }) := by
  have hlo' : (s.accessed (.read addrConfigHi 2 (some [h0, h1]))).readAnswer addrConfigLo 2 = some [l0, l1] := hlo
  rw [doReadConfig, Act.andThen_ok (memRead_ok hhi), Act.andThen_ok (memRead_ok hlo')]
  simp [halfOf, join32_be16, State.accessed]

/-- Settles O38: `doReadConfig` on two reads that succeed, then the delivery. -/
theorem readConfigReplacesTheCache : Obligations.ReadConfigReplacesTheCache := by
  rintro s d st h0 h1 l0 l1 c hready hhang hhi hlo rfl
  rw [exec_readConfig_runs hready hhang, Act.andThen_ok (doReadConfig_ok hhi hlo)]
  rfl

/-! ### The bytes of the two configuration registers (R24, R34, R38) -/

theorem hi16_bytes (w : Word) :
    (hi16 w).extractLsb' 8 8 = w.extractLsb' 24 8 ∧ (hi16 w).extractLsb' 0 8 = w.extractLsb' 16 8 := by
  simpa only [payload16, List.cons.injEq, and_true] using payload16_hi16 w

theorem lo16_bytes (w : Word) :
    (lo16 w).extractLsb' 8 8 = w.extractLsb' 8 8 ∧ (lo16 w).extractLsb' 0 8 = w.extractLsb' 0 8 := by
  simpa only [payload16, List.cons.injEq, and_true] using payload16_lo16 w

theorem readByte_writeConfigHi (m : List Host.Cell) (w : Word) (a : Nat) :
    Memory.readByte (Memory.writeHalf m addrConfigHi (hi16 w)) a =
      if a = 21 then some (w.extractLsb' 16 8) else if a = 20 then some (w.extractLsb' 24 8)
      else Memory.readByte m a := by
  rw [readByte_writeHalf, (hi16_bytes w).1, (hi16_bytes w).2]
  rfl

theorem readByte_writeConfigLo (m : List Host.Cell) (w : Word) (a : Nat) :
    Memory.readByte (Memory.writeHalf m addrConfigLo (lo16 w)) a =
      if a = 23 then some (w.extractLsb' 0 8) else if a = 22 then some (w.extractLsb' 8 8)
      else Memory.readByte m a := by
  rw [readByte_writeHalf, (lo16_bytes w).1, (lo16_bytes w).2]
  rfl

/-- R34: both bytes of a forgotten register are unknown. -/
theorem readByte_forgetHalf_same {m : List Host.Cell} (hm : Memory.wf m = true) (addr : RegAddr) :
    Memory.readByte (Memory.forgetHalf m addr) (byteAddr addr 0) = none ∧
    Memory.readByte (Memory.forgetHalf m addr) (byteAddr addr 1) = none := by
  obtain ⟨hrising, -⟩ := Bool.and_eq_true_iff.1 hm
  have hne : byteAddr addr 0 ≠ byteAddr addr 1 := by simp [byteAddr]
  exact ⟨(lookup_removeAt_other hne _).trans (lookup_removeAt_same hrising),
    lookup_removeAt_same (risingFrom_removeAt hrising)⟩

/-- R34, R152: the device whose high half was written and whose low half's write failed, outside the low half. -/
theorem readByte_writeConfigHi_forgetConfigLo (m : List Host.Cell) (w : Word) {a : Nat} (h22 : a ≠ 22) (h23 : a ≠ 23) :
    Memory.readByte (Memory.forgetHalf (Memory.writeHalf m addrConfigHi (hi16 w)) addrConfigLo) a =
      if a = 21 then some (w.extractLsb' 16 8) else if a = 20 then some (w.extractLsb' 24 8)
      else Memory.readByte m a :=
  (readByte_forgetHalf _ addrConfigLo h22 h23).trans (readByte_writeConfigHi m w a)

/-- R38, R100: the device after both writes of the word `w`. -/
def Memory.writeConfigWord (m : List Host.Cell) (w : Word) : List Host.Cell :=
  Memory.writeHalf (Memory.writeHalf m addrConfigHi (hi16 w)) addrConfigLo (lo16 w)

/-- R37, R38: the word's bytes, most significant first, stand in the two registers, and every other byte is as before. -/
theorem readByte_writeConfigWord (m : List Host.Cell) (w : Word) :
    Memory.readByte (Memory.writeConfigWord m w) 20 = some (w.extractLsb' 24 8)
      ∧ Memory.readByte (Memory.writeConfigWord m w) 21 = some (w.extractLsb' 16 8)
      ∧ Memory.readByte (Memory.writeConfigWord m w) 22 = some (w.extractLsb' 8 8)
      ∧ Memory.readByte (Memory.writeConfigWord m w) 23 = some (w.extractLsb' 0 8)
      ∧ ∀ a, a ∉ [20, 21, 22, 23] → Memory.readByte (Memory.writeConfigWord m w) a = Memory.readByte m a := by
  simp +contextual [Memory.writeConfigWord, readByte_writeConfigHi, readByte_writeConfigLo]

/-! ### The two writes of a word (R100, R152) -/

theorem writeWord_ok {s : State} (hhi : s.writeAnswer = true) (hlo : s.oneAnswerUsed.writeAnswer = true) (w : Word) :
    writeWord w s = (.ok (),
      { s with script := s.script.drop 2, draws := s.draws + 2, device := Memory.writeConfigWord s.device w
               traffic := s.traffic ++ configWrites w }) := by
  rw [writeWord, Act.andThen_ok (memWrite_ok hhi _ _), memWrite_ok (s := { s.accessed _ with device := _ }) hlo]
  simp [State.accessed, payload16_hi16, payload16_lo16, configWrites, Memory.writeConfigWord, addrConfigHi,
    addrConfigLo]

theorem writeWord_error_hi {s : State} (hhi : s.writeAnswer = false) (w : Word) :
    writeWord w s = (.error (.transportFailure addrConfigHi .write),
      { s with script := s.script.drop 1, draws := s.draws + 1, device := Memory.forgetHalf s.device addrConfigHi
               traffic := s.traffic ++ [.write addrConfigHi [w.extractLsb' 24 8, w.extractLsb' 16 8] false] }) := by
  rw [writeWord, Act.andThen_error (memWrite_error hhi _ _), payload16_hi16]
  rfl

theorem writeWord_error_lo {s : State} (hhi : s.writeAnswer = true) (hlo : s.oneAnswerUsed.writeAnswer = false)
    (w : Word) : writeWord w s = (.error (.transportFailure addrConfigLo .write),
      { s with script := s.script.drop 2, draws := s.draws + 2
               device := Memory.forgetHalf (Memory.writeHalf s.device addrConfigHi (hi16 w)) addrConfigLo
               traffic := s.traffic ++ [.write addrConfigHi [w.extractLsb' 24 8, w.extractLsb' 16 8] true,
                 .write addrConfigLo [w.extractLsb' 8 8, w.extractLsb' 0 8] false] }) := by
  rw [writeWord, Act.andThen_ok (memWrite_ok hhi _ _), memWrite_error (s := { s.accessed _ with device := _ }) hlo]
  simp [State.accessed, payload16_hi16, payload16_lo16]

/-! ### `writeConfig` and the setters write the packed cache (R100, R101) -/

theorem doWriteConfig_eq {s : State} {c : DeviceConfiguration} (hcache : s.cfgCache = some c) :
    doWriteConfig s = writeWord (packWord s.params.layout c) s := by
  simp [doWriteConfig, hcache]

/-- The transport calls do not look at the cache. -/
theorem memWrite_withCache (addr : RegAddr) (v : Half) (s : State) (c : Option DeviceConfiguration) :
    memWrite addr v { s with cfgCache := c } = ((memWrite addr v s).1, { (memWrite addr v s).2 with cfgCache := c }) := by
  have hanswer : State.writeAnswer { s with cfgCache := c } = s.writeAnswer := rfl
  cases h : s.writeAnswer with
  | true => rw [memWrite_ok h, memWrite_ok (hanswer.trans h)]; rfl
  | false => rw [memWrite_error h, memWrite_error (hanswer.trans h)]; rfl

theorem writeWord_withCache (w : Word) (s : State) (c : Option DeviceConfiguration) :
    writeWord w { s with cfgCache := c } = ((writeWord w s).1, { (writeWord w s).2 with cfgCache := c }) := by
  unfold writeWord Act.andThen
  rw [memWrite_withCache]
  rcases memWrite addrConfigHi (hi16 w) s with ⟨_ | _, t⟩
  · rfl
  · exact memWrite_withCache addrConfigLo (lo16 w) t c

section doSet
variable {f : ConfigField} {v : Nat} {s t : State} {old : DeviceConfiguration} (hcache : s.cfgCache = some old)
include hcache

/-- R101: a setter whose two writes succeed leaves the changed configuration in the cache. -/
theorem doSet_ok (hw : writeWord (packWord s.params.layout (old.set f v)) s = (.ok (), t)) :
    doSet f v s = (.ok (), { t with cfgCache := some (old.set f v) }) := by
  have hset := writeWord_withCache (packWord s.params.layout (old.set f v)) s (some (old.set f v))
  rw [hw] at hset
  simp only [doSet, hcache, doWriteConfig, hset]

/-- R103: a setter one of whose writes fails leaves the cache it had. -/
theorem doSet_error {e : Status} (hw : writeWord (packWord s.params.layout (old.set f v)) s = (.error e, t)) :
    doSet f v s = (.error e, t) := by
  have hset := writeWord_withCache (packWord s.params.layout (old.set f v)) s (some (old.set f v))
  have hkept : t.cfgCache = some old := by
    obtain ⟨_, h, -⟩ | ⟨_, _, h, hc⟩ := writeWord_cache (packWord s.params.layout (old.set f v)) s <;>
      cases hw.symm.trans h
    exact hc.trans hcache
  rw [hw] at hset
  simp only [doSet, hcache, doWriteConfig, hset]
  rw [← hkept]

end doSet

/-- Settles O40: `writeConfig` is the two writes of the packed cache. -/
theorem writeConfigWritesBothHalves : Obligations.WriteConfigWritesBothHalves := by
  rintro s st c w hready hcache hhang hhi hlo rfl
  refine ⟨_, ?_, readByte_writeConfigWord s.device _⟩
  rw [exec_writeConfig_runs hready hhang hcache,
    finishCall_statusOnly_ok ((doWriteConfig_eq hcache).trans (writeWord_ok hhi hlo _))]

/-- R101: on a usable session a setter whose value fits and whose two writes succeed. -/
theorem exec_setter_ok {e : ConfigField × (Name → Operand Nat → Instr)} (he : e ∈ setters) {s : State} (st : Name)
    {o : Operand Nat} {v : Nat} {old : DeviceConfiguration} (hready : s.session = .ready)
    (hcache : s.cfgCache = some old) (hhang : s.hang = false) (hv : evalOperand s Value.asField o = .ok v)
    (hfits : v < 2 ^ e.1.width) (hhi : s.writeAnswer = true) (hlo : s.oneAnswerUsed.writeAnswer = true) :
    exec (e.2 st o) s = .next (State.deliver
      { s with cfgCache := some (old.set e.1 v), script := s.script.drop 2, draws := s.draws + 2
               device := Memory.writeConfigWord s.device (packWord s.params.layout (old.set e.1 v))
               traffic := s.traffic ++ configWrites (packWord s.params.layout (old.set e.1 v)) }
      [(st, .status .ok)] .ok) := by
  rw [exec_setter_runs hready hhang hcache he st hv hfits,
    finishCall_statusOnly_ok (doSet_ok hcache (writeWord_ok hhi hlo _))]

/-! ### A write that fails (R103, R152) -/

/-- R34, R100, R152: an operation that fails as the writes of `w` fail ends as `FailedWriteEnds` says. -/
theorem failedWriteEnds_of_runs {i : Instr} {s : State} {st : Name} {w : Word} {m : Act Unit}
    (hruns : exec i s = .next (finishCall st (statusOnly m s)))
    (hfails : ∀ e t, writeWord w s = (.error e, t) → m s = (.error e, t)) : FailedWriteEnds i s st w := by
  refine ⟨fun hhi => ?_, fun hhi hlo => ?_⟩
  · refine ⟨_, ?_, fun hwf => readByte_forgetHalf_same hwf addrConfigHi, fun a ha => ?_⟩
    · rw [hruns, finishCall_statusOnly_error (hfails _ _ (writeWord_error_hi hhi w))]
      rfl
    · have ⟨h20, h21⟩ : a ≠ 20 ∧ a ≠ 21 := by simpa using ha
      exact readByte_forgetHalf _ addrConfigHi h20 h21
  · refine ⟨_, ?_, readByte_writeConfigHi_forgetConfigLo s.device w (by decide) (by decide),
      readByte_writeConfigHi_forgetConfigLo s.device w (by decide) (by decide),
      fun hwf => readByte_forgetHalf_same (writeHalf_wf addrConfigHi (hi16 w) hwf) addrConfigLo, fun a ha => ?_⟩
    · rw [hruns, finishCall_statusOnly_error (hfails _ _ (writeWord_error_lo hhi hlo w))]
      rfl
    · have ⟨h20, h21, h22, h23⟩ : a ≠ 20 ∧ a ≠ 21 ∧ a ≠ 22 ∧ a ≠ 23 := by simpa using ha
      rw [readByte_writeConfigHi_forgetConfigLo s.device w h22 h23, if_neg h21, if_neg h20]

/-- Settles O42: `writeConfig` and the setters fail as the two writes of their word do (`failedWriteEnds_of_runs`). -/
theorem failedSetterRestoresTheCache : Obligations.FailedSetterRestoresTheCache := by
  intro s st old hready hcache hhang
  refine ⟨?_, fun e he o v hv hfits => ?_⟩
  · exact failedWriteEnds_of_runs (exec_writeConfig_runs hready hhang hcache st)
      fun _ _ hw => (doWriteConfig_eq hcache).trans hw
  · exact failedWriteEnds_of_runs (exec_setter_runs hready hhang hcache he st hv hfits)
      fun _ _ hw => doSet_error hcache hw

end Sys2Proof.Machine

namespace Sys2Proof

/-! ### One field of a configuration changed (R101) -/

theorem DeviceConfiguration.get_set_same (c : DeviceConfiguration) {f : ConfigField} {v : Nat} (h : v < 2 ^ f.width) :
    (c.set f v).get f = v := by
  cases f <;> exact Nat.mod_eq_of_lt h

theorem DeviceConfiguration.get_set_other (c : DeviceConfiguration) {f g : ConfigField} (h : g ≠ f) (v : Nat) :
    (c.set f v).get g = c.get g := by
  cases f <;> cases g <;> simp only [ne_eq, not_true_eq_false, reduceCtorEq, not_false_eq_true] at h <;> rfl

/-! ### Unpacking a packed configuration (R71, R74) -/

open Machine

theorem extractField_or (a b : Word) (lo n : Nat) :
    extractField (a ||| b) lo n = extractField a lo n ||| extractField b lo n := BitVec.extractLsb'_or

/-- R58: a field read where it was inserted is the field. -/
theorem extractField_insertField_same {n lo : Nat} (v : BitVec n) (h : lo + n ≤ 32) :
    extractField (insertField v lo) lo n = v := by
  apply BitVec.eq_of_getLsbD_eq
  intro i hi
  rw [getLsbD_extractField, getLsbD_insertField]
  simp [hi, show lo + i < 32 by omega]

/-- R58: a field read beside where another was inserted is zero. -/
theorem extractField_insertField_disjoint {m n lo lo' : Nat} (v : BitVec m) (h : lo + n ≤ lo' ∨ lo' + m ≤ lo) :
    extractField (insertField v lo') lo n = 0#n := by
  apply BitVec.eq_of_getLsbD_eq
  intro i hi
  rw [getLsbD_extractField, getLsbD_insertField, BitVec.getLsbD_zero]
  rcases h with h | h
  · simp [show lo + i < lo' by omega]
  · simp [BitVec.getLsbD_of_ge v (lo + i - lo') (by omega)]

theorem fixedBit_eq_insertField : fixedBit = insertField 1#1 15 := by decide

/-- R74: under either layout the fields are disjoint, so what is unpacked is what was packed. -/
theorem unpackWord_packWord (L : CfgHiLayout) (c : DeviceConfiguration) : unpackWord L (packWord L c) = c := by
  cases L <;>
    simp (disch := decide) only [unpackWord, packWord, fixedBit_eq_insertField, extractField_or,
      extractField_insertField_same, extractField_insertField_disjoint, BitVec.zero_or, BitVec.or_zero]

end Sys2Proof

namespace Sys2Proof.Machine

/-! ### The write-back under `ECHO` (R115) -/

/-- R48, R99, R115: under `ECHO`, `readConfig` on a device in which the word of a configuration was written reads that
word, and delivers and caches that configuration. -/
theorem exec_readConfig_written {t : State} {d st : Name} {m : List Host.Cell} {c : DeviceConfiguration} {w : Word}
    (hready : t.session = .ready) (hhang : t.hang = false) (hmode : t.mode = .echo) (hscript : t.script = [])
    (hw : w = packWord t.params.layout c) (hdevice : t.device = Memory.writeConfigWord m w) :
    exec (.readConfig d st) t = .next (State.deliver
      { t with cfgCache := some c, script := t.script.drop 2, draws := t.draws + 2
               traffic := t.traffic ++ [.read 0x0A#8 2 (some [w.extractLsb' 24 8, w.extractLsb' 16 8]),
                 .read 0x0B#8 2 (some [w.extractLsb' 8 8, w.extractLsb' 0 8])] }
      [(d, .config c), (st, .status .ok)] .ok) := by
  obtain ⟨h20, h21, h22, h23, -⟩ := readByte_writeConfigWord m w
  rw [← hdevice] at h20 h21 h22 h23
  have hscript' : t.oneAnswerUsed.script = [] := by simp [State.oneAnswerUsed, hscript]
  have hhi := (readAnswer_of_echo hmode hscript addrConfigHi 2).trans (congrArg some (echoedBytes_register h20 h21 _))
  have hlo := (readAnswer_of_echo (s := t.oneAnswerUsed) hmode hscript' addrConfigLo 2).trans
    (congrArg some (echoedBytes_register h22 h23 _))
  refine readConfigReplacesTheCache t d st _ _ _ _ c hready hhang hhi hlo ?_
  rw [be32_payload32, hw, unpackWord_packWord]

/-- Settles O44: the setter writes the word of its changed configuration (`exec_setter_ok`), which the device echoes
(`exec_readConfig_written`). -/
theorem echoWriteBack : Obligations.EchoWriteBack := by
  intro e he s st d st' o v old hready hcache hhang hmode hscript hv hfits hne
  have hlo : s.oneAnswerUsed.writeAnswer = true :=
    writeAnswer_of_echo hmode (by simp [State.oneAnswerUsed, hscript])
  have hset := exec_setter_ok he st hready hcache hhang hv hfits (writeAnswer_of_echo hmode hscript) hlo
  refine ⟨_, _, old.set e.1 v, hset, rfl, old.get_set_same hfits, fun g hg => old.get_set_other hg v,
    exec_readConfig_written hready hhang hmode (by simp [hscript]) rfl rfl, ?_, ?_, rfl⟩
  · simp
  · simp [lookup_insertAt_other _ hne, lookup_insertAt_same]

end Sys2Proof.Machine
end

section
/-! PROOFS. The statements of 30_encoding.md: the two word formats slice by slice and their reserved bits (R51 to R60,
R70 to R74), and the line encoding (R62 to R64; log entries 3 and 4). -/

namespace Sys2Proof

open Machine

/-! ### The channel word (R54, R56, R57) -/

/-- R58: what is cut out of a word and put back where it stood is that part of the word. -/
theorem insertField_extractField (w : Word) (lo n : Nat) :
    insertField (extractField w lo n) lo = w &&& insertField (BitVec.allOnes n) lo := by
  apply BitVec.eq_of_getLsbD_eq
  intro i hi
  rw [BitVec.getLsbD_and, getLsbD_insertField, getLsbD_insertField, getLsbD_extractField, BitVec.getLsbD_allOnes]
  by_cases h : i < lo
  · simp [h]
  · simp [h, hi, show lo + (i - lo) = i by omega, Bool.and_comm]

/-- R58: a field that fits above `lo` is shifted without loss. -/
theorem toNat_insertField {n lo : Nat} (v : BitVec n) (h : lo + n ≤ 32) :
    (insertField v lo).toNat = v.toNat <<< lo := by
  have hv : v.toNat < 2 ^ n := v.isLt
  have hn : 2 ^ n ≤ 2 ^ 32 := Nat.pow_le_pow_right two_pos (by omega)
  have hlt : v.toNat * 2 ^ lo < 2 ^ 32 :=
    calc v.toNat * 2 ^ lo < 2 ^ n * 2 ^ lo := Nat.mul_lt_mul_of_pos_right hv (Nat.two_pow_pos lo)
      _ = 2 ^ (lo + n) := by rw [← Nat.pow_add, Nat.add_comm]
      _ ≤ 2 ^ 32 := Nat.pow_le_pow_right two_pos h
  rw [insertField, BitVec.toNat_shiftLeft, BitVec.toNat_setWidth, Nat.mod_eq_of_lt (hv.trans_le hn), Nat.shiftLeft_eq,
    Nat.mod_eq_of_lt hlt]

/-- R54, R57: the four fields of a channel word, the mantissa as one slice. -/
theorem unpackChannelWord_eq (w : Word) : unpackChannelWord w
    = ⟨extractField w 28 4, extractField w 8 20, extractField w 4 4, extractField w 0 4⟩ := by
  rw [← unpackChannelWord_mantissa]
  rfl

/-- R56: the four fields are disjoint, so each is read where it was inserted. -/
theorem unpackChannelWord_channelWord (ch : RawChannel) : unpackChannelWord (channelWord ch) = ch := by
  rw [unpackChannelWord_eq]
  simp (disch := decide) only [channelWord, extractField_or, extractField_insertField_same,
    extractField_insertField_disjoint, BitVec.zero_or, BitVec.or_zero]

/-- R56: the four fields are the whole word. -/
theorem channelWord_unpackChannelWord (w : Word) : channelWord (unpackChannelWord w) = w := by
  have hmasks : insertField (BitVec.allOnes 4) 28 ||| insertField (BitVec.allOnes 20) 8
      ||| insertField (BitVec.allOnes 4) 4 ||| insertField (BitVec.allOnes 4) 0 = BitVec.allOnes 32 := by decide
  rw [unpackChannelWord_eq]
  simp only [channelWord, insertField_extractField, ← BitVec.and_or_distrib_left, hmasks, BitVec.and_allOnes]

/-- R56: the fields, shifted to their places, as a number. -/
theorem toNat_channelWord (ch : RawChannel) : (channelWord ch).toNat
    = ch.exponent.toNat <<< 28 ||| ch.mantissa.toNat <<< 8 ||| ch.counter.toNat <<< 4 ||| ch.crc.toNat := by
  simp (disch := decide) only [channelWord, BitVec.toNat_or, toNat_insertField, Nat.shiftLeft_zero]

/-- Settles O14: the word as a number (`toNat_channelWord`), the record as slices (`unpackChannelWord_eq`), and the two
inverse laws. -/
theorem channelWordIsABijection : Obligations.ChannelWordIsABijection :=
  ⟨toNat_channelWord, unpackChannelWord_eq, unpackChannelWord_channelWord, channelWord_unpackChannelWord⟩

/-! ### Reserved and fixed bits of the configuration word (R59, R60, R74) -/

/-! A word is corrected by making its bits under the mask `M` those of `F`. -/

section corrected
variable {n : Nat} {F M : BitVec n} (h : F &&& M = F)
include h

/-- A corrected word has the bits of `F` under `M`. -/
theorem corrected_and_mask (w : BitVec n) : ((w &&& ~~~M) ||| F) &&& M = F := by
  rw [BitVec.and_or_distrib_right, h, BitVec.and_assoc, BitVec.and_comm (~~~M), BitVec.and_not_self]
  simp

/-- A corrected word keeps its other bits. -/
theorem corrected_and_not_mask (w : BitVec n) : ((w &&& ~~~M) ||| F) &&& ~~~M = w &&& ~~~M := by
  have hF : F &&& ~~~M = 0#n := by
    rw [← h, BitVec.and_assoc, BitVec.and_not_self]
    simp
  rw [BitVec.and_or_distrib_right, hF, BitVec.or_zero, BitVec.and_assoc, BitVec.and_self]

/-- A word is its own correction exactly when it has the bits of `F` under `M`. -/
theorem corrected_eq_self_iff (w : BitVec n) : (w &&& ~~~M) ||| F = w ↔ w &&& M = F := by
  constructor
  · intro hw
    rw [← hw]
    exact corrected_and_mask h w
  · rintro rfl
    rw [← BitVec.and_or_distrib_left, BitVec.or_comm, BitVec.or_not_self, BitVec.and_allOnes]

end corrected

theorem fixedBit_and_reservedMask (L : CfgHiLayout) : fixedBit &&& L.reservedMask = fixedBit := by cases L <;> decide

/-- R74: under either layout the fields are all but the reserved bits and the fixed one. -/
theorem packWord_unpackWord (L : CfgHiLayout) (w : Word) :
    packWord L (unpackWord L w) = (w &&& ~~~L.reservedMask) ||| fixedBit := by
  simp only [packWord, unpackWord, insertField_extractField, BitVec.or_assoc, ← BitVec.and_or_distrib_left]
  rw [BitVec.or_comm]
  cases L <;> rfl

/-- R59: a packed word is its own correction, so it has the fixed bit set and the reserved bits clear. -/
theorem packWord_and_reservedMask (L : CfgHiLayout) (c : DeviceConfiguration) :
    packWord L c &&& L.reservedMask = fixedBit := by
  have h := packWord_unpackWord L (packWord L c)
  rw [unpackWord_packWord] at h
  rw [h]
  exact corrected_and_mask (fixedBit_and_reservedMask L) _

/-- R59: a word unpacks as its correction does. -/
theorem unpackWord_corrected (L : CfgHiLayout) (w : Word) :
    unpackWord L ((w &&& ~~~L.reservedMask) ||| fixedBit) = unpackWord L w := by
  rw [← packWord_unpackWord, unpackWord_packWord]

/-- R59: words that differ in reserved and fixed bits only unpack the same. -/
theorem unpackWord_congr {L : CfgHiLayout} {w w' : Word} (h : w &&& ~~~L.reservedMask = w' &&& ~~~L.reservedMask) :
    unpackWord L w = unpackWord L w' := by
  rw [← unpackWord_corrected, h, unpackWord_corrected]

/-- Settles O11: the corrected word (`packWord_unpackWord`) is the word exactly where there was nothing to correct. -/
theorem packOfUnpackCorrectsReservedBits : Obligations.PackOfUnpackCorrectsReservedBits := by
  have hiff : ∀ L w, packWord L (unpackWord L w) = w ↔ w &&& L.reservedMask = fixedBit := fun L w => by
    rw [packWord_unpackWord]
    exact corrected_eq_self_iff (fixedBit_and_reservedMask L) w
  exact fun w => ⟨packWord_unpackWord .B w, packWord_unpackWord .A w, hiff .B w, hiff .A w⟩

/-- R59: a slice that stands under reserved or fixed bits is that of the fixed bit. -/
theorem slice_packWord_of_reserved {L : CfgHiLayout} {lo n : Nat}
    (h : L.reservedMask.extractLsb' lo n = BitVec.allOnes n) (c : DeviceConfiguration) :
    (packWord L c).extractLsb' lo n = fixedBit.extractLsb' lo n := by
  rw [← packWord_and_reservedMask L c, BitVec.extractLsb'_and, h, BitVec.and_allOnes]

end Sys2Proof

namespace Sys2Proof.Machine

/-! ### The Register Codec's operations on an operand that denotes a value -/

theorem exec_packConfig {d : Name} {o : ConfigOperand} {c : DeviceConfiguration} {s : State}
    (h : evalConfig s o = .ok (.ok c)) :
    exec (.packConfig d o) s = .next (s.deliver [(d, .word (packWord s.params.layout c))] .ok) := by
  simp only [exec, execPackConfig, h, withOperand_ok]

theorem exec_unpackConfig {d : Name} {o : Operand Word} {w : Word} {s : State}
    (h : evalOperand s Value.asWord o = .ok w) :
    exec (.unpackConfig d o) s = .next (s.deliver [(d, .config (unpackWord s.params.layout w))] .ok) := by
  simp only [exec, execUnpackConfig, h, withOperand_ok]

theorem exec_unpackChannel {d : Name} {o : Operand Word} {w : Word} {s : State}
    (h : evalOperand s Value.asWord o = .ok w) :
    exec (.unpackChannel d o) s = .next (s.deliver [(d, .channel (unpackChannelWord w))] .ok) := by
  simp only [exec, execUnpackChannel, h, withOperand_ok]

/-- Settles O13: R57's one slice for the mantissa (`unpackChannelWord_eq`). -/
theorem unpackChannelReadsTheFourFields : Obligations.UnpackChannelReadsTheFourFields := by
  intro d o w s h
  rw [exec_unpackChannel h, unpackChannelWord_eq]
  rfl

/-- Settles O8: the table of layout B, field by field. -/
theorem unpackConfigReadsLayoutB : Obligations.UnpackConfigReadsLayoutB := by
  intro d o w s hL h
  rw [exec_unpackConfig h, hL]
  rfl

/-- Settles O9: the table of layout A, field by field. -/
theorem unpackConfigReadsLayoutA : Obligations.UnpackConfigReadsLayoutA := by
  intro d o w s hL h
  rw [exec_unpackConfig h, hL]
  rfl

/-- Settles O5: a field's slice is what `unpackWord` reads (`unpackWord_packWord`), every other slice is reserved or
fixed (`slice_packWord_of_reserved`). -/
theorem packConfigProducesLayoutB : Obligations.PackConfigProducesLayoutB := by
  intro d o c s hL h
  have hfield := unpackWord_packWord .B c
  exact ⟨packWord .B c, hL ▸ exec_packConfig h, congrArg (·.quickWake) hfield, slice_packWord_of_reserved rfl c,
    congrArg (·.range) hfield, congrArg (·.conversionTime) hfield, congrArg (·.operatingMode) hfield,
    congrArg (·.latch) hfield, congrArg (·.interruptPolarity) hfield, congrArg (·.faultCount) hfield,
    slice_packWord_of_reserved rfl c, slice_packWord_of_reserved rfl c, congrArg (·.thresholdChannelSelect) hfield,
    congrArg (·.interruptDirection) hfield, congrArg (·.interruptConfig) hfield, slice_packWord_of_reserved rfl c,
    congrArg (·.i2cBurst) hfield⟩

/-- Settles O6: as under layout B. -/
theorem packConfigProducesLayoutA : Obligations.PackConfigProducesLayoutA := by
  intro d o c s hL h
  have hfield := unpackWord_packWord .A c
  exact ⟨packWord .A c, hL ▸ exec_packConfig h, congrArg (·.quickWake) hfield, congrArg (·.range) hfield,
    congrArg (·.conversionTime) hfield, congrArg (·.operatingMode) hfield, congrArg (·.latch) hfield,
    congrArg (·.interruptPolarity) hfield, slice_packWord_of_reserved rfl c, congrArg (·.faultCount) hfield,
    slice_packWord_of_reserved rfl c, slice_packWord_of_reserved rfl c, congrArg (·.thresholdChannelSelect) hfield,
    congrArg (·.interruptDirection) hfield, congrArg (·.interruptConfig) hfield, slice_packWord_of_reserved rfl c,
    congrArg (·.i2cBurst) hfield⟩

/-- Settles O12: what is packed (`packWord_and_reservedMask`), what is not looked at (`unpackWord_congr`), and the
corrected word, under the mask of either layout. -/
theorem reservedBitsPackFixedAndUnpackIgnored : Obligations.ReservedBitsPackFixedAndUnpackIgnored := by
  intro s M hM
  obtain rfl : M = s.params.layout.reservedMask := by
    obtain ⟨hL, rfl⟩ | ⟨hL, rfl⟩ := hM <;> rw [hL] <;> rfl
  have hfixed := fixedBit_and_reservedMask s.params.layout
  refine ⟨fun d o c h => ⟨_, exec_packConfig h, packWord_and_reservedMask _ c⟩,
    fun d w w' h => ⟨_, exec_unpackConfig rfl, ?_⟩,
    fun w => ⟨corrected_and_mask hfixed w, corrected_and_not_mask hfixed w⟩⟩
  rw [unpackWord_congr h]
  exact exec_unpackConfig rfl

end Sys2Proof.Machine

namespace Sys2Proof

/-! ### Literals and operands of a line (R64; log entry 4) -/

theorem Parsed.mapTo_of_eq_ok {α β : Type} {p : Parsed α} {a : α} {rest : List Byte} (h : p = .ok (a, rest))
    (f : α → β) : p.mapTo f = .ok (f a, rest) := by
  rw [h, Parsed.mapTo_ok]

/-- R56: a channel literal reads back from its `CH32` image. -/
theorem readChannel_channelBytes (ch : RawChannel) (rest : List Byte) :
    readChannel (channelBytes ch ++ rest) = .ok (ch, rest) := by
  simp only [readChannel, channelBytes, readWord_wordBytes, Parsed.mapTo_ok, unpackChannelWord_channelWord]

/-- R51, R59, R66: a configuration literal reads back from its image, which has its reserved bits as they must be. -/
theorem readImage_imageBytes (c : DeviceConfiguration) (rest : List Byte) :
    readImage (imageBytes c ++ rest) = .ok (c, rest) := by
  have hpattern : CfgHiLayout.B.matchesPattern (packWord .B c) = true := beq_iff_eq.2 (packWord_and_reservedMask .B c)
  simp only [readImage, imageBytes, readWord_wordBytes, Parsed.andThen_ok, hpattern, if_true, unpackWord_packWord]

theorem readChroma_chromaBytes (g : Option Chroma) (rest : List Byte) :
    readChroma (chromaBytes g ++ rest) = .ok (g, rest) := by
  cases g with
  | none => rfl
  | some g =>
    simp only [readChroma, chromaBytes, List.cons_append, List.append_assoc, readByte, Parsed.andThen_ok,
      readRat_ratBytes, Parsed.mapTo_ok]
    rfl

theorem readXYZ_xyzBytes (c : XYZColor) (rest : List Byte) : readXYZ (xyzBytes c ++ rest) = .ok (c, rest) := by
  simp only [readXYZ, xyzBytes, List.append_assoc, readRat_ratBytes, readChroma_chromaBytes, Parsed.andThen_ok,
    Parsed.mapTo_ok]

/-- R64: an operand reads back when its literals do. -/
theorem readOperand_operandBytes {α : Type} {readLit : List Byte → Parsed α} {litBytes : α → List Byte}
    (hlit : ∀ a rest, readLit (litBytes a ++ rest) = .ok (a, rest)) {o : Operand α} (h : o.wf = true)
    (rest : List Byte) : readOperand readLit (operandBytes litBytes o ++ rest) = .ok (o, rest) := by
  cases o with
  | lit a => exact Parsed.mapTo_of_eq_ok (hlit a rest) _
  | var n => exact Parsed.mapTo_of_eq_ok (readName_nameBytes h rest) _

theorem readConfigOperand_configOperandBytes {o : ConfigOperand} (h : o.wf = true) (rest : List Byte) :
    readConfigOperand (configOperandBytes o ++ rest) = .ok (o, rest) := by
  cases o with
  | image c => exact Parsed.mapTo_of_eq_ok (readImage_imageBytes c rest) _
  | var n => exact Parsed.mapTo_of_eq_ok (readName_nameBytes h rest) _
  | record r => exact Parsed.mapTo_of_eq_ok (readRecord_recordBytes r rest) _

theorem readSetOperand_setOperandBytes {o : SetOperand} (h : o.wf = true) (rest : List Byte) :
    readSetOperand (setOperandBytes o ++ rest) = .ok (o, rest) := by
  cases o with
  | record a b c d =>
    simp only [SetOperand.wf, Bool.and_eq_true] at h
    obtain ⟨⟨⟨ha, hb⟩, hc⟩, hd⟩ := h
    have hread := @readOperand_operandBytes _ _ _ readChannel_channelBytes
    simp only [readSetOperand, setOperandBytes, List.cons_append, List.append_assoc, readByte, Parsed.andThen_ok,
      if_true, hread ha, hread hb, hread hc, hread hd, Parsed.mapTo_ok]
  | var n => exact Parsed.mapTo_of_eq_ok (readName_nameBytes h rest) _

/-! ### Lines -/

/-- A destination and an argument read back when the argument does. -/
theorem readLine_append {α : Type} {readArg : List Byte → Parsed α} {argBytes rest : List Byte} {a : α}
    (harg : readArg (argBytes ++ rest) = .ok (a, rest)) {d : Name} (hd : nameOk d = true) (mk : Name → α → Instr) :
    readLine readArg mk (nameBytes d ++ argBytes ++ rest) = .ok (mk d a, rest) := by
  simp only [readLine, List.append_assoc, readName_nameBytes hd, Parsed.andThen_ok, harg, Parsed.mapTo_ok]

/-- R64: the same for an operand whose literals read back. -/
theorem readLine_operand {α : Type} {readLit : List Byte → Parsed α} {litBytes : α → List Byte}
    (hlit : ∀ a rest, readLit (litBytes a ++ rest) = .ok (a, rest)) {d : Name} {o : Operand α}
    (h : (nameOk d && o.wf) = true) (mk : Name → Operand α → Instr) (rest : List Byte) :
    readLine (readOperand readLit) mk (nameBytes d ++ operandBytes litBytes o ++ rest) = .ok (mk d o, rest) := by
  obtain ⟨hd, ho⟩ := Bool.and_eq_true_iff.1 h
  exact readLine_append (readOperand_operandBytes hlit ho rest) hd mk

/-- What the selector opens reads back from the bytes the encoder puts after it. -/
theorem readInstr_operandBytes {i : Instr} (h : i.wf = true) (rest : List Byte) :
    readInstr i.selector (i.operandBytes ++ rest) = .ok (i, rest) := by
  cases i with
  | packConfig d o =>
    obtain ⟨hd, ho⟩ := Bool.and_eq_true_iff.1 h
    exact readLine_append (readConfigOperand_configOperandBytes ho rest) hd _
  | rawToXYZ d o =>
    obtain ⟨hd, ho⟩ := Bool.and_eq_true_iff.1 h
    exact readLine_append (readSetOperand_setOperandBytes ho rest) hd _
  | unpackConfig | unpackChannel => exact readLine_operand readWord_wordBytes h _ rest
  | crcValid | reconstruct => exact readLine_operand readChannel_channelBytes h _ rest
  | xyzToRGB | xyzToCCT => exact readLine_operand readXYZ_xyzBytes h _ rest
  | linearToSRGB => exact readLine_operand readRat_ratBytes h _ rest
  | init | writeConfig => exact Parsed.mapTo_of_eq_ok (readName_nameBytes h rest) _
  | read a b st =>
    obtain ⟨hab, hst⟩ := Bool.and_eq_true_iff.1 h
    obtain ⟨ha, hb⟩ := Bool.and_eq_true_iff.1 hab
    simp [readInstr, Instr.selector, Instr.operandBytes, readName_nameBytes ha, readName_nameBytes hb,
      readName_nameBytes hst]
  | readConfig c st =>
    obtain ⟨hc, hst⟩ := Bool.and_eq_true_iff.1 h
    simp [readInstr, Instr.selector, Instr.operandBytes, readName_nameBytes hc, readName_nameBytes hst]
  | setRange | setConversionTime | setOperatingMode | setThresholdChannel | setFaultCount | setQuickWake | setIntConfig
  | setIntPolarity | setIntDirection | setLatch => exact readLine_operand readNat_natBytes h _ rest

/-- Settles O2: after the selector the line reads back (`readInstr_operandBytes`), and nothing follows it. -/
theorem decodeOfEncodeIsTheInstruction : Obligations.DecodeOfEncodeIsTheInstruction := by
  intro i h
  have hread := readInstr_operandBytes h []
  rw [List.append_nil] at hread
  simp [decode, encode, hread]

/-- Settles O1: `decode` computes each of the seven. -/
theorem decodesWrittenOutWords : Obligations.DecodesWrittenOutWords :=
  ⟨rfl, rfl, rfl, rfl, rfl, rfl, rfl⟩

/-- R63: a reserved `OPSEL` is an error of its own, whatever follows. -/
theorem decode_reservedOpsel {k : Nat} (h9 : 0x9 ≤ k) (hF : k ≤ 0xF) (rest : List Byte) :
    decode (BitVec.ofNat 8 k :: rest) = .error (.illegalOpsel k) := by
  interval_cases k <;> rfl

end Sys2Proof

namespace Sys2Proof.Machine

/-- Settles O3: the step delivers the decoder's error (`decode_reservedOpsel`) as a status, and no value. -/
theorem reservedOpselIsIllegalOperation : Obligations.ReservedOpselIsIllegalOperation := by
  intro s k rest h9 hF hs hl
  refine ⟨s.deliver [] (.illegalOperation k), ?_, rfl, rfl, rfl, rfl, rfl, rfl, rfl, rfl, rfl, rfl, rfl, rfl⟩
  simp only [step, hs, hl, decode_reservedOpsel h9 hF, Bool.false_eq_true, if_false]

end Sys2Proof.Machine
end

section
/-! PROOFS. The statements of 40_register_codec.md: record literals and setter operands that fit or are out of range (R70,
R157, R161), unpacking what was packed (R74), `crcValid` (R73, R75), and the reserved bits a setter leaves in the device
(R184). -/

namespace Sys2Proof

/-! ### Record literals (R70, R157, R161) -/

theorem ConfigField.fits_iff (f : ConfigField) (v : Nat) : f.fits v = true ↔ v < 2 ^ f.width := decide_eq_true_iff

theorem ConfigField.fits_eq_false {f : ConfigField} {v : Nat} (h : 2 ^ f.width ≤ v) : f.fits v = false :=
  decide_eq_false (not_lt.2 h)

/-- R70: every field stands in a record literal. -/
theorem ConfigRecord.exists_mem_entries (r : ConfigRecord) (f : ConfigField) : ∃ v, (f, v) ∈ r.entries := by
  cases f <;> simp [ConfigRecord.entries]

/-- R70: a value that fits is the number its field is given. -/
theorem ConfigRecord.get_typed {r : ConfigRecord} {f : ConfigField} {v : Nat} (h : (f, v) ∈ r.entries)
    (hv : v < 2 ^ f.width) : r.typed.get f = v := by
  cases f <;>
    · obtain rfl : v = _ := by simpa [ConfigRecord.entries] using h
      exact Nat.mod_eq_of_lt hv

theorem ConfigRecord.misfit_eq_none {r : ConfigRecord} (h : ∀ e ∈ r.entries, e.2 < 2 ^ e.1.width) :
    r.misfit = none := by
  simpa [ConfigRecord.misfit, ConfigField.fits_iff] using h

/-- R161: the first field of the pseudocode's order that does not fit is the misfit. -/
theorem ConfigRecord.misfit_eq_some {r : ConfigRecord} {before after : List (ConfigField × Nat)} {f : ConfigField}
    {v : Nat} (hr : r.entries = before ++ (f, v) :: after) (hbefore : ∀ e ∈ before, e.2 < 2 ^ e.1.width)
    (hv : 2 ^ f.width ≤ v) : r.misfit = some (f, v) := by
  refine List.find?_eq_some_iff_append.2 ⟨?_, before, after, hr, fun e he => ?_⟩
  · simp [ConfigField.fits_eq_false hv]
  · simp [(ConfigField.fits_iff _ _).2 (hbefore e he)]

end Sys2Proof

namespace Sys2Proof.Machine

theorem evalConfig_record_ok {r : ConfigRecord} (h : r.misfit = none) (s : State) :
    evalConfig s (.record r) = .ok (.ok r.typed) := by
  simp only [evalConfig, h]

theorem exec_packConfig_misfit {r : ConfigRecord} {f : ConfigField} {v : Nat} (h : r.misfit = some (f, v)) (d : Name)
    (s : State) : exec (.packConfig d (.record r)) s = .next (s.deliver [] (.operandOutOfRange f v)) := by
  simp only [exec, execPackConfig, evalConfig, h, withOperand_ok]

/-- Settles O7: a literal whose values fit has no misfit and its typed form the values given (`get_typed`); in any other
the first value that does not fit is the misfit (`misfit_eq_some`). -/
theorem recordLiteralFitsOrIsOutOfRange : Obligations.RecordLiteralFitsOrIsOutOfRange := by
  rintro r d s l hl
  obtain rfl : l = r.entries := hl
  refine ⟨fun hfit => ⟨r.typed, evalConfig_record_ok (ConfigRecord.misfit_eq_none hfit) s, fun f => ?_⟩,
    fun before f v after hr hbefore hv => exec_packConfig_misfit (ConfigRecord.misfit_eq_some hr hbefore hv) d s⟩
  obtain ⟨v, hmem⟩ := r.exists_mem_entries f
  rwa [ConfigRecord.get_typed hmem (hfit _ hmem)]

/-! ### Unpacking what was packed (R74) -/

/-- R64: the name an operation delivered a value to denotes that value. -/
theorem evalOperand_deliver_same {α : Type} {as : Value → Option α} {v : Value} {a : α} (h : as v = some a) (s : State)
    (d : Name) (r : Status) : evalOperand (s.deliver [(d, v)] r) as (.var d) = .ok a := by
  simp [evalOperand, State.named, lookup_insertAt_same, h]

/-- Settles O10: the name holds the packed word, whose fields are the configuration's (`unpackWord_packWord`). -/
theorem unpackOfPackIsTheConfiguration : Obligations.UnpackOfPackIsTheConfiguration := by
  intro d e o c s t hc ht
  cases (exec_packConfig hc).symm.trans ht
  have hword := evalOperand_deliver_same (as := Value.asWord) (v := .word (packWord s.params.layout c)) rfl s d .ok
  rw [exec_unpackConfig hword, deliver_params, unpackWord_packWord]

/-! ### `crcValid` (R73, R75) -/

theorem exec_crcValid {d : Name} {o : Operand RawChannel} {ch : RawChannel} {s : State}
    (h : evalOperand s Value.asChannel o = .ok ch) :
    exec (.crcValid d o) s = .next (s.deliver [(d, .bool (s.params.crcOk ch))] .ok) := by
  simp only [exec, execCrcValid, h, withOperand_ok]

theorem crcOk_of_none {p : Params} (h : p.crcFn = none) (ch : RawChannel) : p.crcOk ch = true := by
  simp only [Params.crcOk, h]

theorem crcOk_of_some {p : Params} {f : CrcFn} (h : p.crcFn = some f) (ch : RawChannel) :
    p.crcOk ch = (f.apply ch.exponent ch.mantissa ch.counter == ch.crc) := by
  simp only [Params.crcOk, h]

/-- R75: the bits of `CRC_OPT4048_GK` are its four parities. -/
theorem getLsbD_crcOpt4048 (e : BitVec 4) (r : BitVec 20) (c : BitVec 4) :
    (crcOpt4048 e r c).getLsbD 0 = (parity e (List.range 4) ^^ parity r (List.range 20) ^^ parity c (List.range 4))
      ∧ (crcOpt4048 e r c).getLsbD 1
        = (parity c [1, 3] ^^ parity r [1, 3, 5, 7, 9, 11, 13, 15, 17, 19] ^^ parity e [1, 3])
      ∧ (crcOpt4048 e r c).getLsbD 2 = (parity c [3] ^^ parity r [3, 7, 11, 15, 19] ^^ parity e [3])
      ∧ (crcOpt4048 e r c).getLsbD 3 = parity r [3, 11, 19] := by
  have hbits : ∀ x0 x1 x2 x3 : Bool,
      (BitVec.ofBool x3 ++ BitVec.ofBool x2 ++ BitVec.ofBool x1 ++ BitVec.ofBool x0).getLsbD 0 = x0
      ∧ (BitVec.ofBool x3 ++ BitVec.ofBool x2 ++ BitVec.ofBool x1 ++ BitVec.ofBool x0).getLsbD 1 = x1
      ∧ (BitVec.ofBool x3 ++ BitVec.ofBool x2 ++ BitVec.ofBool x1 ++ BitVec.ofBool x0).getLsbD 2 = x2
      ∧ (BitVec.ofBool x3 ++ BitVec.ofBool x2 ++ BitVec.ofBool x1 ++ BitVec.ofBool x0).getLsbD 3 = x3 := by decide
  exact hbits _ _ _ _

/-- Settles O15: `crcOk` by the parameter; the bits of `crcOpt4048` are parities (`getLsbD_crcOpt4048`), each the chain of
the bits it lists. -/
theorem crcValidComparesOrAccepts : Obligations.CrcValidComparesOrAccepts := by
  rintro d o ch s E R C h rfl rfl rfl
  rw [exec_crcValid h]
  refine ⟨fun hf => by rw [crcOk_of_none hf], fun f hf => by rw [crcOk_of_some hf], fun hf =>
    ⟨crcOpt4048 ch.exponent ch.mantissa ch.counter, by rw [crcOk_of_some hf]; rfl, ?_⟩⟩
  obtain ⟨h0, h1, h2, h3⟩ := getLsbD_crcOpt4048 ch.exponent ch.mantissa ch.counter
  rw [h0, h1, h2, h3]
  simp [parity, List.range_succ]

/-! ### A setter's value that does not fit (R157) -/

theorem setterTurnsAway_of_misfit {s : State} {c : DeviceConfiguration} {f : ConfigField} {v : Nat}
    (h : s.session = .ready) (hc : s.cfgCache = some c) (hv : 2 ^ f.width ≤ v) :
    s.setterTurnsAway f v = some (.operandOutOfRange f v) := by
  simp [State.setterTurnsAway, writeTurnsAway_of_ready h hc, ConfigField.fits_eq_false hv]

/-- Settles O43: the call is turned away (`setterTurnsAway_of_misfit`). -/
theorem setterRefusesAValueTooWide : Obligations.SetterRefusesAValueTooWide := by
  intro e he s st o v hready hcache hv hwide
  obtain ⟨c, hc⟩ := Option.isSome_iff_exists.1 hcache
  rw [exec_setter he, callSetter, hv, withOperand_ok, setterTurnsAway_of_misfit hready hc hwide, callSession_turned]

/-! ### The reserved bits of the device (R184) -/

section echo
variable {s : State} (hready : s.session = .ready) (hhang : s.hang = false) (hmode : s.mode = .echo)
  (hscript : s.script = [])
include hready hhang hmode hscript

/-- R48, R99: under `ECHO`, `readConfig` leaves a session whose cache holds what it read, and all a setter wants. -/
theorem exec_readConfig_echo {d st : Name} {t : State} (ht : exec (.readConfig d st) s = .next t) :
    ∃ c, t.cfgCache = some c ∧ t.session = .ready ∧ t.hang = false ∧ t.mode = .echo ∧ t.script = []
      ∧ t.params = s.params := by
  have hscript' : s.oneAnswerUsed.script = [] := by simp [State.oneAnswerUsed, hscript]
  have hhi := readAnswer_of_echo hmode hscript addrConfigHi 2
  have hlo := readAnswer_of_echo (s := s.oneAnswerUsed) hmode hscript' addrConfigLo 2
  cases (readConfigReplacesTheCache s d st _ _ _ _ _ hready hhang hhi hlo rfl).symm.trans ht
  exact ⟨_, rfl, hready, hhang, hmode, by simp [hscript], rfl⟩

/-- R48, R101: under `ECHO`, a setter whose value fits leaves the word of the changed configuration in the device. -/
theorem exec_setter_echo {e : ConfigField × (Name → Operand Nat → Instr)} (he : e ∈ setters) {old : DeviceConfiguration}
    (hcache : s.cfgCache = some old) {o : Operand Nat} {v : Nat} (hv : evalOperand s Value.asField o = .ok v)
    (hfits : v < 2 ^ e.1.width) {st : Name} {u : State} (hu : exec (e.2 st o) s = .next u) :
    u.device = Memory.writeConfigWord s.device (packWord s.params.layout (old.set e.1 v)) := by
  have hhi := writeAnswer_of_echo hmode hscript
  have hlo : s.oneAnswerUsed.writeAnswer = true :=
    writeAnswer_of_echo hmode (by simp [State.oneAnswerUsed, hscript])
  cases (exec_setter_ok he st hready hcache hhang hv hfits hhi hlo).symm.trans hu
  rfl

end echo

/-- R184: the two configuration registers after a packed word was written: the reserved bits clear, the fixed one set. -/
theorem writeConfigWord_packWord_reserved (m : List Host.Cell) (L : CfgHiLayout) (c : DeviceConfiguration) :
    ∃ b0 b1 b2 b3, Memory.readByte (Memory.writeConfigWord m (packWord L c)) 20 = some b0
      ∧ Memory.readByte (Memory.writeConfigWord m (packWord L c)) 21 = some b1
      ∧ Memory.readByte (Memory.writeConfigWord m (packWord L c)) 22 = some b2
      ∧ Memory.readByte (Memory.writeConfigWord m (packWord L c)) 23 = some b3
      ∧ be32 b0 b1 b2 b3 &&& L.reservedMask = fixedBit := by
  obtain ⟨h20, h21, h22, h23, -⟩ := readByte_writeConfigWord m (packWord L c)
  refine ⟨_, _, _, _, h20, h21, h22, h23, ?_⟩
  rw [be32_payload32, packWord_and_reservedMask]

/-- Settles O45: the `readConfig` leaves a session on which the setter runs (`exec_readConfig_echo`), and the setter leaves a
packed word in the device (`exec_setter_echo`), whatever it held. -/
theorem setterClearsReservedDeviceBits : Obligations.SetterClearsReservedDeviceBits := by
  intro e he s t u d st st' o v M hready hhang hmode hscript hM ht hv hfits hu
  obtain rfl : M = s.params.layout.reservedMask := by
    obtain ⟨hL, rfl⟩ | ⟨hL, rfl⟩ := hM <;> rw [hL] <;> rfl
  obtain ⟨c, hcache, hready', hhang', hmode', hscript', hparams⟩ := exec_readConfig_echo hready hhang hmode hscript ht
  rw [exec_setter_echo hready' hhang' hmode' hscript' he hcache hv hfits hu, hparams]
  exact writeConfigWord_packWord_reserved _ _ _

end Sys2Proof.Machine
end

section
/-! PROOFS. The statements of 41_device_session.md: calls that are turned away or never return, `init` on a device that
answers and on one that is not the expected one, a failed `readConfig`, the write-back of a setter, and how `Ready` is
reached (R91 to R101, R104 to R114, R158). -/

namespace Sys2Proof.Machine

/-! ### A call that is turned away (R92, R158, R177) -/

theorem initTurnsAway_of_ready {s : State} (h : s.session = .ready) : s.initTurnsAway = some .notReady := by
  simp [State.initTurnsAway, h]

/-- Settles O31: the session turns each of the calls away before it makes an access (`callSession_turned`). -/
theorem notReadyOperationsAreTurnedAway : Obligations.NotReadyOperationsAreTurnedAway := by
  refine fun s a b st => ⟨fun hn => ⟨?_, ?_, ?_, fun e he o v hv => ?_⟩, fun hcalled => ?_⟩
  · rw [exec, execRead, turnsAway_of_not_ready hn, callSession_turned]
  · rw [exec, execReadConfig, turnsAway_of_not_ready hn, callSession_turned]
  · rw [exec, execWriteConfig, writeTurnsAway_of_not_ready hn, callSession_turned]
  · rw [exec_setter he, callSetter_not_ready hn hv]
  · have haway : s.initTurnsAway = some .notReady := hcalled.elim initTurnsAway_of_ready initTurnsAway_of_failed
    rw [exec, execInit, haway, callSession_turned]

/-! ### A call that never returns (R114) -/

theorem callSession_hangs {st : Name} {run : Act (List (Name × Value) × Status)} {s : State} (h : s.hang = true) :
    callSession none st run s = .fault .transportHang := by
  simp [callSession, h]

/-- Settles O47: no call is turned away, so each reaches the transport (`callSession_hangs`). -/
theorem hungTransportHasNoStep : Obligations.HungTransportHasNoStep := by
  refine fun s a b st hhang => ⟨fun hs hf => ?_, fun hready => ⟨?_, ?_⟩, fun hready hcache => ?_⟩
  · rw [exec, execInit, initTurnsAway_of_fresh hs hf, callSession_hangs hhang]
  · rw [exec, execRead, turnsAway_of_ready hready, callSession_hangs hhang]
  · rw [exec, execReadConfig, turnsAway_of_ready hready, callSession_hangs hhang]
  · obtain ⟨c, hc⟩ := Option.isSome_iff_exists.1 hcache
    refine ⟨?_, fun e he o v hv hfits => ?_⟩
    · rw [exec, execWriteConfig, writeTurnsAway_of_ready hready hc, callSession_hangs hhang]
    · rw [exec_setter he, callSetter, hv, withOperand_ok, setterTurnsAway_of_ready hready hc hfits,
        callSession_hangs hhang]

/-! ### A `readConfig` that fails (R99, R152) -/

theorem doReadConfig_error_hi {s : State} (hhi : s.readAnswer addrConfigHi 2 = none) :
    doReadConfig s = (.error (.transportFailure addrConfigHi .read), s.accessed (.read addrConfigHi 2 none)) :=
  Act.andThen_error (memRead_error hhi) _

theorem doReadConfig_error_lo {s : State} {bs : List Byte} (hhi : s.readAnswer addrConfigHi 2 = some bs)
    (hlo : s.oneAnswerUsed.readAnswer addrConfigLo 2 = none) :
    doReadConfig s = (.error (.transportFailure addrConfigLo .read),
      { s with script := s.script.drop 2, draws := s.draws + 2
               traffic := s.traffic ++ [.read addrConfigHi 2 (some bs), .read addrConfigLo 2 none] }) := by
  have hlo' : (s.accessed (.read addrConfigHi 2 (some bs))).readAnswer addrConfigLo 2 = none := hlo
  rw [doReadConfig, Act.andThen_ok (memRead_ok hhi), Act.andThen_error (memRead_error hlo')]
  simp [State.accessed]

/-- Settles O39: `readConfig` ends with the read that fails, the first (`doReadConfig_error_hi`) or the second
(`doReadConfig_error_lo`), before the cache is written. -/
theorem failedReadConfigKeepsTheCache : Obligations.FailedReadConfigKeepsTheCache := by
  refine fun s d st hready hhang => ⟨fun hhi => ?_, fun bs hhi hlo => ?_⟩
  · rw [exec_readConfig_runs hready hhang, Act.andThen_error (doReadConfig_error_hi hhi)]
    rfl
  · rw [exec_readConfig_runs hready hhang, Act.andThen_error (doReadConfig_error_lo hhi hlo)]
    rfl

/-! ### The write-back of a setter (R101, R104 to R113) -/

/-- Settles O41: the setter caches and writes the configuration with its field changed (`exec_setter_ok`). -/
theorem setterChangesOneFieldAndWritesBack : Obligations.SetterChangesOneFieldAndWritesBack := by
  intro e he s st o v old hready hcache hhang hv hfits hhi hlo
  exact ⟨old.set e.1 v, packWord s.params.layout (old.set e.1 v), _, old.get_set_same hfits,
    fun g hg => old.get_set_other hg v, rfl, exec_setter_ok he st hready hcache hhang hv hfits hhi hlo,
    readByte_writeConfigWord s.device _⟩

/-! ### `init`, once the outcome of its steps is known (R93 to R97) -/

section initRuns
variable {s t : State} (hs : s.session = .uninitialized) (hf : s.initFailed = false) (hhang : s.hang = false)
include hs hf hhang

/-- R97: `Ready` is committed where the steps end well. -/
theorem exec_init_ok (h : initSteps s = (.ok (), t)) (st : Name) :
    exec (.init st) s = .next (State.deliver { t with session := .ready } [(st, .status .ok)] .ok) := by
  simp only [exec_init_runs st hs hf hhang, Act.status, doInit, h]

/-- R163, R177: a failure of the steps is remembered. -/
theorem exec_init_error {e : Status} (h : initSteps s = (.error e, t)) (st : Name) :
    exec (.init st) s = .next (State.deliver { t with initFailed := true } [(st, .status e)] e) := by
  simp only [exec_init_runs st hs hf hhang, Act.status, doInit, h]

end initRuns

/-- R94, R95: a device of another identity ends the steps behind the first read. -/
theorem initSteps_mismatch {s : State} {b : List Byte} (hid : s.readAnswer addrDeviceId 2 = some b)
    (hne : halfOf b ≠ s.params.deviceId) :
    initSteps s = (.error (.identityMismatch (halfOf b)), s.accessed (.read addrDeviceId 2 (some b))) := by
  rw [initSteps_eq, Act.andThen_ok (memRead_ok hid), accessed_params, if_neg hne, Act.fail]

/-- Settles O33: the steps of `init` end with the identity check (`initSteps_mismatch`). -/
theorem identityMismatchEndsInit : Obligations.IdentityMismatchEndsInit := by
  intro s st b0 b1 hs hf hhang hid hne
  exact exec_init_error hs hf hhang (initSteps_mismatch hid hne) st

/-! ### `init` on a device that answers (R93, R96, R97) -/

/-- R93, R94: behind a matching identity `init` goes on to the configuration. -/
theorem initSteps_match {s : State} {b : List Byte} (hid : s.readAnswer addrDeviceId 2 = some b)
    (heq : halfOf b = s.params.deviceId) :
    initSteps s = initConfig s.params.enumMap.continuous.toNat (s.accessed (.read addrDeviceId 2 (some b))) := by
  rw [initSteps_eq, Act.andThen_ok (memRead_ok hid), accessed_params, if_pos heq]

/-- R33, R34: the state whose next access gets the third answer. -/
theorem oneAnswerUsed_oneAnswerUsed (s : State) :
    s.oneAnswerUsed.oneAnswerUsed = { s with script := s.script.drop 2, draws := s.draws + 2 } := by
  simp [State.oneAnswerUsed]

/-- R99: the state after a `readConfig` whose two reads give these four bytes. -/
def State.configRead (s : State) (h0 h1 l0 l1 : Byte) : State :=
  { s with cfgCache := some (unpackWord s.params.layout (be32 h0 h1 l0 l1)), script := s.script.drop 2
           draws := s.draws + 2
           traffic := s.traffic ++ [.read addrConfigHi 2 (some [h0, h1]), .read addrConfigLo 2 (some [l0, l1])] }

theorem doReadConfig_configRead {s : State} {h0 h1 l0 l1 : Byte} (hhi : s.readAnswer addrConfigHi 2 = some [h0, h1])
    (hlo : s.oneAnswerUsed.readAnswer addrConfigLo 2 = some [l0, l1]) :
    doReadConfig s = (.ok (unpackWord s.params.layout (be32 h0 h1 l0 l1)), s.configRead h0 h1 l0 l1) :=
  doReadConfig_ok hhi hlo

/-- R101: the state after a setter has cached and written the configuration `c`. -/
def State.configWritten (s : State) (c : DeviceConfiguration) : State :=
  { s with cfgCache := some c, script := s.script.drop 2, draws := s.draws + 2
           device := Memory.writeConfigWord s.device (packWord s.params.layout c)
           traffic := s.traffic ++ configWrites (packWord s.params.layout c) }

theorem doSet_configWritten {s : State} {old : DeviceConfiguration} (hcache : s.cfgCache = some old)
    (hhi : s.writeAnswer = true) (hlo : s.oneAnswerUsed.writeAnswer = true) (f : ConfigField) (v : Nat) :
    doSet f v s = (.ok (), s.configWritten (old.set f v)) :=
  doSet_ok hcache (writeWord_ok hhi hlo _)

/-- R93, R96, R97: the parts of `init` behind the identity check, when their six accesses succeed: `s` is the state the
first two reads meet, `t` the one the writes meet, `u` the one the last two reads meet. -/
theorem initConfig_ok {s t u : State} {m : Nat} {h0 h1 l0 l1 h2 h3 l2 l3 : Byte} {c : DeviceConfiguration}
    (hhi : s.readAnswer addrConfigHi 2 = some [h0, h1])
    (hlo : s.oneAnswerUsed.readAnswer addrConfigLo 2 = some [l0, l1])
    (hc : c = (unpackWord s.params.layout (be32 h0 h1 l0 l1)).set .operatingMode m)
    (ht : t = s.oneAnswerUsed.oneAnswerUsed) (hwhi : t.writeAnswer = true) (hwlo : t.oneAnswerUsed.writeAnswer = true)
    (hu : u = { t.oneAnswerUsed.oneAnswerUsed with
      device := Memory.writeConfigWord s.device (packWord s.params.layout c) })
    (hhi' : u.readAnswer addrConfigHi 2 = some [h2, h3])
    (hlo' : u.oneAnswerUsed.readAnswer addrConfigLo 2 = some [l2, l3]) :
    initConfig m s = (.ok (), ((s.configRead h0 h1 l0 l1).configWritten c).configRead h2 h3 l2 l3) := by
  rw [oneAnswerUsed_oneAnswerUsed] at ht hu
  subst hc ht hu
  have hread := doReadConfig_configRead hhi hlo
  have hset := doSet_configWritten (s := s.configRead h0 h1 l0 l1) rfl hwhi hwlo .operatingMode m
  have hreread := doReadConfig_configRead (s := (s.configRead h0 h1 l0 l1).configWritten _) hhi' hlo'
  rw [initConfig, Act.andThen_ok hread, writeModeBack, Act.andThen_ok hset, Act.andThen_ok hreread, Act.done]

/-- Settles O32: the identity matches (`initSteps_match`), and the six accesses behind the check succeed
(`initConfig_ok`). -/
theorem initBringsTheSessionUp : Obligations.InitBringsTheSessionUp := by
  rintro s s1 s2 s3 s4 s5 s6 st i0 i1 h0 h1 l0 l1 h2 h3 l2 l3 c w dev hs hf hhang rfl rfl rfl rfl rfl rfl rfl
    hid hhi hlo hwhi hwlo hhi' hlo' hmatch hc rfl
  have hmode : c = (unpackWord s.params.layout (be32 h0 h1 l0 l1)).set .operatingMode
      s.params.enumMap.continuous.toNat := by simp [hc, DeviceConfiguration.set]
  have hconfig := initConfig_ok (s := s.accessed (.read addrDeviceId 2 (some [i0, i1]))) hhi hlo hmode rfl hwhi hwlo rfl
    hhi' hlo'
  have hsteps := (initSteps_match hid hmatch).trans hconfig
  refine ⟨_, exec_init_ok hs hf hhang hsteps st, rfl, hf, rfl, ?_, ?_, rfl, rfl, rfl, rfl, ?_, fun n hn => ?_,
    readByte_writeConfigWord s.device _⟩
  · simp [State.configRead, State.configWritten, addrDeviceId, addrConfigHi, addrConfigLo]
  · simp [State.configRead, State.configWritten]
  · simp [lookup_insertAt_same]
  · simp [lookup_insertAt_other _ hn, State.configRead, State.configWritten]

/-! ### How `Ready` is reached (R91, R97) -/

/-- R91, R97: `i` leaves the session's state as it was, or is an `init` that brings a session up that was not, and ends
with `OK`. -/
def ReadyOnlyByInit (i : Instr) (s t : State) : Prop :=
  t.session = s.session ∨
    (∃ st, i = .init st) ∧ s.session = .uninitialized ∧ t.session = .ready ∧ t.statuses = s.statuses ++ [.ok]

theorem Effect.readyOnlyByInit {i : Instr} {s t : State} (h : Effect i s t) : ReadyOnlyByInit i s t := by
  obtain ⟨u, as, r, hm, rfl, -, -, -, ⟨st, hi, hs, -, ⟨rfl, hready, -⟩ | ⟨hsame, -⟩⟩ | ⟨hsame, -⟩⟩ := h
  · exact .inr ⟨⟨st, hi⟩, hs, hready, by rw [deliver_statuses, hm.statuses]⟩
  · exact .inl hsame
  · exact .inl hsame

theorem exec_readyOnlyByInit {i : Instr} {s t : State} (h : exec i s = .next t) : ReadyOnlyByInit i s t := by
  cases hi : isMacro i with
  | true => exact (exec_effect i hi s t h).readyOnlyByInit
  | false =>
    obtain ⟨as, r, rfl, -⟩ := exec_block_next hi h
    exact .inl rfl

/-- R5, R11, R63: `step_next` with the line that was issued. -/
theorem step_next_line {s t : State} (h : step s = .next t) :
    (∃ line i, s.program[s.index]? = some line ∧ decode line = .ok i ∧ exec i s = .next t)
      ∨ ∃ k, t = s.deliver [] (.illegalOperation k) := by
  unfold step at h
  split at h
  · cases h
  · split at h
    · cases h
    · next line hline =>
      split at h
      · next i hi => exact .inl ⟨line, i, hline, hi, h⟩
      · cases h; exact .inr ⟨_, rfl⟩
      · cases h

/-- Settles O51: the operation of the issued line keeps the session's state or is the `init` (`exec_readyOnlyByInit`). -/
theorem readyOnlyThroughInit : Obligations.ReadyOnlyThroughInit := by
  refine ⟨rfl, fun s t h => ?_⟩
  obtain ⟨line, i, hline, hi, he⟩ | ⟨k, rfl⟩ := step_next_line h
  · obtain hsame | ⟨⟨st, rfl⟩, hs, hready, hstatuses⟩ := exec_readyOnlyByInit he
    · exact ⟨fun hr => hsame.trans hr, fun hs hr => nomatch hs.symm.trans (hsame.symm.trans hr)⟩
    · exact ⟨fun _ => hready, fun _ _ => ⟨line, st, hline, hi, hstatuses⟩⟩
  · exact ⟨id, fun hs hr => nomatch hs.symm.trans hr⟩

end Sys2Proof.Machine
end

section
/-! PROOFS. The rounding of 42_color_pipeline.md: the number `round64` answers is the nearest one binary64 can hold, ties to
even, and beyond the finite range the infinity of the sign (R138). -/

namespace Sys2Proof

open Machine (IsBinary64)

/-! ### Rounding to the nearest binary64 number (R138) -/

/-- An integer within a half of `x` is as near to `x` as any other; when another is as near, the two are neighbours. -/
theorem nearest_int {x : Rat} {m : Int} (hm : |(m : Rat) - x| ≤ 1 / 2) (k : Int) :
    |(m : Rat) - x| ≤ |(k : Rat) - x| ∧
      (k ≠ m → |(k : Rat) - x| = |(m : Rat) - x| → |(k : Rat) - m| = 1 ∧ |(m : Rat) - x| = 1 / 2) := by
  rcases eq_or_ne k m with rfl | hne
  · exact ⟨le_rfl, fun h => absurd rfl h⟩
  · have hone : (1 : Rat) ≤ |(k : Rat) - m| := by exact_mod_cast Int.one_le_abs (sub_ne_zero.2 hne)
    have htri : |(k : Rat) - m| ≤ |(k : Rat) - x| + |(m : Rat) - x| := by
      rw [abs_sub_comm (m : Rat) x]
      exact abs_sub_le _ _ _
    exact ⟨by linarith, fun _ he => ⟨by linarith, by linarith⟩⟩

/-- R138: `m` is the positive number `q` in units of its last place `2^u`, rounded to nearest even. -/
structure RoundedAt (q : Rat) (m : Nat) (u : Int) : Prop where
  near : |(m : Rat) - q / 2 ^ u| ≤ 1 / 2
  even : |(m : Rat) - q / 2 ^ u| = 1 / 2 → m % 2 = 0
  lowest : -1074 ≤ u
  bits : q / 2 ^ u < 2 ^ 53
  normal : -1074 < u → 2 ^ 52 ≤ q / 2 ^ u

/-- R138: a positive number rounds to the nearest multiple of its last place, or to infinity. -/
theorem round64_of_pos {q : Rat} (hq : 0 < q) : ∃ m u, RoundedAt q m u ∧
    round64 q = if 2 ^ 1024 ≤ (m : Rat) * 2 ^ u then .posInf else .finite (m * 2 ^ u) := by
  have hfrac : (q.num.natAbs : Rat) / q.den = q := by
    conv_rhs => rw [← Rat.num_div_den q]
    congr 1
    rw [← Int.cast_natCast, Int.natAbs_of_nonneg (Rat.num_nonneg.2 hq.le)]
  obtain ⟨m, u, hr, hnear, heven, hlow, hbits, hnormal⟩ :=
    roundMagnitude_spec (Int.natAbs_pos.2 (Rat.num_ne_zero.2 hq.ne')) q.den_pos
  rw [hfrac] at hnear heven hbits hnormal
  refine ⟨m, u, ⟨hnear, heven, hlow, hbits, hnormal⟩, ?_⟩
  simp only [round64, hr, if_neg hq.ne', if_neg hq.not_gt, Nat.cast_pow, Nat.cast_ofNat]

@[simp] theorem round64_zero : round64 0 = .finite 0 := by simp [round64]

theorem round64_neg (q : Rat) : round64 (-q) = neg64 (round64 q) := by
  rcases eq_or_ne q 0 with rfl | hne
  · simp [neg64]
  · rcases hne.lt_or_gt with h | h <;>
      · simp only [round64, Rat.num_neg_eq_neg_num, Int.natAbs_neg, Rat.den_neg_eq_den, neg_eq_zero, hne, if_false, h,
          if_true, neg_lt_zero, h.not_gt]
        split <;> simp [neg64]

/-- A binary64 number is a multiple of `2^u`, or too small to have `u` as its last place. -/
theorem IsBinary64.multiple_or_small {b : Rat} (hb : IsBinary64 b) {u : Int} (hu : -1074 ≤ u) :
    (∃ k : Int, b / 2 ^ u = k) ∨ (-1074 < u ∧ b / 2 ^ u < 2 ^ 52) := by
  obtain ⟨k, e, hk, he, -, rfl⟩ := hb
  rw [mul_div_assoc, ← zpow_sub₀ two_ne_zero]
  rcases le_or_gt u e with hue | hue
  · obtain ⟨n, hn⟩ : ∃ n : Nat, e - u = n := ⟨(e - u).toNat, by omega⟩
    rw [hn, zpow_natCast]
    exact .inl ⟨k * 2 ^ n, by push_cast; rfl⟩
  · refine .inr ⟨by omega, ?_⟩
    have hkq : (k : Rat) < 2 ^ 53 := by exact_mod_cast (abs_lt.1 hk).2
    have hhalf : (2 : Rat) ^ (e - u) ≤ 1 / 2 :=
      calc (2 : Rat) ^ (e - u) ≤ 2 ^ (-1 : Int) := zpow_le_zpow_right₀ one_le_two (by omega)
        _ = 1 / 2 := by norm_num
    have hpos : (0 : Rat) < 2 ^ (e - u) := zpow_pos two_pos _
    nlinarith

/-- R138: no binary64 number is nearer to `q` than the rounded one, and one as near is its neighbour. -/
theorem RoundedAt.nearest {q : Rat} {m : Nat} {u : Int} (h : RoundedAt q m u) {b : Rat} (hb : IsBinary64 b) :
    |(m : Rat) - q / 2 ^ u| ≤ |b / 2 ^ u - q / 2 ^ u| ∧
      (b / 2 ^ u ≠ m → |b / 2 ^ u - q / 2 ^ u| = |(m : Rat) - q / 2 ^ u| → |b / 2 ^ u - m| = 1 ∧ m % 2 = 0) := by
  have hint := nearest_int (m := m) (by rw [Int.cast_natCast]; exact h.near)
  simp only [Int.cast_natCast] at hint
  rcases IsBinary64.multiple_or_small hb h.lowest with ⟨k, hk⟩ | ⟨hu, hsmall⟩
  · obtain ⟨hle, htie⟩ := hint k
    rw [hk]
    refine ⟨hle, fun hne he => ?_⟩
    obtain ⟨hone, hhalf⟩ := htie (by exact_mod_cast hne) he
    exact ⟨hone, h.even hhalf⟩
  · have hfar : |((2 ^ 52 : Int) : Rat) - q / 2 ^ u| < |b / 2 ^ u - q / 2 ^ u| := by
      have hx := h.normal hu
      push_cast
      rw [abs_of_nonpos (by linarith), abs_of_nonpos (by linarith)]
      linarith
    have hlt := (hint (2 ^ 52)).1.trans_lt hfar
    exact ⟨hlt.le, fun _ he => absurd he hlt.ne'⟩

/-- R138: the bound of the finite range, the bound from which numbers round to an infinity, and the last places about
`2^971`, the greatest of a finite number, all in units of one power of two `P`. -/
theorem exists_overflow_unit : ∃ P : Rat, 1 ≤ P ∧ (2 : Rat) ^ 1024 = 2 ^ 54 * P
    ∧ (2 : Rat) ^ 1024 - 2 ^ 970 = (2 ^ 54 - 1) * P ∧ (∀ u : Int, u < 971 → (2 : Rat) ^ u ≤ P)
    ∧ (2 : Rat) ^ (971 : Int) = 2 * P ∧ ∀ u : Int, 971 < u → 4 * P ≤ (2 : Rat) ^ u := by
  have htop : (2 : Rat) ^ 1024 = 2 ^ 54 * 2 ^ (970 : Int) := pow_add 2 54 970
  have hunit : (2 : Rat) ^ 970 = 2 ^ (970 : Int) := rfl
  have h971 : (2 : Rat) ^ (971 : Int) = 2 * 2 ^ (970 : Int) := zpow_one_add₀ two_ne_zero 970
  have h972 : (2 : Rat) ^ (972 : Int) = 2 ^ (2 : Int) * 2 ^ (970 : Int) := zpow_add₀ two_ne_zero 2 970
  refine ⟨2 ^ (970 : Int), one_le_zpow₀ one_le_two (by decide), htop, by rw [htop, hunit, sub_one_mul],
    fun u hu => zpow_le_zpow_right₀ one_le_two (Int.le_of_lt_add_one hu), h971, fun u hu => ?_⟩
  have h4 : (4 : Rat) = 2 ^ (2 : Int) := by norm_num
  rw [h4, ← h972]
  exact zpow_le_zpow_right₀ one_le_two (Int.add_one_le_of_lt hu)

section overflow
variable {q : Rat} {m : Nat} {u : Int} (h : RoundedAt q m u)
include h

/-- R138: below half a last place above the greatest finite number, the rounded one is finite. -/
theorem RoundedAt.lt_of_lt (hq : q < 2 ^ 1024 - 2 ^ 970) : (m : Rat) * 2 ^ u < 2 ^ 1024 := by
  obtain ⟨P, hP, htop, hbound, hbelow, h971, habove⟩ := exists_overflow_unit
  have hp : (0 : Rat) < 2 ^ u := zpow_pos two_pos u
  have hx : q / 2 ^ u * 2 ^ u = q := div_mul_cancel₀ _ hp.ne'
  have hm : (m : Rat) ≤ q / 2 ^ u + 1 / 2 := by linarith only [(abs_le.1 h.near).2]
  have hbits := h.bits
  rw [hbound] at hq
  rw [htop]
  clear htop hbound
  rcases lt_trichotomy u 971 with hu | rfl | hu
  · calc (m : Rat) * 2 ^ u ≤ (2 ^ 53 + 1 / 2) * P :=
          mul_le_mul (by linarith only [hm, hbits]) (hbelow u hu) hp.le (by norm_num)
      _ < 2 ^ 54 * P := by linarith only [hP]
  · rw [h971] at hx hm ⊢
    have : (m : Rat) * (2 * P) ≤ (q / (2 * P) + 1 / 2) * (2 * P) := mul_le_mul_of_nonneg_right hm (by linarith only [hP])
    linarith only [this, hx, hq]
  · have : (2 : Rat) ^ 52 * 2 ^ u ≤ q / 2 ^ u * 2 ^ u := mul_le_mul_of_nonneg_right (h.normal (by omega)) hp.le
    linarith only [this, hx, hq, habove u hu, hP]

/-- R138: from half a last place above the greatest finite number on, the rounded one is beyond the finite range. -/
theorem RoundedAt.le_of_le (hq : 2 ^ 1024 - 2 ^ 970 ≤ q) : 2 ^ 1024 ≤ (m : Rat) * 2 ^ u := by
  obtain ⟨P, hP, htop, hbound, hbelow, h971, habove⟩ := exists_overflow_unit
  have hp : (0 : Rat) < 2 ^ u := zpow_pos two_pos u
  have hx : q / 2 ^ u * 2 ^ u = q := div_mul_cancel₀ _ hp.ne'
  have hm : q / 2 ^ u - 1 / 2 ≤ m := by linarith only [(abs_le.1 h.near).1]
  rw [hbound] at hq
  rw [htop]
  clear htop hbound
  rcases lt_trichotomy u 971 with hu | rfl | hu
  · have : q / 2 ^ u * 2 ^ u ≤ 2 ^ 53 * P := mul_le_mul h.bits.le (hbelow u hu) hp.le (by norm_num)
    linarith only [this, hx, hq, hP]
  · rw [h971] at hx
    have hx53 : 2 ^ 53 - 1 / 2 ≤ q / 2 ^ (971 : Int) := by
      rw [h971, le_div_iff₀ (by linarith only [hP])]
      linarith only [hq]
    have hge : 2 ^ 53 - 1 ≤ m := by
      have : ((2 ^ 53 - 1 : Nat) : Rat) ≤ m := by push_cast; linarith only [hm, hx53]
      exact_mod_cast this
    have hne : m ≠ 2 ^ 53 - 1 := fun he => by
      have hmq : (m : Rat) = 2 ^ 53 - 1 := by rw [he]; norm_num
      have hhalf : (1 : Rat) / 2 ≤ |(m : Rat) - q / 2 ^ (971 : Int)| := by
        refine le_trans ?_ (neg_le_abs _)
        linarith only [hx53, hmq]
      have := h.even (le_antisymm h.near hhalf)
      omega
    have hm53 : (2 : Rat) ^ 53 ≤ m := by exact_mod_cast (by omega : 2 ^ 53 ≤ m)
    rw [h971]
    calc (2 : Rat) ^ 54 * P = 2 ^ 53 * (2 * P) := by ring
      _ ≤ m * (2 * P) := mul_le_mul_of_nonneg_right hm53 (by linarith only [hP])
  · have hm52 : (2 : Rat) ^ 52 ≤ m := by
      have hlt : ((2 ^ 52 : Nat) : Rat) < (m + 1 : Nat) := by push_cast; linarith only [hm, h.normal (by omega)]
      exact_mod_cast Nat.lt_succ_iff.1 (Nat.cast_lt.1 hlt)
    calc (2 : Rat) ^ 54 * P = 2 ^ 52 * (4 * P) := by ring
      _ ≤ (m : Rat) * 2 ^ u := mul_le_mul hm52 (habove u hu) (by linarith only [hP]) (Nat.cast_nonneg m)

end overflow

/-- R138: `r` is a binary64 number to which `q` may round: no other is nearer, and of two as near, which are `2^e` apart, it
is the even multiple of `2^e`. -/
def NearestBinary64 (q r : Rat) : Prop :=
  IsBinary64 r ∧ ∀ b, IsBinary64 b → |r - q| ≤ |b - q| ∧
    (b ≠ r → |b - q| = |r - q| → ∃ k e : Int, |b - r| = (2 : Rat) ^ e ∧ r = 2 * k * (2 : Rat) ^ e)

theorem nearestBinary64_zero : NearestBinary64 0 0 :=
  ⟨isBinary64_zero, fun b _ => ⟨by simp, fun hne he => absurd (by simpa using he) hne⟩⟩

theorem NearestBinary64.neg {q r : Rat} (h : NearestBinary64 q r) : NearestBinary64 (-q) (-r) := by
  obtain ⟨hr, hnear⟩ := h
  have hflip : ∀ a c : Rat, |(-a) - -c| = |a - c| := fun a c => by rw [neg_sub_neg, abs_sub_comm]
  refine ⟨IsBinary64.neg hr, fun b hb => ?_⟩
  obtain ⟨hle, htie⟩ := hnear (-b) (IsBinary64.neg hb)
  rw [← hflip r q, ← hflip (-b) q, neg_neg] at hle htie
  refine ⟨hle, fun hne he => ?_⟩
  obtain ⟨k, e, hgap, heven⟩ := htie (fun h => hne (by rw [← h, neg_neg])) he
  refine ⟨-k, e, ?_, by rw [heven]; push_cast; ring⟩
  rw [← hgap, ← hflip (-b) r, neg_neg]

/-- R138: the rounded number in units of `1`. -/
theorem RoundedAt.nearestBinary64 {q : Rat} {m : Nat} {u : Int} (h : RoundedAt q m u)
    (hm : IsBinary64 (m * (2 : Rat) ^ u)) : NearestBinary64 q (m * 2 ^ u) := by
  have hp : (0 : Rat) < 2 ^ u := zpow_pos two_pos u
  have hscale : ∀ a c : Rat, |a - c| = |a / 2 ^ u - c / 2 ^ u| * 2 ^ u := fun a c => by
    rw [← sub_div, abs_div, abs_of_pos hp, div_mul_cancel₀ _ hp.ne']
  refine ⟨hm, fun b hb => ?_⟩
  obtain ⟨hle, htie⟩ := h.nearest hb
  rw [hscale b q, hscale _ q, hscale b, mul_div_cancel_right₀ _ hp.ne']
  refine ⟨mul_le_mul_of_nonneg_right hle hp.le, fun hne he => ?_⟩
  obtain ⟨hone, heven⟩ := htie (fun hb => hne ((div_eq_iff hp.ne').1 hb)) (mul_right_cancel₀ hp.ne' he)
  obtain ⟨k, rfl⟩ := Nat.dvd_of_mod_eq_zero heven
  exact ⟨k, u, by rw [hone, one_mul], by push_cast; ring⟩

theorem round64_nearest_of_pos {q : Rat} (hq : 0 < q) (h : q < 2 ^ 1024 - 2 ^ 970) :
    ∃ r, round64 q = .finite r ∧ NearestBinary64 q r := by
  obtain ⟨m, u, hat, he⟩ := round64_of_pos hq
  rw [if_neg (hat.lt_of_lt h).not_ge] at he
  exact ⟨_, he, hat.nearestBinary64 (round64_isBinary64 he)⟩

theorem round64_nearest {q : Rat} (h : |q| < 2 ^ 1024 - 2 ^ 970) : ∃ r, round64 q = .finite r ∧ NearestBinary64 q r := by
  rcases lt_trichotomy q 0 with hq | rfl | hq
  · rw [abs_of_neg hq] at h
    obtain ⟨r, he, hr⟩ := round64_nearest_of_pos (neg_pos.2 hq) h
    refine ⟨-r, ?_, neg_neg q ▸ hr.neg⟩
    rw [← neg_neg q, round64_neg, he, neg64]
  · exact ⟨0, round64_zero, nearestBinary64_zero⟩
  · exact round64_nearest_of_pos hq (abs_of_pos hq ▸ h)

theorem one_lt_overflow_bound : (1 : Rat) < 2 ^ 1024 - 2 ^ 970 := by
  obtain ⟨P, hP, -, hbound, -⟩ := exists_overflow_unit
  rw [hbound]
  linarith only [hP]

theorem round64_posInf {q : Rat} (h : 2 ^ 1024 - 2 ^ 970 ≤ q) : round64 q = .posInf := by
  obtain ⟨m, u, hat, he⟩ := round64_of_pos (one_pos.trans (one_lt_overflow_bound.trans_le h))
  rw [he, if_pos (hat.le_of_le h)]

theorem round64_negInf {q : Rat} (h : q ≤ -(2 ^ 1024 - 2 ^ 970)) : round64 q = .negInf := by
  rw [← neg_neg q, round64_neg, round64_posInf (le_neg_of_le_neg h), neg64]

theorem round64_finite_of_abs_le_one {q : Rat} (h : |q| ≤ 1) : ∃ r, round64 q = .finite r := by
  obtain ⟨r, hr, -⟩ := round64_nearest (h.trans_lt one_lt_overflow_bound)
  exact ⟨r, hr⟩

end Sys2Proof

namespace Sys2Proof.Machine

/-- Settles O29: inside the finite range `round64_nearest`, beyond it the infinity of the sign. -/
theorem binaryRoundingIsNearest : Obligations.BinaryRoundingIsNearest :=
  fun _ => ⟨round64_nearest, round64_posInf, round64_negInf⟩

end Sys2Proof.Machine
end

section
/-! PROOFS. The statements of 42_color_pipeline.md about the five colour operations: their values under `EXACT` (R123 to
R135), where there is no chromaticity and no colour temperature (R126, R136, R137), the tolerance in the other domains (R127,
R137), and what `BINARY64` computes and delivers (R138). -/

namespace Sys2Proof

open Machine

/-! ### The transfer function (R130) -/

theorem gammaT_eq : gammaT = 0.0031308 := by norm_num [gammaT]

theorem linearToSRGBExact_of_le (p : ColourParams) {c : Rat} (h : c ≤ 0.0031308) : linearToSRGBExact p c = 12.92 * c := by
  rw [linearToSRGBExact, gammaT_eq, if_pos h]
  norm_num [gammaA]

theorem linearToSRGBExact_of_lt (p : ColourParams) {c : Rat} (h : 0.0031308 < c) :
    linearToSRGBExact p c = 1.055 * p.pow24 c - 0.055 := by
  rw [linearToSRGBExact, gammaT_eq, if_neg h.not_ge]
  norm_num [gammaB, gammaC]

/-- R130: the two branches determine the transfer function. -/
theorem linearToSRGBExact_eq {p : ColourParams} {f : Rat → Rat} (hl : ∀ q : Rat, q ≤ 0.0031308 → f q = 12.92 * q)
    (hp : ∀ q : Rat, 0.0031308 < q → f q = 1.055 * p.pow24 q - 0.055) : linearToSRGBExact p = f := by
  funext q
  rcases le_or_gt q 0.0031308 with h | h
  · rw [linearToSRGBExact_of_le p h, hl q h]
  · rw [linearToSRGBExact_of_lt p h, hp q h]

theorem linearToSRGB_exact {p : ColourParams} (h : p.num = .exact) (c : Rat) :
    p.linearToSRGB c = linearToSRGBExact p c := by
  simp only [ColourParams.linearToSRGB, h]

theorem xyzToRGB_exact {p : ColourParams} (h : p.num = .exact) (g : Chroma) : p.xyzToRGB g = xyzToRGBExact p g := by
  simp only [ColourParams.xyzToRGB, h]

/-! ### Raw counts to XYZ under `EXACT` (R123 to R126) -/

theorem rawToXYZ_exact {p : ColourParams} (h : p.num = .exact) (cs : ChannelSet) :
    p.rawToXYZ cs = rawToXYZExact p.mCal cs.values := by
  simp only [ColourParams.rawToXYZ, h]

theorem chromaOf_eq_none_iff {X Y Z : Rat} : chromaOf X Y Z = none ↔ X + Y + Z = 0 := by
  unfold chromaOf
  split <;> simp_all

/-- R121: the value of a channel as the number of R120. -/
theorem RawChannel.cast_value (ch : RawChannel) : (ch.value.toNat : Rat) = RawChannelNumber ch := by
  rw [RawChannel.toNat_value, RawChannelNumber]
  push_cast
  rfl

/-- R125: under `M_CAL_GK` the sum is a combination of the first three channels with positive weights. -/
theorem mCalGK_sum (v : Row4) :
    (rawToXYZExact mCalGK v).X + (rawToXYZExact mCalGK v).Y + (rawToXYZExact mCalGK v).Z
      = 2280089214 / 10 ^ 13 * v.c0 + 2238201346 / 10 ^ 13 * v.c1 + 7499095051 / 10 ^ 13 * v.c2 := by
  simp only [rawToXYZExact, Mat4.rowTimes, mCalGK]
  ring

/-! ### The colour temperature and where there is one (R135, R136) -/

theorem cctXe_eq : cctXe = 0.3320 := by norm_num [cctXe]

theorem cctYe_eq : cctYe = 0.1858 := by norm_num [cctYe]

theorem xyzToCCTExact_of_ne {g : Chroma} (h : g.y ≠ 0.1858) : xyzToCCTExact g = some (CCTNumber g) := by
  rw [xyzToCCTExact, cctXe_eq, cctYe_eq, if_neg (sub_ne_zero.2 h.symm)]
  simp only [cctPoly, CCTNumber, cctK0, cctK1, cctK2, cctK3]
  congr 1
  ring

theorem xyzToCCTExact_of_line {g : Chroma} (h : g.y = 0.1858) : xyzToCCTExact g = none := by
  rw [xyzToCCTExact, cctYe_eq, h, sub_self, if_pos rfl]

theorem xyzToCCTExact_eq_some_iff {g : Chroma} {e : Rat} :
    xyzToCCTExact g = some e ↔ g.y ≠ 0.1858 ∧ e = CCTNumber g := by
  rcases eq_or_ne g.y 0.1858 with h | h
  · simp [xyzToCCTExact_of_line h, h]
  · simp [xyzToCCTExact_of_ne h, h, eq_comm]

/-- R138: on the line the rounded denominator is zero too. -/
theorem cctDen64_of_line {g : Chroma} (h : g.y = 0.1858) : CCTDen64 g = .finite 0 := by
  obtain ⟨r, hr⟩ := round64_finite_of_abs_le_one (q := 0.1858) (by norm_num)
  simp [CCTDen64, h, hr, sub64, neg64, add64]

theorem xyzToCCT64_eq (g : Chroma) :
    xyzToCCT64 g = if CCTDen64 g = .finite 0 then none else (CCT64 g).number := by
  have hden : cctDen64 g = CCTDen64 g := by rw [cctDen64, CCTDen64, cctYe_eq]
  rw [xyzToCCT64, hden, cctXe_eq]
  rfl

theorem number_eq_some_iff {x : Binary64} {q : Rat} : x.number = some q ↔ x = .finite q := by
  cases x <;> simp [Binary64.number]

/-- R136, R138: what `BINARY64` computes. -/
theorem xyzToCCT64_eq_some_iff {g : Chroma} {q : Rat} :
    xyzToCCT64 g = some q ↔ CCTDen64 g ≠ .finite 0 ∧ CCT64 g = .finite q := by
  rw [xyzToCCT64_eq]
  split <;> simp_all [number_eq_some_iff]

theorem hasCCT_binary64 {g : Chroma} : HasCCT .binary64 g ↔ ∃ q, xyzToCCT64 g = some q := by
  simp [HasCCT, xyzToCCT64_eq_some_iff]

theorem hasCCT_of_ne_binary64 {num : NumDomain} (h : num ≠ .binary64) {g : Chroma} : HasCCT num g ↔ g.y ≠ 0.1858 := by
  simp [HasCCT, h]

/-- R136: on the line there is no temperature in any domain. -/
theorem y_ne_of_hasCCT {num : NumDomain} {g : Chroma} (h : HasCCT num g) : g.y ≠ 0.1858 := by
  obtain ⟨-, hden, -⟩ | ⟨-, hy⟩ := h
  · exact fun hy => hden (cctDen64_of_line hy)
  · exact hy

theorem xyzToCCT_exact {p : ColourParams} (h : p.num = .exact) (g : Chroma) : p.xyzToCCT g = xyzToCCTExact g := by
  simp only [ColourParams.xyzToCCT, h]

/-- R135, R138: the temperature `BINARY64` delivers, given what it computes. -/
theorem xyzToCCT_binary64 {p : ColourParams} (hp : p.num = .binary64) {g : Chroma} {t : Rat}
    (ht : xyzToCCT64 g = some t) :
    p.xyzToCCT g = some (p.oneNumber (nearE2E (CCTNumber g)) (some t) (Config.freeNum p 8 [g.x, g.y] 0) (CCTNumber g)) := by
  have he := xyzToCCTExact_of_ne (y_ne_of_hasCCT (hasCCT_binary64.2 ⟨t, ht⟩))
  simp only [ColourParams.xyzToCCT, hp, ht, he]

/-- R136: a temperature is delivered exactly where there is one. -/
theorem xyzToCCT_isSome_iff (p : ColourParams) (g : Chroma) : (p.xyzToCCT g).isSome = true ↔ HasCCT p.num g := by
  cases hp : p.num with
  | exact =>
    rw [xyzToCCT_exact hp, hasCCT_of_ne_binary64 (num := .exact) nofun, Option.isSome_iff_exists]
    simp [xyzToCCTExact_eq_some_iff]
  | binary64 =>
    cases ht : xyzToCCT64 g with
    | none => simp [ColourParams.xyzToCCT, hp, ht, hasCCT_binary64]
    | some t => simp [xyzToCCT_binary64 hp ht, hasCCT_binary64, ht]
  | fixed f =>
    rw [hasCCT_of_ne_binary64 (num := .fixed f) nofun]
    simp only [ColourParams.xyzToCCT, hp, Option.isSome_map, Option.isSome_iff_exists, xyzToCCTExact_eq_some_iff]
    simp

theorem xyzToCCT_eq_none {p : ColourParams} {g : Chroma} (h : ¬ HasCCT p.num g) : p.xyzToCCT g = none := by
  rwa [← xyzToCCT_isSome_iff, Option.not_isSome_iff_eq_none] at h

/-- R135: in no domain does `z` enter. -/
theorem xyzToCCT_congr (p : ColourParams) {g g' : Chroma} (hx : g.x = g'.x) (hy : g.y = g'.y) :
    p.xyzToCCT g = p.xyzToCCT g' := by
  have hden : cctDen64 g = cctDen64 g' := by rw [cctDen64, cctDen64, hy]
  have h64 : xyzToCCT64 g = xyzToCCT64 g' := by rw [xyzToCCT64, xyzToCCT64, hden, hx]
  have hexact : xyzToCCTExact g = xyzToCCTExact g' := by simp only [xyzToCCTExact, hx, hy]
  simp only [ColourParams.xyzToCCT, h64, hexact, hx, hy]

/-! ### The tolerance over the reals (R137) -/

theorem withinE2E_cast {q e : Rat} : WithinE2E q e ↔ nearE2E e q = true := by
  rw [nearE2E_iff, WithinE2E]
  exact_mod_cast Iff.rfl

theorem withinE2E_srgb_iff {f : Rat → ℝ} (hf : IsSRGB f) (c q : Rat) : WithinE2E q (f c) ↔ srgbNear c q = true :=
  (srgbNear_iff f hf.1 hf.2 c q).symm

theorem rgbWithin_iff {f : Rat → ℝ} (hf : IsSRGB f) (p : ColourParams) (g : Chroma) (t : RGBColor) :
    RGBWithin f p.mRgb g t ↔ p.rgbNear g t = true := by
  simp only [RGBWithin, withinE2E_srgb_iff hf, ColourParams.rgbNear, Bool.and_eq_true, and_assoc]
  rfl

theorem cctNear_some {g : Chroma} {q : Rat} : cctNear g (some q) = true ↔ g.y ≠ 0.1858 ∧ WithinE2E q (CCTNumber g) := by
  rcases eq_or_ne g.y 0.1858 with h | h
  · simp [cctNear, xyzToCCTExact_of_line h, h]
  · simp [cctNear, xyzToCCTExact_of_ne h, h, withinE2E_cast]

/-- R127. -/
theorem chromaConforms_sum {p : ColourParams} {exact : Option Chroma} {t : Chroma} (h : p.chromaConforms exact t = true) :
    |t.x + t.y + t.z - 1| ≤ 1 / 10 ^ 9 := by
  simp only [ColourParams.chromaConforms, Bool.and_eq_true, decide_eq_true_eq] at h
  refine h.1.trans_eq ?_
  norm_num [tolSum]

/-- R137: the coordinates, and the numbers of the two later operations. -/
theorem chromaConforms_near {p : ColourParams} {g t : Chroma} (h : p.chromaConforms (some g) t = true) :
    (nearE2E g.x t.x = true ∧ nearE2E g.y t.y = true ∧ nearE2E g.z t.z = true)
      ∧ p.rgbNear g (p.xyzToRGB t) = true ∧ cctNear g (p.xyzToCCT t) = true := by
  simp only [ColourParams.chromaConforms, Bool.and_eq_true] at h
  tauto

theorem rawToXYZ_binary64 {p : ColourParams} (hp : p.num = .binary64) (cs : ChannelSet) :
    p.rawToXYZ cs = p.xyzConforming (p.mCal.column64 cs.values) (fun X Y Z => sum64 X Y Z == .finite 0) quotients64 cs.values := by
  simp only [ColourParams.rawToXYZ, hp]

theorem rawToXYZ_fixed {p : ColourParams} {f : FixedFormats} (hp : p.num = .fixed f) (cs : ChannelSet) :
    p.rawToXYZ cs = p.xyzConforming (fun _ => none) (fun X Y Z => X + Y + Z == 0) (fun _ _ _ => none) cs.values := by
  simp only [ColourParams.rawToXYZ, hp]

/-- R126: no chromaticity where the sum of the delivered numbers is zero, as the domain computes it. -/
theorem rawToXYZ_chroma_eq_none_iff (p : ColourParams) (cs : ChannelSet) :
    (p.num ≠ .binary64 → ((p.rawToXYZ cs).chroma = none
      ↔ (p.rawToXYZ cs).X + (p.rawToXYZ cs).Y + (p.rawToXYZ cs).Z = 0)) ∧
    (p.num = .binary64 → ((p.rawToXYZ cs).chroma = none
      ↔ sum64 (p.rawToXYZ cs).X (p.rawToXYZ cs).Y (p.rawToXYZ cs).Z = .finite 0)) := by
  cases hp : p.num with
  | exact =>
    rw [rawToXYZ_exact hp]
    exact ⟨fun _ => chromaOf_eq_none_iff, nofun⟩
  | binary64 =>
    obtain ⟨-, hnone, -⟩ := xyzConforming_spec p (by simp [hp]) _ _ _ _ _ _ (rawToXYZ_binary64 hp cs) rfl
    exact ⟨fun h => absurd rfl h, fun _ => by rw [hnone, beq_iff_eq]⟩
  | fixed f =>
    obtain ⟨-, hnone, -⟩ := xyzConforming_spec p (by simp [hp]) _ _ _ _ _ _ (rawToXYZ_fixed hp cs) rfl
    exact ⟨fun _ => by rw [hnone, beq_iff_eq], nofun⟩

/-! ### What `BINARY64` computes and delivers (R138) -/

/-- R130, R138: the transfer function of a finite number, step by step. -/
theorem linearToSRGB64_finite {p : ColourParams} {t : Rat → Binary64}
    (ht : ∀ x T, round64 0.0031308 = .finite T → t x = if x ≤ T then mul64 (round64 12.92) (.finite x)
      else sub64 (mul64 (round64 1.055) (round64 (p.pow24 x))) (round64 0.055)) (x : Rat) :
    linearToSRGB64 p (.finite x) = t x := by
  obtain ⟨T, hT⟩ := round64_finite_of_abs_le_one (q := 0.0031308) (by norm_num)
  have hA : gammaA = 12.92 := by norm_num [gammaA]
  have hB : gammaB = 1.055 := by norm_num [gammaB]
  have hC : gammaC = 0.055 := by norm_num [gammaC]
  simp only [linearToSRGB64, gammaT_eq, hA, hB, hC, hT, le64, decide_eq_true_eq, ColourParams.pow64, ht x T hT]

section binary64
variable {p : ColourParams} (hp : p.num = .binary64)
include hp

theorem linearToSRGB_own {c q : Rat} (h : linearToSRGB64 p (round64 c) = .finite q) (hq : srgbNear c q = true) :
    p.linearToSRGB c = q := by
  simp only [ColourParams.linearToSRGB, hp, h, Binary64.number]
  exact oneNumber_own hp hq

theorem linearToSRGB_isBinary64 {c : Rat} (h : ∃ b, IsBinary64 b ∧ srgbNear c b = true) :
    IsBinary64 (p.linearToSRGB c) := by
  simp only [ColourParams.linearToSRGB, hp]
  exact oneNumber_isBinary64 hp (linearToSRGB64_is64 p _) h

theorem xyzToRGB_own {g : Chroma} {q1 q2 q3 : Rat} (h1 : linearToSRGB64 p (RowDot64 p.mRgb.r0 g) = .finite q1)
    (h2 : linearToSRGB64 p (RowDot64 p.mRgb.r1 g) = .finite q2) (h3 : linearToSRGB64 p (RowDot64 p.mRgb.r2 g) = .finite q3)
    (hn : p.rgbNear g ⟨q1, q2, q3⟩ = true) : p.xyzToRGB g = ⟨q1, q2, q3⟩ := by
  simp only [ColourParams.rgbNear, Bool.and_eq_true] at hn
  obtain ⟨⟨n1, n2⟩, n3⟩ := hn
  have hrow : ∀ {r : Row3} {q : Rat} (k : Nat), linearToSRGB64 p (RowDot64 r g) = .finite q → srgbNear (r.dot g) q = true →
      p.oneNumber (srgbNear (r.dot g)) (linearToSRGB64 p (r.dot64 g)).number (Config.freeNum p 6 [g.x, g.y, g.z] k)
        (srgbReference (r.dot g)) = q := fun k h n => by
    rw [show Row3.dot64 = RowDot64 from rfl, h]
    exact oneNumber_own hp n
  simp only [ColourParams.xyzToRGB, hp, ColourParams.rgbConforming, hrow _ h1 n1, hrow _ h2 n2, hrow _ h3 n3]

theorem xyzToRGB_isBinary64 (g : Chroma) :
    ((∃ b, IsBinary64 b ∧ srgbNear (RowDot p.mRgb.r0 g) b = true) → IsBinary64 (p.xyzToRGB g).r) ∧
    ((∃ b, IsBinary64 b ∧ srgbNear (RowDot p.mRgb.r1 g) b = true) → IsBinary64 (p.xyzToRGB g).g) ∧
    ((∃ b, IsBinary64 b ∧ srgbNear (RowDot p.mRgb.r2 g) b = true) → IsBinary64 (p.xyzToRGB g).b) := by
  simp only [ColourParams.xyzToRGB, hp]
  exact ⟨oneNumber_isBinary64 hp (linearToSRGB64_is64 p _), oneNumber_isBinary64 hp (linearToSRGB64_is64 p _),
    oneNumber_isBinary64 hp (linearToSRGB64_is64 p _)⟩

theorem xyzToCCT_own {g : Chroma} {q : Rat} (hq : xyzToCCT64 g = some q) (hn : nearE2E (CCTNumber g) q = true) :
    p.xyzToCCT g = some q := by
  rw [xyzToCCT_binary64 hp hq, oneNumber_own hp hn]

theorem xyzToCCT_isBinary64 {g : Chroma} {q : Rat} (hq : p.xyzToCCT g = some q)
    (h : ∃ b, IsBinary64 b ∧ nearE2E (CCTNumber g) b = true) : IsBinary64 q := by
  obtain ⟨t, ht⟩ := hasCCT_binary64.1 (hp ▸ (xyzToCCT_isSome_iff p g).1 (by rw [hq]; rfl))
  rw [xyzToCCT_binary64 hp ht] at hq
  obtain rfl := Option.some.inj hq
  refine oneNumber_isBinary64 hp (fun a ha => ?_) h
  obtain rfl := Option.some.inj ha
  exact xyzToCCT64_isBinary64 ht

theorem rawToXYZ_numbers_isBinary64 (cs : ChannelSet) {e : XYZColor} (he : e = rawToXYZExact p.mCal cs.values) :
    ((∃ b, IsBinary64 b ∧ nearE2E e.X b = true) → IsBinary64 (p.rawToXYZ cs).X) ∧
    ((∃ b, IsBinary64 b ∧ nearE2E e.Y b = true) → IsBinary64 (p.rawToXYZ cs).Y) ∧
    ((∃ b, IsBinary64 b ∧ nearE2E e.Z b = true) → IsBinary64 (p.rawToXYZ cs).Z) ∧
    ((∃ b, IsBinary64 b ∧ nearE2E e.l b = true) → IsBinary64 (p.rawToXYZ cs).l) := by
  subst he
  rw [rawToXYZ_binary64 hp]
  have hcol : ∀ k a, p.mCal.column64 cs.values k = some a → IsBinary64 a := fun _ _ => column64_isBinary64
  exact ⟨oneNumber_isBinary64 hp (hcol 0), oneNumber_isBinary64 hp (hcol 1), oneNumber_isBinary64 hp (hcol 2),
    oneNumber_isBinary64 hp (hcol 3)⟩

theorem rawToXYZ_chroma_isBinary64 {cs : ChannelSet} {t : Chroma} (ht : (p.rawToXYZ cs).chroma = some t)
    (h : ∃ b, ChromaIsBinary64 b ∧ p.chromaConforms (rawToXYZExact p.mCal cs.values).chroma b = true) :
    ChromaIsBinary64 t := by
  rw [rawToXYZ_binary64 hp] at ht
  simp only [ColourParams.xyzConforming] at ht
  split at ht
  · cases ht
  · obtain rfl := Option.some.inj ht
    exact oneChroma_isBinary64 hp (fun _ => quotients64_isBinary64) h

/-- R123, R126, R138: the four sums are delivered when they conform, and so are the quotients where the rounded sum is not
zero. -/
theorem rawToXYZ_own {cs : ChannelSet} {e : XYZColor} (he : e = rawToXYZExact p.mCal cs.values) {X Y Z l : Rat}
    (hX : p.mCal.column64 cs.values 0 = some X) (hY : p.mCal.column64 cs.values 1 = some Y)
    (hZ : p.mCal.column64 cs.values 2 = some Z) (hl : p.mCal.column64 cs.values 3 = some l)
    (nX : nearE2E e.X X = true) (nY : nearE2E e.Y Y = true) (nZ : nearE2E e.Z Z = true) (nl : nearE2E e.l l = true) :
    (sum64 X Y Z = .finite 0 → p.rawToXYZ cs = ⟨X, Y, Z, l, none⟩) ∧
    (∀ t, sum64 X Y Z ≠ .finite 0 → quotients64 X Y Z = some t → p.chromaConforms e.chroma t = true →
      p.rawToXYZ cs = ⟨X, Y, Z, l, some t⟩) := by
  subst he
  simp only [rawToXYZ_binary64 hp, ColourParams.xyzConforming, hX, hY, hZ, hl, oneNumber_own hp nX, oneNumber_own hp nY,
    oneNumber_own hp nZ, oneNumber_own hp nl]
  refine ⟨fun hS => ?_, fun t hS ht nt => ?_⟩
  · simp only [hS, beq_self_eq_true, if_true]
  · simp only [beq_eq_false_iff_ne.2 hS, ht, oneChroma_own hp nt, Bool.false_eq_true, if_false]

end binary64

end Sys2Proof

namespace Sys2Proof.Machine

/-! ### The colour operations on an operand that denotes a value -/

theorem exec_linearToSRGB (d : Name) {o : Operand Rat} {c : Rat} {s : State} (h : evalOperand s Value.asNum o = .ok c) :
    exec (.linearToSRGB d o) s = .next (s.deliver [(d, .num (s.params.linearToSRGB c))] .ok) := by
  simp only [exec, execLinearToSRGB, h, withOperand_ok]

theorem exec_rawToXYZ (d : Name) {o : SetOperand} {cs : ChannelSet} {s : State} (h : evalSet s o = .ok cs) :
    exec (.rawToXYZ d o) s
      = .next (s.deliver [(d, .xyz (s.params.rawToXYZ cs))] (xyzStatus (s.params.rawToXYZ cs))) := by
  simp only [exec, execRawToXYZ, h, withOperand_ok]

/-- R64: the name a colour was delivered to denotes it. -/
theorem evalOperand_xyz_name (s : State) (d : Name) (c : XYZColor) (r : Status) :
    evalOperand (s.deliver [(d, .xyz c)] r) Value.asXYZ (.var d) = .ok c :=
  evalOperand_deliver_same (as := Value.asXYZ) (v := .xyz c) rfl s d r

/-- A `rawToXYZ` that ends had an operand that denotes a channel set. -/
theorem exec_rawToXYZ_next {d : Name} {o : SetOperand} {s t : State} (h : exec (.rawToXYZ d o) s = .next t) :
    ∃ cs, evalSet s o = .ok cs ∧ t = s.deliver [(d, .xyz (s.params.rawToXYZ cs))] (xyzStatus (s.params.rawToXYZ cs)) := by
  cases hcs : evalSet s o with
  | error f => simp [exec, execRawToXYZ, hcs] at h
  | ok cs => exact ⟨cs, rfl, (Host.Outcome.next.inj ((exec_rawToXYZ d hcs).symm.trans h)).symm⟩

theorem xyzStatus_none {c : XYZColor} (h : c.chroma = none) : xyzStatus c = .undefinedChromaticity := by
  simp only [xyzStatus, h]

theorem xyzStatus_some {c : XYZColor} {g : Chroma} (h : c.chroma = some g) : xyzStatus c = .ok := by
  simp only [xyzStatus, h]

theorem xyzStatus_eq_undefined_iff {c : XYZColor} : xyzStatus c = .undefinedChromaticity ↔ c.chroma = none := by
  cases h : c.chroma with
  | none => simp [xyzStatus_none h]
  | some g => simp [xyzStatus_some h]

section colour
variable {d : Name} {o : Operand XYZColor} {c : XYZColor} {s : State} (h : evalOperand s Value.asXYZ o = .ok c)
include h

theorem exec_xyzToRGB_none (hc : c.chroma = none) :
    exec (.xyzToRGB d o) s = .next (s.deliver [] .undefinedChromaticity) := by
  simp only [exec, execXyzToRGB, h, withOperand_ok, hc]

theorem exec_xyzToCCT_none (hc : c.chroma = none) :
    exec (.xyzToCCT d o) s = .next (s.deliver [] .undefinedChromaticity) := by
  simp only [exec, execXyzToCCT, h, withOperand_ok, hc]

variable {g : Chroma} (hc : c.chroma = some g)
include hc

theorem exec_xyzToRGB : exec (.xyzToRGB d o) s = .next (s.deliver [(d, .rgb (s.params.xyzToRGB g))] .ok) := by
  simp only [exec, execXyzToRGB, h, withOperand_ok, hc]

theorem exec_xyzToCCT_ok {q : Rat} (hq : s.params.xyzToCCT g = some q) :
    exec (.xyzToCCT d o) s = .next (s.deliver [(d, .num q)] .ok) := by
  simp only [exec, execXyzToCCT, h, withOperand_ok, hc, hq]

theorem exec_xyzToCCT_undefined (hq : s.params.xyzToCCT g = none) :
    exec (.xyzToCCT d o) s = .next (s.deliver [] .undefinedCCT) := by
  simp only [exec, execXyzToCCT, h, withOperand_ok, hc, hq]

/-- A number `xyzToCCT` delivered is the one of the chromaticity it read. -/
theorem xyzToCCT_of_exec {q : Rat} (he : exec (.xyzToCCT d o) s = .next (s.deliver [(d, .num q)] .ok)) :
    s.params.xyzToCCT g = some q := by
  cases hq : s.params.xyzToCCT g with
  | none =>
    have hu := congrArg State.statuses (Host.Outcome.next.inj ((exec_xyzToCCT_undefined h hc hq).symm.trans he))
    simp at hu
  | some t =>
    have hu := congrArg State.env (Host.Outcome.next.inj ((exec_xyzToCCT_ok h hc hq).symm.trans he))
    have hv := congrArg (fun e => lookup e d) hu
    simp only [deliver_env, assignAll_cons, assignAll_nil, lookup_insertAt_same] at hv
    cases hv
    rfl

/-- R137: on a chromaticity from which `xyzToRGB` delivers numbers near those of `e`. -/
theorem exec_xyzToRGB_within {f : Rat → ℝ} (hf : IsSRGB f) {e : Chroma}
    (hn : s.params.rgbNear e (s.params.xyzToRGB g) = true) :
    ∃ t, exec (.xyzToRGB d o) s = .next (s.deliver [(d, .rgb t)] .ok) ∧ RGBWithin f s.params.mRgb e t :=
  ⟨_, exec_xyzToRGB h hc, (rgbWithin_iff hf s.params.toColourParams e _).2 hn⟩

/-- R136, R137: on a chromaticity from which `xyzToCCT` delivers, if anything, a number near that of `e`. -/
theorem exec_xyzToCCT_within {e : Chroma} (hn : cctNear e (s.params.xyzToCCT g) = true) :
    (HasCCT s.params.num g → e.y ≠ 0.1858 ∧ ∃ q : Rat,
      exec (.xyzToCCT d o) s = .next (s.deliver [(d, .num q)] .ok) ∧ WithinE2E q (CCTNumber e)) ∧
    (¬ HasCCT s.params.num g → exec (.xyzToCCT d o) s = .next (s.deliver [] .undefinedCCT)) := by
  refine ⟨fun hg => ?_, fun hg => exec_xyzToCCT_undefined h hc (xyzToCCT_eq_none hg)⟩
  obtain ⟨q, hq⟩ := Option.isSome_iff_exists.1 ((xyzToCCT_isSome_iff _ _).2 hg)
  rw [hq, cctNear_some] at hn
  exact ⟨hn.1, q, exec_xyzToCCT_ok h hc hq, hn.2⟩

end colour

/-! ### The statements under `EXACT` -/

/-- Settles O17: the matrix on the channels' numbers (`cast_value`), and the two cases of `chromaOf`. -/
theorem rawToXYZExactNumbers : Obligations.RawToXYZExactNumbers := by
  rintro d o cs s v0 v1 v2 v3 X Y Z l hnum hcs rfl rfl rfl rfl hX hY hZ hl
  have hc : s.params.rawToXYZ cs = ⟨X, Y, Z, l, chromaOf X Y Z⟩ := by
    simp only [rawToXYZ_exact hnum, rawToXYZExact, Mat4.rowTimes, ChannelSet.values, RawChannel.cast_value, hX, hY, hZ, hl]
  rw [exec_rawToXYZ d hcs, hc]
  exact ⟨fun hne => by simp only [chromaOf, if_neg hne, xyzStatus], fun he => by simp only [chromaOf, if_pos he, xyzStatus]⟩

/-- Settles O19: the weights of the sum are positive (`mCalGK_sum`), and the last row of the matrix is zero. -/
theorem calibrationMatrixGKSums : Obligations.CalibrationMatrixGKSums := by
  intro v h0 h1 h2
  rw [mCalGK_sum]
  refine ⟨⟨fun h => ⟨by linarith, by linarith, by linarith⟩, fun ⟨e0, e1, e2⟩ => by rw [e0, e1, e2]; norm_num⟩,
    by linarith, fun u => ?_⟩
  simp only [rawToXYZExact, Mat4.rowTimes, mCalGK, mul_zero]

/-- Settles O20: the two branches determine the transfer function (`linearToSRGBExact_eq`). -/
theorem xyzToRGBExactNumbers : Obligations.XyzToRGBExactNumbers := by
  intro d o c h s f hnum ho hc hl hp
  rw [exec_xyzToRGB ho hc, xyzToRGB_exact hnum, xyzToRGBExact, linearToSRGBExact_eq hl hp]
  rfl

/-- Settles O21: one lemma for each branch. -/
theorem linearToSRGBTakesItsTwoBranches : Obligations.LinearToSRGBTakesItsTwoBranches := by
  intro d o c s hnum ho
  rw [exec_linearToSRGB d ho, linearToSRGB_exact hnum]
  exact ⟨fun h => by rw [linearToSRGBExact_of_le _ h], fun h => by rw [linearToSRGBExact_of_lt _ h]⟩

/-- Settles O22: the linear branch below zero; at one and above it the power branch, with `POW24(c)` at least one. -/
theorem transferFunctionDoesNotClamp : Obligations.TransferFunctionDoesNotClamp := by
  intro d c s hnum hone hmono
  refine ⟨_, exec_linearToSRGB d rfl, ?_⟩
  rw [linearToSRGB_exact hnum]
  refine ⟨fun hc => ?_, ?_, fun hc => ?_⟩
  · rw [linearToSRGBExact_of_le _ (by linarith)]
    exact ⟨rfl, by linarith⟩
  · rintro rfl
    rw [linearToSRGBExact_of_lt _ (by norm_num), show s.params.pow24 1 = 1 from hone]
    norm_num
  · have hpow : s.params.pow24 1 ≤ s.params.pow24 c := hmono (by norm_num [gammaT]) hc.le
    rw [show s.params.pow24 1 = 1 from hone] at hpow
    rw [linearToSRGBExact_of_lt _ (by linarith)]
    exact ⟨rfl, by linarith, fun h => by linarith⟩

/-- Settles O23: the error of `POW24` (P3), scaled by 1.055. -/
theorem transferFunctionIsAccurate : Obligations.TransferFunctionIsAccurate := by
  intro d c s hnum hc hacc
  refine ⟨_, exec_linearToSRGB d rfl, ?_⟩
  have hE : ((gammaE : Rat) : ℝ) = 5 / 12 := by norm_num [gammaE]
  have hp := hacc (gammaT_eq ▸ hc)
  rw [hE] at hp
  rw [linearToSRGB_exact hnum, linearToSRGBExact_of_lt _ hc]
  push_cast
  rw [sub_sub_sub_cancel_right, ← mul_sub, abs_mul, mul_assoc]
  norm_num at hp ⊢
  exact hp

/-- Settles O24: the polynomial is `CCTNumber`, and no domain reads `z` (`xyzToCCT_congr`). -/
theorem xyzToCCTExactPolynomial : Obligations.XyzToCCTExactPolynomial := by
  refine ⟨?_, fun d o o' c c' h h' s ho ho' hc hc' hx hy => ?_⟩
  · rintro d o c h s n hnum ho hc hy rfl
    exact exec_xyzToCCT_ok ho hc ((xyzToCCT_exact hnum h).trans (xyzToCCTExact_of_ne hy))
  · have hcongr := xyzToCCT_congr s.params.toColourParams hx hy
    cases hq : s.params.xyzToCCT h with
    | none => rw [exec_xyzToCCT_undefined ho hc hq, exec_xyzToCCT_undefined ho' hc' (hcongr ▸ hq)]
    | some q => rw [exec_xyzToCCT_ok ho hc hq, exec_xyzToCCT_ok ho' hc' (hcongr ▸ hq)]

/-! ### The statements about every number domain -/

/-- Settles O18: the quotients of `EXACT` (`chromaOf_sum`), and what a delivered chromaticity meets elsewhere
(`rawToXYZ_near`). -/
theorem chromaticitySumsToOne : Obligations.ChromaticitySumsToOne := by
  intro d o s t c h ht hlookup hc
  obtain ⟨cs, -, rfl⟩ := exec_rawToXYZ_next ht
  obtain rfl : s.params.rawToXYZ cs = c := by
    simpa [lookup_insertAt_same] using hlookup
  refine ⟨fun hnum => ?_, fun hnum => ?_⟩
  · rw [rawToXYZ_exact hnum] at hc
    exact chromaOf_sum hc
  · exact chromaConforms_sum ((rawToXYZ_near s.params.toColourParams hnum cs _ rfl).2 h hc)

/-- Settles O25: none of the three cases has a temperature (`xyzToCCT_eq_none`). -/
theorem cctUndefinedOnTheLine : Obligations.CCTUndefinedOnTheLine := by
  intro d o c h s ho hc
  have hnone : ¬ HasCCT s.params.num h → exec (.xyzToCCT d o) s = .next (s.deliver [] .undefinedCCT) :=
    fun hn => exec_xyzToCCT_undefined ho hc (xyzToCCT_eq_none hn)
  refine ⟨fun hy => hnone fun hg => y_ne_of_hasCCT hg hy, fun hnum hden => hnone ?_, fun hnum hinf => hnone ?_⟩
  · simp [HasCCT, hnum, hden]
  · simp [HasCCT, hnum, hinf]

/-- Settles O26: the status follows the chromaticity (`xyzStatus`), and the chromaticity the sum
(`rawToXYZ_chroma_eq_none_iff`). -/
theorem noChromaticityNoNumber : Obligations.NoChromaticityNoNumber := by
  refine ⟨fun d o cs s hcs => ?_, fun d o c s ho hc => ⟨exec_xyzToRGB_none ho hc, exec_xyzToCCT_none ho hc⟩⟩
  obtain ⟨hsum, hsum64⟩ := rawToXYZ_chroma_eq_none_iff s.params.toColourParams cs
  refine ⟨_, _, exec_rawToXYZ d hcs, ?_, xyzStatus_eq_undefined_iff, hsum, hsum64⟩
  cases hc : (s.params.rawToXYZ cs).chroma with
  | none => exact .inr (xyzStatus_none hc)
  | some g => exact .inl (xyzStatus_some hc)

/-- Settles O27: the name holds a colour without chromaticity. -/
theorem undefinedChromaticityPropagates : Obligations.UndefinedChromaticityPropagates := by
  intro d e o s t ht hstatus
  obtain ⟨cs, -, rfl⟩ := exec_rawToXYZ_next ht
  have hc : (s.params.rawToXYZ cs).chroma = none := xyzStatus_eq_undefined_iff.1 (by simpa using hstatus)
  have hvar := evalOperand_xyz_name s d (s.params.rawToXYZ cs) (xyzStatus (s.params.rawToXYZ cs))
  exact ⟨exec_xyzToRGB_none hvar hc, exec_xyzToCCT_none hvar hc⟩

/-- Settles O30: one delivery for each operation and each case of the chromaticity and the temperature. -/
theorem colourOperationsCompleteInEveryDomain : Obligations.ColourOperationsCompleteInEveryDomain := by
  refine fun d s => ⟨fun o ch ho => ?_, fun o cs hcs => ?_, fun o c ho => ?_, fun o q ho => ⟨_, exec_linearToSRGB d ho⟩,
    fun o c ho => ?_⟩
  · obtain ⟨v, hv, -⟩ := reconstructNeverOverflows d o ch s ho
    exact ⟨_, hv⟩
  · refine ⟨_, _, exec_rawToXYZ d hcs, ?_⟩
    cases hc : (s.params.rawToXYZ cs).chroma with
    | none => rw [xyzStatus_none hc]; exact .inr rfl
    | some g => rw [xyzStatus_some hc]; exact .inl rfl
  · cases hc : c.chroma with
    | none => exact ⟨_, _, exec_xyzToRGB_none ho hc, .inr rfl, by simp⟩
    | some g => exact ⟨_, _, exec_xyzToRGB ho hc, .inl rfl, by simp⟩
  · cases hc : c.chroma with
    | none => exact ⟨_, _, exec_xyzToCCT_none ho hc, .inr (.inl rfl)⟩
    | some g =>
      cases hq : s.params.xyzToCCT g with
      | none => exact ⟨_, _, exec_xyzToCCT_undefined ho hc hq, .inr (.inr rfl)⟩
      | some q => exact ⟨_, _, exec_xyzToCCT_ok ho hc hq, .inl rfl⟩

/-! ### The statements about `BINARY64` and `FIXED` -/

/-- Settles O28: what each operation delivers conforms (`linearToSRGB_near`, `xyzToRGB_near`, `xyzToCCT_near`,
`rawToXYZ_near`); and a chromaticity that conforms was tested with the two later operations (`chromaConforms_near`), which
read it from the name. -/
theorem nonExactNumbersStayWithinTolerance : Obligations.NonExactNumbersStayWithinTolerance := by
  intro d k s f hnum hf
  refine ⟨fun o c ho => ?_, fun o c h ho hc => ?_, ?_⟩
  · exact ⟨_, exec_linearToSRGB d ho, (withinE2E_srgb_iff hf _ _).2 (linearToSRGB_near _ hnum c)⟩
  · exact ⟨exec_xyzToRGB_within ho hc hf (xyzToRGB_near _ hnum h), exec_xyzToCCT_within ho hc (xyzToCCT_near _ hnum h)⟩
  · rintro o cs e hcs rfl
    obtain ⟨⟨hX, hY, hZ, hl⟩, hchroma⟩ := rawToXYZ_near s.params.toColourParams hnum cs _ rfl
    refine ⟨_, _, _, rfl, exec_rawToXYZ d hcs, withinE2E_cast.2 hX, withinE2E_cast.2 hY, withinE2E_cast.2 hZ,
      withinE2E_cast.2 hl, fun h g hc hg => ?_⟩
    have hconforms := hchroma h hc
    rw [hg] at hconforms
    obtain ⟨⟨hx, hy, hz⟩, hrgb, hcct⟩ := chromaConforms_near hconforms
    have hvar := evalOperand_xyz_name s d (s.params.rawToXYZ cs) (xyzStatus (s.params.rawToXYZ cs))
    exact ⟨withinE2E_cast.2 hx, withinE2E_cast.2 hy, withinE2E_cast.2 hz, exec_xyzToRGB_within hvar hc hf hrgb,
      exec_xyzToCCT_within hvar hc hcct⟩

/-- R137, R138: where a binary64 number conforms, the number delivered is one. -/
theorem holds64_of_near {ok : Rat → Bool} {e : ℝ} {q : Rat} (hok : ∀ b : Rat, WithinE2E b e ↔ ok b = true)
    (h : (∃ b, IsBinary64 b ∧ ok b = true) → IsBinary64 q) : Holds64 e q :=
  fun ⟨b, hb, hn⟩ => h ⟨b, hb, (hok b).1 hn⟩

/-- Settles O60: what conforms is delivered (the lemmas `…_own`), and what is delivered is a binary64 number where one
conforms (the lemmas `…_isBinary64`). -/
theorem binaryOperationsDeliverWhatTheyCompute : Obligations.BinaryOperationsDeliverWhatTheyCompute := by
  intro d s f t hnum hf ht
  have hlin := linearToSRGB64_finite ht
  refine ⟨fun o c x q ho hx hq hn => ?_, fun o c h x1 x2 x3 q1 q2 q3 ho hc h1 h2 h3 e1 e2 e3 hn => ?_,
    fun o c h q ho hc hden hq hn => ?_, ?_, fun o c ho => ?_, fun o c h ho hc => ⟨?_, fun q he => ?_⟩, ?_⟩
  · rw [exec_linearToSRGB d ho, linearToSRGB_own hnum (by rw [hx, hlin, hq]) ((withinE2E_srgb_iff hf _ _).1 hn)]
  · rw [exec_xyzToRGB ho hc, xyzToRGB_own hnum (by rw [h1, hlin, e1]) (by rw [h2, hlin, e2]) (by rw [h3, hlin, e3])
      ((rgbWithin_iff hf _ _ _).1 hn)]
  · exact exec_xyzToCCT_ok ho hc (xyzToCCT_own hnum (xyzToCCT64_eq_some_iff.2 ⟨hden, hq⟩) (withinE2E_cast.1 hn))
  · rintro o cs v m e X Y Z l S hcs rfl rfl he hX hY hZ hl nX nY nZ nl rfl
    have hcol : ∀ {x : Binary64} {q : Rat}, x = .finite q → x.number = some q := number_eq_some_iff.2
    obtain ⟨hzero, hne⟩ := rawToXYZ_own hnum he (hcol hX) (hcol hY) (hcol hZ) (hcol hl) (withinE2E_cast.1 nX)
      (withinE2E_cast.1 nY) (withinE2E_cast.1 nZ) (withinE2E_cast.1 nl)
    rw [exec_rawToXYZ d hcs]
    refine ⟨fun hS => by rw [hzero hS]; rfl, fun x y z hS hx hy hz nt => ?_⟩
    have hquot : quotients64 X Y Z = some ⟨x, y, z⟩ := by
      simp only [quotients64, sum64, hx, hy, hz, Chroma.ofBinary64, Binary64.number]
    rw [hne _ hS hquot nt]
    rfl
  · exact ⟨_, exec_linearToSRGB d ho, holds64_of_near (withinE2E_srgb_iff hf c) (linearToSRGB_isBinary64 hnum)⟩
  · obtain ⟨hr, hg, hb⟩ := xyzToRGB_isBinary64 hnum h
    exact ⟨_, exec_xyzToRGB ho hc, holds64_of_near (withinE2E_srgb_iff hf _) hr, holds64_of_near (withinE2E_srgb_iff hf _) hg,
      holds64_of_near (withinE2E_srgb_iff hf _) hb⟩
  · exact holds64_of_near (fun _ => withinE2E_cast) (xyzToCCT_isBinary64 hnum (xyzToCCT_of_exec ho hc he))
  · rintro o cs e hcs rfl
    obtain ⟨hX, hY, hZ, hl⟩ := rawToXYZ_numbers_isBinary64 hnum cs rfl
    exact ⟨_, _, exec_rawToXYZ d hcs, holds64_of_near (fun _ => withinE2E_cast) hX,
      holds64_of_near (fun _ => withinE2E_cast) hY, holds64_of_near (fun _ => withinE2E_cast) hZ,
      holds64_of_near (fun _ => withinE2E_cast) hl, fun h hc => rawToXYZ_chroma_isBinary64 hnum hc⟩

end Sys2Proof.Machine
end
